-- ==== Sys2Proof/Word.lean ====
section
/-! DEFINITION. The widths of the block's data: a control register is 32 bits wide and a dimension
field 16 bits wide, a pixel channel 8 bits unsigned (R11); bit 0 is the least significant (R12). -/

namespace Sys2Proof

/-- The value of a control register, or a command word (R11, R20, R59). -/
abbrev Word := BitVec 32

/-- A dimension or worker-count field, bits [15:0] of its register (R11, R23, R24, R25). -/
abbrev Half := BitVec 16

/-- One element of a buffer (R11, R38). -/
abbrev Byte := BitVec 8

end Sys2Proof
end

