-- ==== Sys2Proof/Config.lean ====
section
/-! DEFINITION. What an implementation fixes (the OPEN parameters of R8 to R10), the names of the
seven buffers, and the free values: the parameters of the build, and the turns no schedule gives. -/

namespace Sys2Proof

/-- The seven buffer memories, ids 0 to 6 in this order (R31). -/
inductive BufId where
  | src
  | gray
  | sepia
  | neg
  | edge
  | tin
  | tout
  deriving DecidableEq, Repr

/-- The OPEN parameters of a build. Their constraints (R8, R9, R26, R40) are `paramsOk` of
Machine/AddressMap.lean. -/
structure Params where
  /-- `NMAX`, the number of physical lanes (R8). -/
  nmax : Nat
  /-- `MAX_ROWS` (R9). -/
  maxRows : Nat
  /-- `MAX_COLS` (R9). -/
  maxCols : Nat
  /-- `REG_BASE` (R10, R40). -/
  regBase : Nat
  /-- `BUF_BASE` (R10, R40). -/
  bufBase : Nat
  /-- `BUF_STRIDE` (R10, R40). -/
  bufStride : Nat
  deriving DecidableEq, Repr, Inhabited

/-- Who takes the next step: "Any enabled agent may take a step at any time" (R66). -/
inductive Turn where
  /-- The host makes its next access. -/
  | host
  /-- The sequencer passes the stage barrier or completes the command, if it can. -/
  | sequencer
  /-- Lane `k` does the `n`-th (counted modulo their number) of the work items it has left:
  "The order in which a lane visits its pixels is unspecified" (R30, R76). -/
  | lane (k n : Nat)
  /-- The block is reset (R112, R113). -/
  | reset
  deriving DecidableEq, Repr, Inhabited

/-- DESIGN CHOICE (log 1). The parameters of the build the block is reset in: free. -/
opaque Config.rawParams : Params

/-- DESIGN CHOICE (log 3). The turns taken where State lists none: free. -/
opaque Config.freeTurn : Nat → Turn

end Sys2Proof
end

