-- ==== Sys2Proof/Machine/Buffers.lean ====
section
/-! DEFINITION. The buffer memories: sparse memories of (offset, byte) pairs in one canonical form,
and the seven of them by id (R31, R32). -/

namespace Sys2Proof.Machine

/-- The contents of one buffer: the bytes that have been written, at strictly rising offsets.
An offset that is not listed is `uninit` (R32, R46). -/
abbrev Memory := List Host.Cell

/-- The byte at an offset, or `none` where it is `uninit` (R14, R46). -/
def Memory.read : Memory → Nat → Option Byte
  | [], _ => none
  | (a, v) :: rest, off => if off = a then some v else Memory.read rest off

/-- `MemWrite`: the byte at `off` becomes `v`, no other byte changes (R14, R43). -/
def Memory.write : Memory → Nat → Byte → Memory
  | [], off, v => [(off, v)]
  | (a, u) :: rest, off, v =>
    if off < a then (off, v) :: (a, u) :: rest
    else if off = a then (off, v) :: rest
    else (a, u) :: Memory.write rest off v

/-- Every listed offset of the memory is at least `lo`, and they rise strictly. -/
def Memory.risingFrom : Nat → Memory → Bool
  | _, [] => true
  | lo, (a, _) :: rest => decide (lo ≤ a) && Memory.risingFrom (a + 1) rest

/-- The canonical form: offsets strictly rising. An unlisted offset reads as `uninit`, which no
listed byte is, so equal memories are equal lists. -/
def Memory.wf (m : Memory) : Bool := Memory.risingFrom 0 m

/-- Every listed offset lies below `cap`. -/
def Memory.below (cap : Nat) (m : Memory) : Bool := m.all (fun c => decide (c.1 < cap))

/-- All seven ids in order (R31). -/
def bufIds : List BufId := [.src, .gray, .sepia, .neg, .edge, .tin, .tout]

/-- The id number of a buffer (R31). -/
def bufNumber : BufId → Nat
  | .src => 0
  | .gray => 1
  | .sepia => 2
  | .neg => 3
  | .edge => 4
  | .tin => 5
  | .tout => 6

/-- The channel count `c(b)` (R31). -/
def channels : BufId → Nat
  | .src => 3
  | .gray => 1
  | .sepia => 3
  | .neg => 3
  | .edge => 1
  | .tin => 1
  | .tout => 1

/-- The capacity of buffer `b`, `MAX_ROWS * MAX_COLS * c(b)` bytes (R31). -/
def capacity (p : Params) (b : BufId) : Nat := p.maxRows * p.maxCols * channels b

/-- The seven buffer memories (R31). -/
structure Buffers where
  src : Memory
  gray : Memory
  sepia : Memory
  neg : Memory
  edge : Memory
  tin : Memory
  tout : Memory
  deriving DecidableEq, Repr

/-- Every byte of every buffer `uninit` (R32, R112). -/
def Buffers.uninit : Buffers :=
  { src := [], gray := [], sepia := [], neg := [], edge := [], tin := [], tout := [] }

/-- The memory of one buffer. -/
def Buffers.get (m : Buffers) : BufId → Memory
  | .src => m.src
  | .gray => m.gray
  | .sepia => m.sepia
  | .neg => m.neg
  | .edge => m.edge
  | .tin => m.tin
  | .tout => m.tout

/-- The buffers with the memory of one of them replaced. -/
def Buffers.set (m : Buffers) (b : BufId) (mem : Memory) : Buffers :=
  match b with
  | .src => { m with src := mem }
  | .gray => { m with gray := mem }
  | .sepia => { m with sepia := mem }
  | .neg => { m with neg := mem }
  | .edge => { m with edge := mem }
  | .tin => { m with tin := mem }
  | .tout => { m with tout := mem }

/-- The byte of buffer `b` at an offset, `none` where it is `uninit`. -/
def Buffers.read (m : Buffers) (b : BufId) (off : Nat) : Option Byte := (m.get b).read off

/-- One byte of buffer `b` written. -/
def Buffers.write (m : Buffers) (b : BufId) (off : Nat) (v : Byte) : Buffers :=
  m.set b ((m.get b).write off v)

end Sys2Proof.Machine
end

