-- ==== Sys2Proof/Machine/AddressMap.lean ====
section
/-! DEFINITION. Where the host finds the register window and the seven buffer windows (R40), the
constraints on the OPEN parameters, and the parameters of the build. -/

namespace Sys2Proof.Machine

/-- The size of the register window in bytes (R20). -/
abbrev regWindowBytes : Nat := 0x100

/-- The first bus address of buffer `b`'s window (R40). -/
def bufStart (p : Params) (b : BufId) : Nat := p.bufBase + bufNumber b * p.bufStride

/-- The register window and buffer `b`'s window have no byte in common (R40). -/
def regApart (p : Params) (b : BufId) : Bool :=
  decide (p.regBase + regWindowBytes ≤ bufStart p b) ||
  decide (bufStart p b + capacity p b ≤ p.regBase)

/-- The constraints on the parameters: `1 <= NMAX <= 65535` (R8, R26), `MAX_ROWS` and `MAX_COLS` in
1 to 65535 (R9), `BUF_STRIDE >= 3 * MAX_ROWS * MAX_COLS` (which keeps the buffer windows apart from
each other), and the register window apart from each of them (R40). -/
def paramsOk (p : Params) : Bool :=
  decide (1 ≤ p.nmax) && decide (p.nmax ≤ 65535) &&
  decide (1 ≤ p.maxRows) && decide (p.maxRows ≤ 65535) &&
  decide (1 ≤ p.maxCols) && decide (p.maxCols ≤ 65535) &&
  decide (3 * p.maxRows * p.maxCols ≤ p.bufStride) &&
  bufIds.all (regApart p)

/-- DESIGN CHOICE (log 1). The least parameters the constraints allow, used only if the free
`Config.rawParams` breaks them, so that the build's parameters are known to keep them and
nothing else is known of them. -/
def leastParams : Params :=
  { nmax := 1, maxRows := 1, maxCols := 1, regBase := 0, bufBase := regWindowBytes, bufStride := 3 }

/-- DESIGN CHOICE (log 1). The parameters of the build: free within their constraints. -/
def buildParams : Params :=
  if paramsOk Config.rawParams then Config.rawParams else leastParams

/-- A location the host names: (window, offset), or a bus address (R40: "A model may name a location
as (window, offset)"). -/
inductive Place where
  /-- A byte offset from `REG_BASE`. -/
  | reg (off : Nat)
  /-- A byte offset in the window of buffer `b`. -/
  | buf (b : BufId) (off : Nat)
  /-- A bus address. -/
  | bus (addr : Nat)
  deriving DecidableEq, Repr

/-- The buffer among `bs` whose window holds the address, with the offset in it (R40). -/
def locateBuf (p : Params) (addr : Nat) : List BufId → Option Place
  | [] => none
  | b :: bs =>
    if bufStart p b ≤ addr ∧ addr < bufStart p b + capacity p b then
      some (.buf b (addr - bufStart p b))
    else locateBuf p addr bs

/-- The (window, offset) of a location; a bus address in no window has none (R40, R41; log 2). -/
def locate (p : Params) : Place → Option Place
  | .reg off => some (.reg off)
  | .buf b off => some (.buf b off)
  | .bus addr =>
    if p.regBase ≤ addr ∧ addr < p.regBase + regWindowBytes then some (.reg (addr - p.regBase))
    else locateBuf p addr bufIds

end Sys2Proof.Machine
end

