-- ==== Sys2Proof/Syntax.lean ====
section
/-! DEFINITION. The six commands of spec/opcode_table.json. A command word carries no operand:
what it reads and writes is fixed per opcode and its dimensions are latched (R60, R63). -/

namespace Sys2Proof

/-- The commands a CMD word can select (R61). -/
inductive Instr where
  /-- Grayscale of SRC into GRAY (R80). -/
  | gray
  /-- Sepia tone of SRC into SEPIA (R83). -/
  | sepia
  /-- Colour negative of SRC into NEG (R85). -/
  | neg
  /-- Sobel edge map of GRAY into EDGE (R91). -/
  | sobel
  /-- Threshold invert of TIN into TOUT (R93). -/
  | thrinv
  /-- The two-stage run: GRAY, SEPIA and NEG, the barrier, SOBEL (R94). -/
  | run
  deriving DecidableEq, Repr

end Sys2Proof
end

