-- ==== Sys2Proof/Machine/State.lean ====
section
/-! DEFINITION. The state of the block as plain data, with the host agent and the order of turns;
the reasons a step can stop; the state after reset (R17 to R35, R66, R100, R112). -/

namespace Sys2Proof.Machine

/-- STATUS (R22): its five fields. Bits [31:8] are hard-wired to 0 and are not held. -/
structure Status where
  /-- BUSY, bit 0: a command is running. -/
  busy : Bool
  /-- DONE, bit 1: the last CMD write taken while not busy was completed or rejected. -/
  done : Bool
  /-- ERR, bit 2: the last CMD write taken while not busy was rejected. -/
  err : Bool
  /-- OVR, bit 3, write 1 to clear: a CMD write arrived while busy and was dropped. -/
  ovr : Bool
  /-- ERRCODE, bits [7:4]. -/
  errcode : BitVec 4
  deriving DecidableEq, Repr

/-- `phase` (R29). -/
inductive Phase where
  /-- No command is running. -/
  | idle
  /-- A one-stage command is running. -/
  | single
  /-- RUN's first stage. -/
  | stageA
  /-- RUN's second stage. -/
  | stageB
  deriving DecidableEq, Repr

/-- A band: the half-open row range `[start, stop)` (R16, R72). -/
structure Band where
  start : Nat
  stop : Nat
  deriving DecidableEq, Repr

/-- One work item of a lane: one pass of the loop body of a command's pseudocode, for the pixel in
row `i` and column `j` (R80, R83, R85, R91, R93). -/
inductive Work where
  | gray (i j : Nat)
  | sepia (i j : Nat)
  /-- NEG's loop runs over the channels too (R85). -/
  | neg (i j ch : Nat)
  | sobel (i j : Nat)
  | thrinv (i j : Nat)
  deriving DecidableEq, Repr

/-- One lane (R30), with its bit of `laneDone` (R29). -/
structure Lane where
  /-- The band of the current stage. -/
  band : Band
  /-- What of the band is not yet finished: the complement of R30's set of finished pixels. -/
  todo : List Work
  /-- The stage uses this lane (R70: "every lane `k` the stage uses"; R75). -/
  active : Bool
  /-- `laneDone[k]` (R29). -/
  done : Bool
  deriving DecidableEq, Repr

/-- One access of the host (R41, R64), or its polling loop. -/
inductive HostOp where
  /-- A read of `bits` bits. -/
  | read (place : Place) (bits : Nat)
  /-- A write of `bits` bits of `value`. -/
  | write (place : Place) (bits : Nat) (value : Nat)
  /-- `wait` of R65: read STATUS, and again while bit 0 of the value read is 1. -/
  | wait
  deriving DecidableEq, Repr

/-- Why a step stops with a fault: the four model faults of R100. Each is safe: the model stops
where the block does something the spec does not fix. -/
inductive Fault where
  /-- A lane or the host reads a byte marked `uninit` (R46): raised by `State.fetch`. Safe. -/
  | uninitRead (b : BufId) (off : Nat)
  /-- A conflicting host access to a buffer of the running command (R51): raised by the host's
  buffer accesses. Safe. -/
  | hostRace (b : BufId) (off : Nat)
  /-- A host access of a width, alignment or offset without a meaning (R41): raised by the host's
  accesses. Safe. -/
  | hostBadAccess
  /-- A band outside `[0, LROWS)` (R98, R100): raised where a stage starts, never reached under the
  partition of R72. Safe. -/
  | outOfRange
  deriving DecidableEq, Repr

/-- Why an instruction is refused. -/
inductive Refusal where
  /-- An instruction without a meaning yet, by its mnemonic: raised by `exec` only. Safe. -/
  | notModelled (mnemonic : String)
  deriving DecidableEq, Repr

/-- Everything the spec gives the block, the host's pending accesses, and the order of turns. -/
structure State where
  /-- The OPEN parameters of the build (R8 to R10); no step changes them. HWPAR reads NMAX (R26). -/
  params : Params
  /-- STATUS (R22). -/
  status : Status
  /-- ROWS, bits [15:0] (R23). -/
  rows : Half
  /-- COLS, bits [15:0] (R24). -/
  cols : Half
  /-- NWORKERS, bits [15:0] (R25). -/
  nworkers : Half
  /-- LROWS (R28). -/
  lrows : Nat
  /-- LCOLS (R28). -/
  lcols : Nat
  /-- LN (R28, R71). -/
  ln : Nat
  /-- `phase` (R29). -/
  phase : Phase
  /-- `curop` (R29). -/
  curop : Instr
  /-- The lanes `0` to `LN - 1` of the stage, each with its `laneDone` bit (R29, R30). -/
  lanes : List Lane
  /-- The seven buffer memories (R31). -/
  bufs : Buffers
  /-- MODEL's own (log 11): the host's accesses still to be made, in program order (R48). -/
  hostOps : List HostOp
  /-- MODEL's own (log 11): the values the host's reads returned, newest first. -/
  hostReads : List Word
  /-- MODEL's own (log 3): the turns chosen for the coming steps. -/
  sched : List Turn
  /-- MODEL's own (log 3): how many turns were drawn from `Config.freeTurn`. -/
  turnCount : Nat
  deriving DecidableEq, Repr

/-- The outcome of a step or of an instruction. -/
abbrev Result := Host.Outcome State Fault Refusal

/-- STATUS after reset: 0 (R35). -/
def Status.reset : Status := { busy := false, done := false, err := false, ovr := false, errcode := 0 }

/-- The state after reset of a build with parameters `p` (R35, R112). LROWS, LCOLS, LN, `curop` and
the lanes are unspecified and unobservable there (R28, R29): DESIGN CHOICE (log 6). -/
def State.resetWith (p : Params) : State :=
  { params := p
    status := Status.reset
    rows := 0
    cols := 0
    nworkers := BitVec.ofNat 16 p.nmax
    lrows := 0
    lcols := 0
    ln := 0
    phase := .idle
    curop := .gray
    lanes := []
    bufs := Buffers.uninit
    hostOps := []
    hostReads := []
    sched := []
    turnCount := 0 }

/-- The machine right after reset (R35, R112). -/
def State.reset : State := State.resetWith buildParams

end Sys2Proof.Machine
end

