-- ==== Sys2Proof/Machine/Flags.lean ====
section
/-! DEFINITION. The STATUS register: its value as the host reads it, and every way the block changes
its fields (R19, R22, R67 to R70, R98, R103). -/

namespace Sys2Proof.Machine

/-- The value a host read of STATUS returns: ERRCODE in [7:4], OVR 3, ERR 2, DONE 1, BUSY 0, the
rest 0 (R22). -/
def Status.word (t : Status) : Word :=
  (0#24 ++ t.errcode ++ BitVec.ofBool t.ovr ++ BitVec.ofBool t.err ++ BitVec.ofBool t.done ++
    BitVec.ofBool t.busy : BitVec 32)

/-- A host write of `v`: bit 3 set clears OVR, "Every other bit of the written value is ignored" (R22). -/
def Status.hostWrite (t : Status) (v : Word) : Status :=
  if v.getLsbD 3 then { t with ovr := false } else t

/-- What a CMD write taken while not busy clears before the word is decoded (R67, R103). -/
def Status.cleared (t : Status) : Status := { t with done := false, err := false, errcode := 0 }

/-- A rejection: ERR, ERRCODE and DONE (R68). -/
def Status.rejected (t : Status) (code : BitVec 4) : Status :=
  { t with err := true, errcode := code, done := true }

/-- An overrun: a CMD write dropped while busy (R67). -/
def Status.overrun (t : Status) : Status := { t with ovr := true }

/-- Acceptance: BUSY (R69). -/
def Status.accepted (t : Status) : Status := { t with busy := true }

/-- Completion: BUSY and DONE (R70). -/
def Status.completed (t : Status) : Status := { t with busy := false, done := true }

/-- ERRCODE of InvalidDimensions (R98). -/
abbrev errInvalidDimensions : BitVec 4 := 1

/-- ERRCODE of WorkerFailure, never set (R78, R98). -/
abbrev errWorkerFailure : BitVec 4 := 2

/-- ERRCODE of OutOfRangeAccess, never set (R73, R98). -/
abbrev errOutOfRangeAccess : BitVec 4 := 3

/-- ERRCODE of IllegalCommand (R98). -/
abbrev errIllegalCommand : BitVec 4 := 4

end Sys2Proof.Machine
end

