-- ==== Sys2Proof/Machine/Operands.lean ====
section
/-! DEFINITION. The operands of the commands: the buffers each one reads and writes, the effective
worker count, the partition into row bands, the layout of a pixel (R36, R37, R63, R71, R72). -/

namespace Sys2Proof.Machine

/-- The buffers a command reads (R63). -/
def cmdReads : Instr → List BufId
  | .gray => [.src]
  | .sepia => [.src]
  | .neg => [.src]
  | .sobel => [.gray]
  | .thrinv => [.tin]
  | .run => [.src, .gray]

/-- The buffers a command writes (R63). -/
def cmdWrites : Instr → List BufId
  | .gray => [.gray]
  | .sepia => [.sepia]
  | .neg => [.neg]
  | .sobel => [.edge]
  | .thrinv => [.tout]
  | .run => [.gray, .sepia, .neg, .edge]

/-- `LN = min(max(NWORKERS, 1), NMAX)` (R71). -/
def effectiveWorkers (nworkers nmax : Nat) : Nat := min (max nworkers 1) nmax

/-- Band `k` of `bands(rows, N)`: the last one absorbs the remainder (R72). -/
def bandOf (rows n k : Nat) : Band :=
  if k + 1 = n then { start := k * (rows / n), stop := rows }
  else { start := k * (rows / n), stop := (k + 1) * (rows / n) }

/-- `bands(rows, N)`, the list of `N` half-open row ranges (R72). -/
def bands (rows n : Nat) : List Band := (List.range n).map (bandOf rows n)

/-- The byte offset of channel `k` of pixel `(i, j)` in buffer `b` under the column count `cols` (R36). -/
def pixelOffset (cols : Nat) (b : BufId) (i j k : Nat) : Nat := (i * cols + j) * channels b + k

/-- The size of the image area of buffer `b`: a command touches only the offsets below it (R39). -/
def imageBytes (rows cols : Nat) (b : BufId) : Nat := rows * cols * channels b

/-- A dimension is 0 or above its maximum (R67). -/
def dimensionsBad (p : Params) (rows cols : Nat) : Bool :=
  decide (rows = 0) || decide (cols = 0) || decide (p.maxRows < rows) || decide (p.maxCols < cols)

/-- The rows of a band, in order. -/
def bandRows (b : Band) : List Nat := List.range' b.start (b.stop - b.start)

/-- The pixels `(i, j)` of a band of an image with `cols` columns (R74). -/
def bandPixels (cols : Nat) (b : Band) : List (Nat × Nat) :=
  (bandRows b).flatMap (fun i => (List.range cols).map (fun j => (i, j)))

/-- The lanes of a banded stage: lane `k < LN` takes band `k`, with all its work to do and its
`laneDone` bit clear (R69, R72, R74). -/
def bandedLanes (work : Nat → Band → List Work) (s : State) : List Lane :=
  (bands s.lrows s.ln).map (fun b => { band := b, todo := work s.lcols b, active := true, done := false })

/-- The lanes of THRINV's stage: lane 0 takes the whole image, the others are not used (R75; log 18). -/
def singleLane (work : Nat → Band → List Work) (s : State) : List Lane :=
  (List.range s.ln).map (fun k =>
    if k = 0 then
      { band := { start := 0, stop := s.lrows }, todo := work s.lcols { start := 0, stop := s.lrows }
        active := true, done := false }
    else { band := { start := 0, stop := 0 }, todo := [], active := false, done := false })

end Sys2Proof.Machine
end

