-- ==== Sys2Proof/Machine/Ops.lean ====
section
/-! DEFINITION. The operations every command shares: one byte read and written by a lane, the CMD
write and its outcomes (overrun, rejection, acceptance), the start of a stage, completion, reset
(R14, R46, R67 to R70, R112, R113). -/

namespace Sys2Proof.Machine

/-- `MemRead(buf, off, 1)`, a byte as a number, or the fault `UninitRead` naming it (R14, R46). -/
def State.fetch (s : State) (b : BufId) (off : Nat) : Except Fault Nat :=
  match s.bufs.read b off with
  | some v => .ok v.toNat
  | none => .error (.uninitRead b off)

/-- `px(buf, i, j, k)` (R14): channel `k` of pixel `(i, j)` under the latched column count. -/
def State.px (s : State) (b : BufId) (i j k : Nat) : Except Fault Nat :=
  s.fetch b (pixelOffset s.lcols b i j k)

/-- `MemWrite(buf, off, 1, v)` at channel `k` of pixel `(i, j)` (R14, R36). -/
def State.putPx (s : State) (b : BufId) (i j k v : Nat) : State :=
  { s with bufs := s.bufs.write b (pixelOffset s.lcols b i j k) (BitVec.ofNat 8 v) }

/-- A CMD write while BUSY = 1: "command dropped, nothing else changes" (R67). -/
def State.overrun (s : State) : State := { s with status := s.status.overrun }

/-- What a CMD write taken while not busy clears first (R67). -/
def State.clearResult (s : State) : State := { s with status := s.status.cleared }

/-- `raise Reject(code)`: STATUS records it, nothing else changes; there is no vector, no saved
state and no return (R68, R102, R103). -/
def State.reject (s : State) (code : BitVec 4) : State := { s with status := s.status.rejected code }

/-- The copies taken at acceptance: LROWS, LCOLS, LN (R28, R69). -/
def State.latch (s : State) : State :=
  { s with
    lrows := s.rows.toNat
    lcols := s.cols.toNat
    ln := effectiveWorkers s.nworkers.toNat s.params.nmax }

/-- A band that is no part of `[0, LROWS)` (R100). -/
def bandOutside (rows : Nat) (l : Lane) : Bool :=
  decide (l.band.stop < l.band.start) || decide (rows < l.band.stop)

/-- The start of a stage: its phase, its lanes with their bands, `laneDone` clear (R69); the model
fault `OutOfRange` if the partition left the image (R100). -/
def State.startStage (s : State) (ph : Phase) (lanes : List Lane) : Result :=
  if lanes.any (bandOutside s.lrows) then .fault .outOfRange
  else .next { s with phase := ph, lanes := lanes }

/-- `accept(op)`: latch, BUSY, `curop`, and the first stage with the lanes of `plan` (R69). -/
def State.accept (s : State) (op : Instr) (ph : Phase) (plan : State → List Lane) : Result :=
  let t : State := { s.latch with status := s.status.accepted, curop := op }
  t.startStage ph (plan t)

/-- The write to CMD of the word of command `op` (R67): an overrun while busy; else, the result
fields cleared, InvalidDimensions or acceptance. `ph` and `plan` are the command's first stage. -/
def State.issue (s : State) (op : Instr) (ph : Phase) (plan : State → List Lane) : Result :=
  if s.status.busy then .next s.overrun
  else if dimensionsBad s.params s.rows.toNat s.cols.toNat then
    .next (s.clearResult.reject errInvalidDimensions)
  else s.clearResult.accept op ph plan

/-- The write to CMD of a word that selects no command (R62, R67). -/
def State.issueIllegal (s : State) : State :=
  if s.status.busy then s.overrun else s.clearResult.reject errIllegalCommand

/-- Completion, in one step: `phase`, BUSY, DONE (R70). -/
def State.complete (s : State) : State := { s with phase := .idle, status := s.status.completed }

/-- "`laneDone[k] = 1` for every lane `k` the stage uses" (R70). -/
def State.stageComplete (s : State) : Bool := s.lanes.all (fun l => !l.active || l.done)

/-- Lane `k` replaced. -/
def State.setLane (s : State) (k : Nat) (l : Lane) : State := { s with lanes := s.lanes.set k l }

/-- Reset (R112), also while BUSY = 1, when it abandons the running command (R113): the block's
state is that of reset; the build's parameters, the host and the schedule are outside it (log 12). -/
def State.hardReset (s : State) : State :=
  { State.resetWith s.params with
    hostOps := s.hostOps
    hostReads := s.hostReads
    sched := s.sched
    turnCount := s.turnCount }

end Sys2Proof.Machine
end

