-- ==== Sys2Proof/Machine/Pixels.lean ====
section
/-! DEFINITION. The per-pixel functions as exact integer arithmetic, with their constant tables
(R13, R33, R34, R79, R81, R84, R87, R88, R92). -/

namespace Sys2Proof.Machine

/-- `sat8(v) = min(255, max(0, v))` (R13). -/
def sat8 (v : Int) : Nat := (min 255 (max 0 v)).toNat

/-- The digits of the integer square root, two bits of `n` at a time. -/
def isqrtFuel : Nat → Nat → Nat
  | 0, _ => 0
  | fuel + 1, n =>
    if n = 0 then 0
    else if (2 * isqrtFuel fuel (n / 4) + 1) * (2 * isqrtFuel fuel (n / 4) + 1) ≤ n then
      2 * isqrtFuel fuel (n / 4) + 1
    else 2 * isqrtFuel fuel (n / 4)

/-- `isqrt(n)`, "the greatest integer `m` with `m*m <= n`" (R13). -/
def isqrt (n : Nat) : Nat := isqrtFuel n n

/-- The grayscale function: the truncated average of the three channels (R79). -/
def grayValue (c0 c1 c2 : Nat) : Nat := (c0 + c1 + c2) / 3

/-- The sepia coefficients in thousandths, `SEP[out][in]`, channels in the order B, G, R (R34). -/
def SEP : List (List Nat) := [[131, 534, 272], [168, 686, 349], [189, 769, 393]]

/-- `SEP[o][k]` (R34). -/
def sepCoeff (o k : Nat) : Nat := (SEP.getD o []).getD k 0

/-- `acc_o` of the sepia function (R81). -/
def sepiaAcc (o c0 c1 c2 : Nat) : Nat := sepCoeff o 0 * c0 + sepCoeff o 1 * c1 + sepCoeff o 2 * c2

/-- `out_o` of the sepia function: truncated to an integer, then saturated (R81). -/
def sepiaValue (o c0 c1 c2 : Nat) : Nat := sat8 ((sepiaAcc o c0 c1 c2 / 1000 : Nat) : Int)

/-- The negative of one channel (R84). -/
def negValue (x : Nat) : Nat := 255 - x

/-- The threshold-invert function: unsigned and strict (R92). -/
def thrValue (v : Nat) : Nat := if 127 < v then 255 - v else v

/-- `KX`, rows from the top, columns from the left (R33). -/
def KX : List (List Int) := [[1, 0, -1], [2, 0, -2], [1, 0, -1]]

/-- `KY` (R33). -/
def KY : List (List Int) := [[1, 2, 1], [0, 0, 0], [-1, -2, -1]]

/-- The nine positions `(r, s) = (di + 1, dj + 1)` of the window, row by row (R87). -/
def windowPositions : List (Nat × Nat) :=
  [(0, 0), (0, 1), (0, 2), (1, 0), (1, 1), (1, 2), (2, 0), (2, 1), (2, 2)]

/-- `K[r][s]` (R33). -/
def kernelAt (K : List (List Int)) (r s : Nat) : Int := (K.getD r []).getD s 0

/-- A gradient sum over the window positions `ps` whose tap values are `vs`, in the same order; a
skipped tap has value 0 and so adds nothing (R86, R87). -/
def gradient (K : List (List Int)) : List (Nat × Nat) → List Nat → Int
  | (r, s) :: ps, v :: vs => kernelAt K r s * (v : Int) + gradient K ps vs
  | _, _ => 0

/-- `n = Gx_sum^2 + Gy_sum^2` (R88). -/
def gradientSquare (gx gy : Int) : Nat := (gx * gx + gy * gy).toNat

/-- The Sobel output of two gradient sums: the inverted, saturated magnitude (R88). -/
def edgeValue (gx gy : Int) : Nat := 255 - sat8 (isqrt (gradientSquare gx gy) : Int)

/-- The Sobel output of the nine tap values of a window (R87, R88). -/
def sobelValue (taps : List Nat) : Nat :=
  edgeValue (gradient KX windowPositions taps) (gradient KY windowPositions taps)

end Sys2Proof.Machine
end

