-- ==== Sys2Proof/Machine/Gray.lean ====
section
/-! DEFINITION. GRAY, the grayscale converter (R79, R80). -/

namespace Sys2Proof.Machine

/-- A lane's work in a GRAY stage: the pixels of its band (R80). -/
def grayWork (cols : Nat) (b : Band) : List Work :=
  (bandPixels cols b).map (fun p => .gray p.1 p.2)

/-- GRAY's loop body for pixel `(i, j)` (R80). -/
def grayPixel (i j : Nat) (s : State) : Except Fault State := do
  let c0 ← s.px .src i j 0
  let c1 ← s.px .src i j 1
  let c2 ← s.px .src i j 2
  return s.putPx .gray i j 0 (grayValue c0 c1 c2)

/-- GRAY: the CMD write of its word (R67), one banded stage (R80). -/
def execGray (s : State) : Result := s.issue .gray .single (bandedLanes grayWork)

end Sys2Proof.Machine
end

