-- ==== Sys2Proof/Machine/Neg.lean ====
section
/-! DEFINITION. NEG, the colour negative inverter (R84, R85). -/

namespace Sys2Proof.Machine

/-- A lane's work in a NEG stage: the channels of the pixels of its band, each on its own (R85). -/
def negWork (cols : Nat) (b : Band) : List Work :=
  (bandPixels cols b).flatMap (fun p => [.neg p.1 p.2 0, .neg p.1 p.2 1, .neg p.1 p.2 2])

/-- NEG's loop body for channel `ch` of pixel `(i, j)` (R85). -/
def negChannel (i j ch : Nat) (s : State) : Except Fault State := do
  let x ← s.px .src i j ch
  return s.putPx .neg i j ch (negValue x)

/-- NEG: the CMD write of its word (R67), one banded stage (R85). -/
def execNeg (s : State) : Result := s.issue .neg .single (bandedLanes negWork)

end Sys2Proof.Machine
end

