-- ==== Sys2Proof/Machine/Sepia.lean ====
section
/-! DEFINITION. SEPIA, the sepia tone matrix (R81 to R83). -/

namespace Sys2Proof.Machine

/-- A lane's work in a SEPIA stage: the pixels of its band (R83). -/
def sepiaWork (cols : Nat) (b : Band) : List Work :=
  (bandPixels cols b).map (fun p => .sepia p.1 p.2)

/-- SEPIA's loop body for pixel `(i, j)`: three channels written in order (R83). -/
def sepiaPixel (i j : Nat) (s : State) : Except Fault State := do
  let c0 ← s.px .src i j 0
  let c1 ← s.px .src i j 1
  let c2 ← s.px .src i j 2
  let s0 := s.putPx .sepia i j 0 (sepiaValue 0 c0 c1 c2)
  let s1 := s0.putPx .sepia i j 1 (sepiaValue 1 c0 c1 c2)
  return s1.putPx .sepia i j 2 (sepiaValue 2 c0 c1 c2)

/-- SEPIA: the CMD write of its word (R67), one banded stage (R83). -/
def execSepia (s : State) : Result := s.issue .sepia .single (bandedLanes sepiaWork)

end Sys2Proof.Machine
end

