-- ==== Sys2Proof/Machine/Sobel.lean ====
section
/-! DEFINITION. SOBEL, the edge detector (R86 to R91). -/

namespace Sys2Proof.Machine

/-- A lane's work in a SOBEL stage: the pixels of its band (R91). -/
def sobelWork (cols : Nat) (b : Band) : List Work :=
  (bandPixels cols b).map (fun p => .sobel p.1 p.2)

/-- The value of window position `(r, c)` of pixel `(i, j)`: the tap `(r - 1, c - 1)`, read from
GRAY where it is in bounds; an out-of-bounds tap reads no memory and adds nothing (R86). -/
def tapValue (s : State) (i j : Nat) (pos : Nat × Nat) : Except Fault Nat :=
  if 1 ≤ i + pos.1 ∧ i + pos.1 < s.lrows + 1 ∧ 1 ≤ j + pos.2 ∧ j + pos.2 < s.lcols + 1 then
    s.px .gray (i + pos.1 - 1) (j + pos.2 - 1) 0
  else .ok 0

/-- The values of a list of window positions, read in order (R87; logs 8, 9). -/
def tapValues (s : State) (i j : Nat) : List (Nat × Nat) → Except Fault (List Nat)
  | [] => .ok []
  | pos :: rest => do
    let v ← tapValue s i j pos
    let vs ← tapValues s i j rest
    return v :: vs

/-- SOBEL's loop body for pixel `(i, j)` (R91). -/
def sobelPixel (i j : Nat) (s : State) : Except Fault State := do
  let taps ← tapValues s i j windowPositions
  return s.putPx .edge i j 0 (sobelValue taps)

/-- SOBEL: the CMD write of its word (R67), one banded stage (R91). -/
def execSobel (s : State) : Result := s.issue .sobel .single (bandedLanes sobelWork)

end Sys2Proof.Machine
end

