-- ==== Sys2Proof/Machine/Run.lean ====
section
/-! DEFINITION. RUN, the two-stage pipeline run (R94 to R97). -/

namespace Sys2Proof.Machine

/-- A lane's work in stage A: GRAY, SEPIA and NEG of the pixels of its band, in any order (R94). -/
def stageAWork (cols : Nat) (b : Band) : List Work :=
  grayWork cols b ++ sepiaWork cols b ++ negWork cols b

/-- RUN: the CMD write of its word (R67), its first stage is stage A (R94). -/
def execRun (s : State) : Result := s.issue .run .stageA (bandedLanes stageAWork)

/-- The stage barrier is passed: stage B, SOBEL on the same bands, `laneDone` clear (R94, R95). -/
def State.startStageB (s : State) : Result := s.startStage .stageB (bandedLanes sobelWork s)

end Sys2Proof.Machine
end

