-- ==== Sys2Proof/Machine/ThrInv.lean ====
section
/-! DEFINITION. THRINV, the threshold comparator and invert (R92, R93). -/

namespace Sys2Proof.Machine

/-- Lane 0's work in THRINV's stage: the pixels of its band (R93). -/
def thrinvWork (cols : Nat) (b : Band) : List Work :=
  (bandPixels cols b).map (fun p => .thrinv p.1 p.2)

/-- THRINV's loop body for pixel `(i, j)` (R93). -/
def thrinvPixel (i j : Nat) (s : State) : Except Fault State := do
  let v ← s.px .tin i j 0
  return s.putPx .tout i j 0 (thrValue v)

/-- THRINV: the CMD write of its word (R67), one stage on lane 0 alone (R75, R93). -/
def execThrinv (s : State) : Result := s.issue .thrinv .single (singleLane thrinvWork)

end Sys2Proof.Machine
end

