-- ==== Sys2Proof/Machine/Agents.lean ====
section
/-! DEFINITION. One turn of a lane and one turn of the sequencer (R66, R70, R74, R94, R95). A turn of
an agent that can do nothing changes nothing (log 4). -/

namespace Sys2Proof.Machine

/-- The loop body a work item stands for. -/
def runWork : Work → State → Except Fault State
  | .gray i j, s => grayPixel i j s
  | .sepia i j, s => sepiaPixel i j s
  | .neg i j ch, s => negChannel i j ch s
  | .sobel i j, s => sobelPixel i j s
  | .thrinv i j, s => thrinvPixel i j s

/-- Lane `k` does one item of what it has left, the one numbered `n` modulo their count (R76; log 5). -/
def State.laneWork (s : State) (k n : Nat) (l : Lane) : Result :=
  match l.todo[n % l.todo.length]? with
  | none => .next (s.setLane k { l with done := true })
  | some w =>
    match runWork w s with
    | .error f => .fault f
    | .ok t => .next (t.setLane k { l with todo := l.todo.eraseIdx (n % l.todo.length) })

/-- A turn of lane `k`: one work item, or, when none is left, `laneDone[k] <- 1` (R74). Nothing while
no stage runs, in a lane the stage does not use, or once the lane is done. -/
def laneTurn (k n : Nat) (s : State) : Result :=
  match s.lanes[k]? with
  | none => .next s
  | some l =>
    if s.phase = .idle ∨ l.active = false ∨ l.done = true then .next s
    else s.laneWork k n l

/-- A turn of the sequencer: when every used lane is done, the command completes (R70), or, after
RUN's stage A, stage B starts: "A model must not let a stage-B lane step while any `laneDone[k]` of
stage A is 0" (R95). -/
def sequencerTurn (s : State) : Result :=
  if s.stageComplete then
    match s.phase with
    | .idle => .next s
    | .single => .next s.complete
    | .stageA => s.startStageB
    | .stageB => .next s.complete
  else .next s

end Sys2Proof.Machine
end

