-- ==== Sys2Proof/WellFormed.lean ====
section
/-! DEFINITION. Which CMD words select a command, and which instructions are well formed.
An instruction carries no operand (R60), so every one of the six is well formed; the checks are
those on the 32-bit word that spells it (R59, R61). -/

namespace Sys2Proof

/-- The field OP, bits [3:0] of a CMD word (R59). -/
def CmdWord.op (w : Word) : BitVec 4 := w.extractLsb' 0 4

/-- The field RSVD, bits [31:4] of a CMD word (R59). -/
def CmdWord.rsvd (w : Word) : BitVec 28 := w.extractLsb' 4 28

/-- RSVD must be zero (R59, R62). -/
def CmdWord.rsvdZero (w : Word) : Bool := CmdWord.rsvd w == 0

/-- OP must be one of 0x1 to 0x6 (R61). -/
def CmdWord.opAssigned (w : Word) : Bool :=
  decide (1 ≤ (CmdWord.op w).toNat) && decide ((CmdWord.op w).toNat ≤ 6)

/-- "A word selects a command exactly when `word[31:4] = 0` and `word[3:0]` is in 0x1 to 0x6" (R61). -/
def CmdWord.wellFormed (w : Word) : Bool := CmdWord.rsvdZero w && CmdWord.opAssigned w

/-- No command has an operand that could be out of range (R60). -/
def Instr.wellFormed : Instr → Bool
  | .gray => true
  | .sepia => true
  | .neg => true
  | .sobel => true
  | .thrinv => true
  | .run => true

end Sys2Proof
end

