-- ==== Sys2Proof/Decode.lean ====
section
/-! DEFINITION. The decoder of CMD words, total and rejecting by name, the encoder, and the order
in which a bus lays a 32-bit register value out in bytes (R38, R59 to R62). -/

namespace Sys2Proof

/-- Why a CMD word selects no command (R62). -/
inductive DecodeError where
  /-- Bits [31:4] are not zero, or OP is 0x0 or 0x7 to 0xF: rejected with code 4, IllegalCommand. -/
  | illegalCommand
  deriving DecidableEq, Repr

/-- The opcode map (R61): which command an OP value selects. -/
def decodeOp (op : BitVec 4) : Option Instr :=
  match op.toNat with
  | 0x1 => some .gray
  | 0x2 => some .sepia
  | 0x3 => some .neg
  | 0x4 => some .sobel
  | 0x5 => some .thrinv
  | 0x6 => some .run
  | _ => none

/-- The command a CMD word selects, or its rejection by name (R61, R62). -/
def decode (w : Word) : Except DecodeError Instr :=
  if CmdWord.rsvd w = 0 then
    match decodeOp (CmdWord.op w) with
    | some i => .ok i
    | none => .error .illegalCommand
  else .error .illegalCommand

/-- The OP value of a command (R61). -/
def opcode : Instr → BitVec 4
  | .gray => 0x1#4
  | .sepia => 0x2#4
  | .neg => 0x3#4
  | .sobel => 0x4#4
  | .thrinv => 0x5#4
  | .run => 0x6#4

/-- The word of a command: RSVD zero above OP (R59, R61). -/
def encode (i : Instr) : Word := (0#28 ++ opcode i : BitVec 32)

/-- The four bytes a bus shows for a register value, byte 0 = bits [7:0] first (R38). -/
def busBytes (v : Word) : List Byte :=
  [v.extractLsb' 0 8, v.extractLsb' 8 8, v.extractLsb' 16 8, v.extractLsb' 24 8]

/-- The register value that four bytes of a bus make, the first the least significant (R38). -/
def ofBusBytes (b0 b1 b2 b3 : Byte) : Word := (b3 ++ b2 ++ b1 ++ b0 : BitVec 32)

/-- The decoder on the bytes of a word as the bus lays them out; a command needs exactly one
32-bit word (R59), so any other number of bytes is no command. -/
def decodeBytes : List Byte → Except DecodeError Instr
  | [b0, b1, b2, b3] => decode (ofBusBytes b0 b1 b2 b3)
  | _ => .error .illegalCommand

/-- The command the decoder reads from a table word: the bits above `nbits` are zero, and there
is one format of one length, 32 bits (R59). -/
def decodeTableWord (nbits w : Nat) : Option Instr :=
  if nbits ≤ 32 then
    match decodeBytes (busBytes (BitVec.ofNat 32 (w % 2 ^ nbits))) with
    | .ok i => some i
    | .error _ => none
  else none

end Sys2Proof
end

