-- ==== Sys2Proof/Machine/Dispatch.lean ====
section
/-! DEFINITION. One arm per command: what the write of its word to CMD does (R67). -/

namespace Sys2Proof.Machine

def exec (i : Instr) (s : State) : Host.Outcome State Fault Refusal :=
  match i with
  | .gray => Sys2Proof.Machine.execGray s
  | .sepia => Sys2Proof.Machine.execSepia s
  | .neg => Sys2Proof.Machine.execNeg s
  | .sobel => Sys2Proof.Machine.execSobel s
  | .thrinv => Sys2Proof.Machine.execThrinv s
  | .run => Sys2Proof.Machine.execRun s

end Sys2Proof.Machine
end

