-- ==== Sys2Proof/Machine/HostPort.lean ====
section
/-! DEFINITION. The host's accesses to the register window and the buffers (R20 to R27, R40 to R51,
R65, R67). -/

namespace Sys2Proof.Machine

/-- The offsets of the registers in their window (R20). -/
abbrev offCMD : Nat := 0x00
abbrev offSTATUS : Nat := 0x04
abbrev offROWS : Nat := 0x08
abbrev offCOLS : Nat := 0x0C
abbrev offNWORKERS : Nat := 0x10
abbrev offHWPAR : Nat := 0x14

/-- The value a 32-bit read of the register window returns: CMD and the reserved offsets read 0, the
high halves of the others are 0 (R20 to R27). -/
def State.readReg (s : State) (off : Nat) : Word :=
  if off = offSTATUS then s.status.word
  else if off = offROWS then s.rows.setWidth 32
  else if off = offCOLS then s.cols.setWidth 32
  else if off = offNWORKERS then s.nworkers.setWidth 32
  else if off = offHWPAR then (BitVec.ofNat 16 s.params.nmax).setWidth 32
  else 0

/-- A host write of word `w` to CMD (R67): dropped while busy, undecoded; else decoded, and the
command it selects issued, or IllegalCommand. -/
def State.writeCmd (s : State) (w : Word) : Result :=
  if s.status.busy then .next s.overrun
  else
    match decode w with
    | .ok i => exec i s
    | .error .illegalCommand => .next s.issueIllegal

/-- A 32-bit write to the register window (R20 to R27): HWPAR and the reserved offsets ignore it. -/
def State.writeReg (s : State) (off : Nat) (v : Word) : Result :=
  if off = offCMD then s.writeCmd v
  else if off = offSTATUS then .next { s with status := s.status.hostWrite v }
  else if off = offROWS then .next { s with rows := v.setWidth 16 }
  else if off = offCOLS then .next { s with cols := v.setWidth 16 }
  else if off = offNWORKERS then .next { s with nworkers := v.setWidth 16 }
  else .next s

/-- The register accesses with a meaning: 32 bits, aligned, in the window (R20, R41). -/
def regAccessOk (bits off : Nat) : Bool :=
  decide (bits = 32) && decide (off % 4 = 0) && decide (off < regWindowBytes)

/-- The buffer accesses with a meaning: 8 bits, below the capacity (R41). -/
def bufAccessOk (p : Params) (b : BufId) (bits off : Nat) : Bool :=
  decide (bits = 8) && decide (off < capacity p b)

/-- A conflicting host access to the running command's buffers (R51): a write to a buffer it reads,
or any access to the image area of a buffer it writes. -/
def State.hostRaces (s : State) (isWrite : Bool) (b : BufId) (off : Nat) : Bool :=
  s.status.busy &&
    ((isWrite && (cmdReads s.curop).contains b) ||
     ((cmdWrites s.curop).contains b && decide (off < imageBytes s.lrows s.lcols b)))

/-- The value a host read returned, recorded (log 11). -/
def State.returned (s : State) (v : Word) : State := { s with hostReads := v :: s.hostReads }

/-- A host read of `bits` bits (R41, R42, R46, R51; the order of the checks is log 10). -/
def State.hostRead (s : State) (place : Place) (bits : Nat) : Result :=
  match locate s.params place with
  | some (.reg off) =>
    if regAccessOk bits off then .next (s.returned (s.readReg off)) else .fault .hostBadAccess
  | some (.buf b off) =>
    if bufAccessOk s.params b bits off then
      if s.hostRaces false b off then .fault (.hostRace b off)
      else
        match s.fetch b off with
        | .ok v => .next (s.returned (BitVec.ofNat 32 v))
        | .error f => .fault f
    else .fault .hostBadAccess
  | _ => .fault .hostBadAccess

/-- A host write of `bits` bits (R41, R43, R51). -/
def State.hostWrite (s : State) (place : Place) (bits value : Nat) : Result :=
  match locate s.params place with
  | some (.reg off) =>
    if regAccessOk bits off then s.writeReg off (BitVec.ofNat 32 value) else .fault .hostBadAccess
  | some (.buf b off) =>
    if bufAccessOk s.params b bits off then
      if s.hostRaces true b off then .fault (.hostRace b off)
      else .next { s with bufs := s.bufs.write b off (BitVec.ofNat 8 value) }
    else .fault .hostBadAccess
  | _ => .fault .hostBadAccess

/-- A turn of the host: its next access, in program order (R48). `wait` reads STATUS and stays
pending while bit 0 of the value read is 1 (R65). -/
def hostTurn (s : State) : Result :=
  match s.hostOps with
  | [] => .next s
  | .read place bits :: rest => State.hostRead { s with hostOps := rest } place bits
  | .write place bits value :: rest => State.hostWrite { s with hostOps := rest } place bits value
  | .wait :: rest =>
    let t := s.returned (s.readReg offSTATUS)
    if (s.readReg offSTATUS).getLsbD 0 then .next t else .next { t with hostOps := rest }

end Sys2Proof.Machine
end

