-- ==== Sys2Proof/Machine/Turns.lean ====
section
/-! DEFINITION. One turn of any agent, and where the next turn comes from (R66, R76; log 3). -/

namespace Sys2Proof.Machine

/-- One turn (R66). -/
def takeTurn (t : Turn) (s : State) : Result :=
  match t with
  | .host => hostTurn s
  | .sequencer => sequencerTurn s
  | .lane k n => laneTurn k n s
  | .reset => .next s.hardReset

/-- The next turn: the first one chosen in State, else a free one (log 3). -/
def State.nextTurn (s : State) : Turn :=
  match s.sched with
  | t :: _ => t
  | [] => Config.freeTurn s.turnCount

/-- The state with the next turn used up (log 3). -/
def State.turnTaken (s : State) : State :=
  match s.sched with
  | _ :: ts => { s with sched := ts }
  | [] => { s with turnCount := s.turnCount + 1 }

/-- The host's write of a table word to CMD (R59). -/
def cmdWordWrite (nbits w : Nat) : HostOp := .write (.reg offCMD) 32 (w % 2 ^ nbits)

end Sys2Proof.Machine
end

