-- ==== Sys2Proof/Machine/Step.lean ====
section
/-! DEFINITION. One step: one agent's turn (R66). -/

namespace Sys2Proof.Machine

/-- One step of the machine. -/
def step (s : State) : Host.Outcome State Fault Refusal := takeTurn s.nextTurn s.turnTaken

/-- The block fetches nothing: a command comes as the host's write to CMD (R18, R57). So the word is
placed as the host's next access and the host is given the next turn (log 14). -/
def State.withFetchWord (s : State) (nbits w : Nat) : State :=
  { s with hostOps := cmdWordWrite nbits w :: s.hostOps, sched := .host :: s.sched }

end Sys2Proof.Machine
end

