-- ==== Sys2Proof/Machine/HostSyntax.lean ====
section
/-! DEFINITION. The notation of host programs: its operations and pseudo-operations, and the bus
accesses each one stands for (R64, R65). -/

namespace Sys2Proof.Machine

/-- The register names of host programs (R20, R64). -/
inductive RegName where
  | cmd
  | status
  | rows
  | cols
  | nworkers
  | hwpar
  deriving DecidableEq, Repr

/-- `offset(REG)` (R20). -/
def regOffset : RegName → Nat
  | .cmd => offCMD
  | .status => offSTATUS
  | .rows => offROWS
  | .cols => offCOLS
  | .nworkers => offNWORKERS
  | .hwpar => offHWPAR

/-- One line of a host program (R64, R65). -/
inductive HostLine where
  /-- `wr REG, v` -/
  | wr (r : RegName) (v : Nat)
  /-- `rd REG` -/
  | rd (r : RegName)
  /-- `wb BUF, off, b0, b1, ...` -/
  | wb (b : BufId) (off : Nat) (bytes : List Nat)
  /-- `rb BUF, off, n` -/
  | rb (b : BufId) (off n : Nat)
  /-- `cmd M` -/
  | cmd (i : Instr)
  /-- `cmdw w` -/
  | cmdw (w : Nat)
  /-- `wait` -/
  | wait
  /-- `clrovr` -/
  | clrovr
  /-- `dims r, c` -/
  | dims (r c : Nat)
  /-- `workers n` -/
  | workers (n : Nat)
  deriving DecidableEq, Repr

/-- `wr REG, v` on the bus: one 32-bit write (R64). -/
def wrReg (r : RegName) (v : Nat) : HostOp := .write (.reg (regOffset r)) 32 v

/-- The bus accesses of a line, in order (R64, R65). -/
def HostLine.expand : HostLine → List HostOp
  | .wr r v => [wrReg r v]
  | .rd r => [.read (.reg (regOffset r)) 32]
  | .wb b off bytes => bytes.mapIdx (fun k v => .write (.buf b (off + k)) 8 v)
  | .rb b off n => (List.range n).map (fun k => .read (.buf b (off + k)) 8)
  | .cmd i => [wrReg .cmd (encode i).toNat]
  | .cmdw w => [wrReg .cmd w]
  | .wait => [.wait]
  | .clrovr => [wrReg .status 0x8]
  | .dims r c => [wrReg .rows r, wrReg .cols c]
  | .workers n => [wrReg .nworkers n]

/-- A host program placed behind the accesses the host still has to make (log 14). -/
def State.load (s : State) (prog : List HostLine) : State :=
  { s with hostOps := s.hostOps ++ prog.flatMap HostLine.expand }

end Sys2Proof.Machine
end

