-- ==== Sys2Proof/Safety.lean ====
section
/-! DEFINITION. The terms claims are stated in: the invariant of the block, runs of the block's own
agents, when a command is accepted and completed, and what the images of the six commands are. -/

namespace Sys2Proof.Machine

/-! ## The invariant -/

/-- The bands of the running command's stage and the lanes it uses (R72, R75). -/
def lanePlan (op : Instr) (rows n : Nat) : List (Band × Bool) :=
  if op = .thrinv then
    (List.range n).map (fun k =>
      if k = 0 then ({ start := 0, stop := rows }, true) else ({ start := 0, stop := 0 }, false))
  else (bands rows n).map (fun b => (b, true))

/-- The work item is one of the stage's, and its pixel lies in the band and in the image (R74, R94). -/
def workFits (ph : Phase) (op : Instr) (cols : Nat) (b : Band) : Work → Prop
  | .gray i j => (ph = .single ∧ op = .gray ∨ ph = .stageA) ∧ b.start ≤ i ∧ i < b.stop ∧ j < cols
  | .sepia i j => (ph = .single ∧ op = .sepia ∨ ph = .stageA) ∧ b.start ≤ i ∧ i < b.stop ∧ j < cols
  | .neg i j ch =>
    (ph = .single ∧ op = .neg ∨ ph = .stageA) ∧ b.start ≤ i ∧ i < b.stop ∧ j < cols ∧ ch < 3
  | .sobel i j => (ph = .single ∧ op = .sobel ∨ ph = .stageB) ∧ b.start ≤ i ∧ i < b.stop ∧ j < cols
  | .thrinv i j => (ph = .single ∧ op = .thrinv) ∧ b.start ≤ i ∧ i < b.stop ∧ j < cols

/-- A lane of the running stage: its work fits, and a lane that is done has none left (R74). -/
structure LaneInv (s : State) (l : Lane) : Prop where
  fits : ∀ w ∈ l.todo, workFits s.phase s.curop s.lcols l.band w
  inactive : l.active = false → l.todo = [] ∧ l.done = false
  finished : l.done = true → l.todo = []

/-- What holds while a command runs (R28, R29, R69, R71, R72, R94). -/
structure RunningInv (s : State) : Prop where
  rows : 1 ≤ s.lrows ∧ s.lrows ≤ s.params.maxRows
  cols : 1 ≤ s.lcols ∧ s.lcols ≤ s.params.maxCols
  workers : 1 ≤ s.ln ∧ s.ln ≤ s.params.nmax
  stages : s.curop = .run ↔ s.phase = .stageA ∨ s.phase = .stageB
  plan : s.lanes.map (fun l => (l.band, l.active)) = lanePlan s.curop s.lrows s.ln
  lanes : ∀ l ∈ s.lanes, LaneInv s l

/-- What holds in every state the block reaches: legal parameters, canonical buffer memories within
their capacities (R31), `phase = IDLE` exactly when BUSY = 0 (R29), the relations between the STATUS
fields (R22), ERRCODE only 0, 1 or 4 (R98), and `RunningInv` while BUSY = 1. -/
structure Inv (s : State) : Prop where
  params : paramsOk s.params = true
  canonical : ∀ b, (s.bufs.get b).wf = true
  inCapacity : ∀ b, (s.bufs.get b).below (capacity s.params b) = true
  idle : s.phase = .idle ↔ s.status.busy = false
  busyNotDone : ¬ (s.status.busy = true ∧ s.status.done = true)
  errDone : s.status.err = true → s.status.done = true ∧ s.status.busy = false
  errCode : s.status.err = true →
    s.status.errcode = errInvalidDimensions ∨ s.status.errcode = errIllegalCommand
  noErrCode : s.status.err = false → s.status.errcode = 0
  running : s.status.busy = true → RunningInv s

/-- RUN's data flow (R94, R95): in stage A every GRAY byte of the image is written or still to be
written by a lane; in stage B every one is written. -/
structure GrayReadyInv (s : State) : Prop where
  stageA : s.phase = .stageA → ∀ i j, i < s.lrows → j < s.lcols →
    s.bufs.read .gray (pixelOffset s.lcols .gray i j 0) ≠ none ∨
      ∃ l ∈ s.lanes, l.active = true ∧ Work.gray i j ∈ l.todo
  stageB : s.phase = .stageB → ∀ off, off < imageBytes s.lrows s.lcols .gray →
    s.bufs.read .gray off ≠ none

/-! ## Runs of the block -/

/-- The turn is one of the block's own agents: the sequencer or a lane (R66). -/
def Turn.ofBlock : Turn → Bool
  | .host => false
  | .sequencer => true
  | .lane _ _ => true
  | .reset => false

/-- The steps whose turns are `ts`, in order, up to the first fault or refusal. -/
def runTurns (ts : List Turn) (s : State) : Result :=
  Host.Core.run Sys2Proof.core ts.length { s with sched := ts }

/-- The block alone, in some order of its agents' turns, takes `s` to `u` (R66, R76). -/
def BlockRun (s u : State) : Prop :=
  ∃ ts : List Turn, (∀ t ∈ ts, Turn.ofBlock t = true) ∧ runTurns ts s = .next u

/-- Command `i` is issued in `s` while no command runs, is accepted, and in some order of the block's
turns runs to its completion in `u` (R69, R70). -/
def Completes (i : Instr) (s u : State) : Prop :=
  s.status.busy = false ∧
    ∃ t, exec i s = .next t ∧ t.status.busy = true ∧ BlockRun t u ∧ u.status.busy = false

/-- The commands `is`, each waited for before the next. -/
def CompletesAll : List Instr → State → State → Prop
  | [], s, u => s = u
  | i :: is, s, u => ∃ t, Completes i s t ∧ CompletesAll is t u

/-- An infinite run from `s` that is weakly fair to the sequencer and the lanes (R116): `states` are the
states it passes, step `n` is a turn `turns n`, none faults and none is a reset, the host's turns are
whatever they are, and each agent of the block gets a turn again and again (a turn that finds its
agent not enabled changes nothing, log 4). -/
structure FairRun (s : State) (turns : Nat → Turn) (states : Nat → State) : Prop where
  start : states 0 = s
  steps : ∀ n, takeTurn (turns n) (states n) = .next (states (n + 1))
  noReset : ∀ n, turns n ≠ .reset
  sequencer : ∀ n, ∃ m, n ≤ m ∧ turns m = .sequencer
  lanes : ∀ k n, k < s.params.nmax → ∃ m q, n ≤ m ∧ turns m = .lane k q

/-- The next step is the host's 32-bit write of `value` to the register at `off`, by window offset or
by bus address (R41, R64); an access that is only pending is none. -/
def State.hostWritesReg (s : State) (off value : Nat) : Prop :=
  s.nextTurn = .host ∧
    ∃ place rest, s.hostOps = .write place 32 value :: rest ∧ locate s.params place = some (.reg off)

/-- A CMD write of a legal word in `s` is accepted (R67). -/
def Acceptable (s : State) : Prop :=
  s.status.busy = false ∧ 1 ≤ s.rows.toNat ∧ s.rows.toNat ≤ s.params.maxRows ∧
    1 ≤ s.cols.toNat ∧ s.cols.toNat ≤ s.params.maxCols

/-- The state in which command `op` has been accepted from `s`, its first stage `ph` started on
`lanes` (R69): the latched copies, BUSY, `curop`; ROWS, COLS, NWORKERS, OVR and every buffer byte as
before (R28). -/
def acceptedAs (s : State) (op : Instr) (ph : Phase) (lanes : List Lane) : State :=
  { s with
    status := { busy := true, done := false, err := false, ovr := s.status.ovr, errcode := 0 }
    lrows := s.rows.toNat
    lcols := s.cols.toNat
    ln := min (max s.nworkers.toNat 1) s.params.nmax
    phase := ph
    curop := op
    lanes := lanes }

/-- Lane `k` has band `k` of the partition, `work` to do in it, and `laneDone` clear (R69, R72). -/
def freshLanes (s : State) (work : Band → List Work) : List Lane :=
  (bands s.rows.toNat (min (max s.nworkers.toNat 1) s.params.nmax)).map
    (fun b => { band := b, todo := work b, active := true, done := false })

/-- What completing a command leaves: DONE alone in STATUS, OVR as before, no phase (R70); the
registers, the parameters and the host as before. -/
structure CompletedFrame (s u : State) : Prop where
  status : u.status = { busy := false, done := true, err := false, ovr := s.status.ovr, errcode := 0 }
  phase : u.phase = .idle
  rows : u.rows = s.rows
  cols : u.cols = s.cols
  nworkers : u.nworkers = s.nworkers
  params : u.params = s.params
  host : u.hostOps = s.hostOps ∧ u.hostReads = s.hostReads

/-- The bytes a work item reads (R80, R83, R85, R91, R93); for SOBEL the in-bounds taps (R86). -/
def itemReads (s : State) : Work → BufId → Nat → Prop
  | .gray i j, b, off => b = .src ∧ ∃ ch, ch < 3 ∧ off = (i * s.lcols + j) * 3 + ch
  | .sepia i j, b, off => b = .src ∧ ∃ ch, ch < 3 ∧ off = (i * s.lcols + j) * 3 + ch
  | .neg i j ch, b, off => b = .src ∧ off = (i * s.lcols + j) * 3 + ch
  | .sobel i j, b, off => b = .gray ∧ ∃ i' j', i' < s.lrows ∧ j' < s.lcols ∧ i' ≤ i + 1 ∧ i ≤ i' + 1 ∧
      j' ≤ j + 1 ∧ j ≤ j' + 1 ∧ off = i' * s.lcols + j'
  | .thrinv i j, b, off => b = .tin ∧ off = i * s.lcols + j

/-- The bytes a work item writes (R80, R83, R85, R91, R93). -/
def itemWrites (s : State) : Work → BufId → Nat → Prop
  | .gray i j, b, off => b = .gray ∧ off = i * s.lcols + j
  | .sepia i j, b, off => b = .sepia ∧ ∃ ch, ch < 3 ∧ off = (i * s.lcols + j) * 3 + ch
  | .neg i j ch, b, off => b = .neg ∧ off = (i * s.lcols + j) * 3 + ch
  | .sobel i j, b, off => b = .edge ∧ off = i * s.lcols + j
  | .thrinv i j, b, off => b = .tout ∧ off = i * s.lcols + j

/-- The first `n` bytes of buffer `b` have been written (R115). -/
def Written (m : Buffers) (b : BufId) (n : Nat) : Prop := ∀ off, off < n → m.read b off ≠ none

/-- The buffers whose image area the host must have written before command `i` (R115). -/
def cmdInput : Instr → BufId
  | .gray => .src
  | .sepia => .src
  | .neg => .src
  | .sobel => .gray
  | .thrinv => .tin
  | .run => .src

/-- The steps the running command still has to take: a lane's items and its `laneDone`, the
sequencer's completion, and, before the barrier, all of stage B (R74, R94). -/
def remainingSteps (s : State) : Nat :=
  (s.lanes.map (fun l => l.todo.length + (if l.active && !l.done then 1 else 0))).sum +
    match s.phase with
    | .idle => 0
    | .single => 1
    | .stageA => s.lrows * s.lcols + s.ln + 2
    | .stageB => 1

/-! ## The images of the commands, in the spec's own words -/

/-- `m'` holds in GRAY the truncated channel averages of `m`'s SRC (R36, R79, R80). -/
def GrayImage (rows cols : Nat) (m m' : Buffers) : Prop :=
  ∀ i j, i < rows → j < cols → ∀ c0 c1 c2 : Byte,
    m.read .src ((i * cols + j) * 3) = some c0 → m.read .src ((i * cols + j) * 3 + 1) = some c1 →
    m.read .src ((i * cols + j) * 3 + 2) = some c2 →
    m'.read .gray (i * cols + j) = some (BitVec.ofNat 8 ((c0.toNat + c1.toNat + c2.toNat) / 3))

/-- `m'` holds in SEPIA the sepia tones of `m`'s SRC, with the coefficients written out (R81, R83). -/
def SepiaImage (rows cols : Nat) (m m' : Buffers) : Prop :=
  ∀ i j, i < rows → j < cols → ∀ B G R : Byte,
    m.read .src ((i * cols + j) * 3) = some B → m.read .src ((i * cols + j) * 3 + 1) = some G →
    m.read .src ((i * cols + j) * 3 + 2) = some R →
    m'.read .sepia ((i * cols + j) * 3) =
      some (BitVec.ofNat 8 (min 255 ((131 * B.toNat + 534 * G.toNat + 272 * R.toNat) / 1000))) ∧
    m'.read .sepia ((i * cols + j) * 3 + 1) =
      some (BitVec.ofNat 8 (min 255 ((168 * B.toNat + 686 * G.toNat + 349 * R.toNat) / 1000))) ∧
    m'.read .sepia ((i * cols + j) * 3 + 2) =
      some (BitVec.ofNat 8 (min 255 ((189 * B.toNat + 769 * G.toNat + 393 * R.toNat) / 1000)))

/-- `m'` holds in NEG the channel-wise negative of `m`'s SRC (R84, R85). -/
def NegImage (rows cols : Nat) (m m' : Buffers) : Prop :=
  ∀ i j ch, i < rows → j < cols → ch < 3 → ∀ x : Byte,
    m.read .src ((i * cols + j) * 3 + ch) = some x →
    m'.read .neg ((i * cols + j) * 3 + ch) = some (BitVec.ofNat 8 (255 - x.toNat))

/-- `p` is the GRAY image of `m`, zero outside it (R86: a skipped tap adds nothing). -/
def GrayPicture (rows cols : Nat) (m : Buffers) (p : Int → Int → Int) : Prop :=
  (∀ a b : Nat, a < rows → b < cols →
    ∃ v : Byte, m.read .gray (a * cols + b) = some v ∧ p a b = (v.toNat : Int)) ∧
  ∀ a b : Int, ¬ (0 ≤ a ∧ a < rows ∧ 0 ≤ b ∧ b < cols) → p a b = 0

/-- `Gx_sum` of pixel `(i, j)`, written out (R87). -/
def gxSum (p : Int → Int → Int) (i j : Int) : Int :=
  p (i - 1) (j - 1) + 2 * p i (j - 1) + p (i + 1) (j - 1) -
    p (i - 1) (j + 1) - 2 * p i (j + 1) - p (i + 1) (j + 1)

/-- `Gy_sum` of pixel `(i, j)`, written out (R87). -/
def gySum (p : Int → Int → Int) (i j : Int) : Int :=
  p (i - 1) (j - 1) + 2 * p (i - 1) j + p (i - 1) (j + 1) -
    p (i + 1) (j - 1) - 2 * p (i + 1) j - p (i + 1) (j + 1)

/-- `m'` holds in EDGE the inverted, saturated gradient magnitudes of `m`'s GRAY (R87, R88, R91). -/
def EdgeImage (rows cols : Nat) (m m' : Buffers) : Prop :=
  ∀ p, GrayPicture rows cols m p → ∀ i j : Nat, i < rows → j < cols →
    m'.read .edge (i * cols + j) =
      some (BitVec.ofNat 8 (255 - min 255 (Nat.sqrt ((gxSum p i j) ^ 2 + (gySum p i j) ^ 2).toNat)))

/-- `m'` holds in TOUT the threshold inversion of `m`'s TIN (R92, R93). -/
def ThrinvImage (rows cols : Nat) (m m' : Buffers) : Prop :=
  ∀ i j, i < rows → j < cols → ∀ v : Byte, m.read .tin (i * cols + j) = some v →
    m'.read .tout (i * cols + j) =
      some (if 127 < v.toNat then BitVec.ofNat 8 (255 - v.toNat) else v)

/-- The matrix of a true convolution: the window flipped by 180 degrees (R89 item 1). -/
def flipped (K : List (List Int)) : List (List Int) :=
  (List.range 3).map (fun r => (List.range 3).map (fun s => kernelAt K (2 - r) (2 - s)))

/-- The matrix read by columns instead of rows (R89 item 2). -/
def byColumns (K : List (List Int)) : List (List Int) :=
  (List.range 3).map (fun r => (List.range 3).map (fun s => kernelAt K s r))

/-- No byte of `m'` differs from `m`'s but in the image areas of the buffers `bs` (R39). -/
def OnlyImagesChange (rows cols : Nat) (bs : List BufId) (m m' : Buffers) : Prop :=
  ∀ b off, (b ∉ bs ∨ rows * cols * channels b ≤ off) → m'.read b off = m.read b off

end Sys2Proof.Machine
end

