-- ==== Sys2Proof/Certificates/Slice0/Obligations.lean ====
section
/-! DEFINITION. The statements for the provers. Each docstring names the rule of spec/ it formalises. -/

open Sys2Proof Sys2Proof.Machine

/-! ## Encoding and the step -/

/-- R61: the opcode map with its six words, and "A word selects a command exactly when
`word[31:4] = 0` and `word[3:0]` is in 0x1 to 0x6": decoding an encoded command gives it back, only
its own word decodes to a command, and every word R61 does not name is IllegalCommand. -/
def Obligations.DecodeAgreesWithEncode : Prop :=
  (∀ i : Instr, i.wellFormed = true → decode (encode i) = .ok i) ∧
  (∀ (w : Word) (i : Instr), decode w = .ok i → encode i = w) ∧
  (∀ w : Word,
    if w.extractLsb' 4 28 = 0#28 ∧ 1 ≤ (w.extractLsb' 0 4).toNat ∧ (w.extractLsb' 0 4).toNat ≤ 6 then
      ∃ i, decode w = .ok i
    else decode w = .error .illegalCommand) ∧
  (encode .gray = 0x00000001#32 ∧ encode .sepia = 0x00000002#32 ∧ encode .neg = 0x00000003#32 ∧
    encode .sobel = 0x00000004#32 ∧ encode .thrinv = 0x00000005#32 ∧ encode .run = 0x00000006#32)

/-- R61, R62 on words written out from the opcode map. -/
def Obligations.WrittenOutWordsDecode : Prop :=
  decodeTableWord 32 0x00000001 = some .gray ∧ decodeTableWord 32 0x00000002 = some .sepia ∧
  decodeTableWord 32 0x00000003 = some .neg ∧ decodeTableWord 32 0x00000004 = some .sobel ∧
  decodeTableWord 32 0x00000005 = some .thrinv ∧ decodeTableWord 32 0x00000006 = some .run ∧
  decodeTableWord 32 0x00000000 = none ∧ decodeTableWord 32 0x00000007 = none ∧
  decodeTableWord 32 0x00000101 = none

/-- R59, R67: a step in which the host writes a word that decodes to command `i` to CMD is `exec i`
at the state behind that access, by window offset and by bus address; and `withFetchWord` places
exactly such a step. -/
def Obligations.StepRunsTheDecodedCommand : Prop :=
  ∀ (s : State) (w : Word) (i : Instr) (ts : List Turn) (rest : List HostOp), decode w = .ok i →
    step { s with sched := .host :: ts, hostOps := .write (.reg 0x00) 32 w.toNat :: rest } =
      exec i { s with sched := ts, hostOps := rest } ∧
    step { s with sched := .host :: ts, hostOps := .write (.bus s.params.regBase) 32 w.toNat :: rest } =
      exec i { s with sched := ts, hostOps := rest } ∧
    step (s.withFetchWord 32 w.toNat) = exec i s

/-- R62 with R68: an illegal word written to CMD while BUSY = 0 is rejected with code 4 and changes
STATUS alone; while BUSY = 1 no word is decoded: whatever it is, OVR is set and nothing else changes. -/
def Obligations.IllegalWordIsRejected : Prop :=
  ∀ (s : State) (w : Word) (ts : List Turn) (rest : List HostOp),
    (s.status.busy = false →
      (w.extractLsb' 4 28 ≠ 0#28 ∨ (w.extractLsb' 0 4).toNat = 0 ∨ 7 ≤ (w.extractLsb' 0 4).toNat) →
      step { s with sched := .host :: ts, hostOps := .write (.reg 0x00) 32 w.toNat :: rest } =
        .next { s with
          sched := ts
          hostOps := rest
          status := { busy := false, done := true, err := true, ovr := s.status.ovr, errcode := 4 } }) ∧
    (s.status.busy = true →
      step { s with sched := .host :: ts, hostOps := .write (.reg 0x00) 32 w.toNat :: rest } =
        .next { s with sched := ts, hostOps := rest, status := { s.status with ovr := true } })

/-- R118, R67: a command issued while BUSY = 1 is dropped and sets OVR, nothing else changes, and the
host sees the drop in bit 3 of STATUS. -/
def Obligations.CommandWhileBusyIsDropped : Prop :=
  ∀ (i : Instr) (s : State), s.status.busy = true →
    ∃ t, exec i s = .next t ∧ t = { s with status := { s.status with ovr := true } } ∧
      (t.readReg 0x04).getLsbD 3 = true

/-- R67, R68, R102: a command issued while BUSY = 0 with a dimension 0 or above its maximum is
rejected with code 1, and STATUS alone changes. -/
def Obligations.BadDimensionsAreRejected : Prop :=
  ∀ (i : Instr) (s : State), s.status.busy = false →
    (s.rows.toNat = 0 ∨ s.cols.toNat = 0 ∨ s.params.maxRows < s.rows.toNat ∨
      s.params.maxCols < s.cols.toNat) →
    exec i s = .next { s with
      status := { busy := false, done := true, err := true, ovr := s.status.ovr, errcode := 1 } }

/-- R68, R102: a CMD write taken while BUSY = 0 that ends in a rejection, whichever it is, changes
STATUS alone: ERR, ERRCODE and DONE are set, BUSY stays 0, OVR is kept; `phase`, the latched values,
the registers and every buffer byte are exactly as before. -/
def Obligations.RejectionChangesStatusAlone : Prop :=
  ∀ (s t : State) (w : Word) (ts : List Turn) (rest : List HostOp), s.status.busy = false →
    step { s with sched := .host :: ts, hostOps := .write (.reg 0x00) 32 w.toNat :: rest } = .next t →
    t.status.err = true →
    ∃ code : BitVec 4, (code = 1 ∨ code = 4) ∧
      t = { s with
        sched := ts
        hostOps := rest
        status := { busy := false, done := true, err := true, ovr := s.status.ovr, errcode := code } }

/-- R101: the STATUS after any CMD write: busy first, then the illegal word, then the dimensions,
else acceptance; exactly one outcome is reported. -/
def Obligations.CmdWriteReportsOneOutcome : Prop :=
  ∀ (s t : State) (w : Word) (ts : List Turn) (rest : List HostOp),
    step { s with sched := .host :: ts, hostOps := .write (.reg 0x00) 32 w.toNat :: rest } = .next t →
    t.status =
      if s.status.busy = true then { s.status with ovr := true }
      else if w.toNat = 0 ∨ 6 < w.toNat then
        { busy := false, done := true, err := true, ovr := s.status.ovr, errcode := 4 }
      else if s.rows.toNat = 0 ∨ s.cols.toNat = 0 ∨ s.params.maxRows < s.rows.toNat ∨
          s.params.maxCols < s.cols.toNat then
        { busy := false, done := true, err := true, ovr := s.status.ovr, errcode := 1 }
      else { busy := true, done := false, err := false, ovr := s.status.ovr, errcode := 0 }

/-! ## The six commands: acceptance, completion, result, frame -/

/-- R80, R79, R36, R39, R69, R70: GRAY. In a state where its word is acceptable, `exec` answers the
accepted state; with SRC written it can complete; and however the block's turns fall, when it has
completed, GRAY holds the truncated averages and nothing else has changed but STATUS. -/
def Obligations.GrayCompletes : Prop :=
  ∀ s : State, Acceptable s → paramsOk s.params = true →
    exec .gray s = .next (acceptedAs s .gray .single (freshLanes s (grayWork s.cols.toNat))) ∧
    (Written s.bufs .src (3 * s.rows.toNat * s.cols.toNat) →
      (∃ u, Completes .gray s u) ∧
      ∀ u, Completes .gray s u →
        GrayImage s.rows.toNat s.cols.toNat s.bufs u.bufs ∧
        OnlyImagesChange s.rows.toNat s.cols.toNat [.gray] s.bufs u.bufs ∧ CompletedFrame s u)

/-- R83, R81, R34, R36, R37, R39, R69, R70: SEPIA, as for GRAY. -/
def Obligations.SepiaCompletes : Prop :=
  ∀ s : State, Acceptable s → paramsOk s.params = true →
    exec .sepia s = .next (acceptedAs s .sepia .single (freshLanes s (sepiaWork s.cols.toNat))) ∧
    (Written s.bufs .src (3 * s.rows.toNat * s.cols.toNat) →
      (∃ u, Completes .sepia s u) ∧
      ∀ u, Completes .sepia s u →
        SepiaImage s.rows.toNat s.cols.toNat s.bufs u.bufs ∧
        OnlyImagesChange s.rows.toNat s.cols.toNat [.sepia] s.bufs u.bufs ∧ CompletedFrame s u)

/-- R85, R84, R36, R37, R39, R69, R70: NEG, as for GRAY. -/
def Obligations.NegCompletes : Prop :=
  ∀ s : State, Acceptable s → paramsOk s.params = true →
    exec .neg s = .next (acceptedAs s .neg .single (freshLanes s (negWork s.cols.toNat))) ∧
    (Written s.bufs .src (3 * s.rows.toNat * s.cols.toNat) →
      (∃ u, Completes .neg s u) ∧
      ∀ u, Completes .neg s u →
        NegImage s.rows.toNat s.cols.toNat s.bufs u.bufs ∧
        OnlyImagesChange s.rows.toNat s.cols.toNat [.neg] s.bufs u.bufs ∧ CompletedFrame s u)

/-- R91, R86 to R88, R36, R39, R69, R70: SOBEL, as for GRAY, from what GRAY holds under the current
dimensions (R120). -/
def Obligations.SobelCompletes : Prop :=
  ∀ s : State, Acceptable s → paramsOk s.params = true →
    exec .sobel s = .next (acceptedAs s .sobel .single (freshLanes s (sobelWork s.cols.toNat))) ∧
    (Written s.bufs .gray (s.rows.toNat * s.cols.toNat) →
      (∃ u, Completes .sobel s u) ∧
      ∀ u, Completes .sobel s u →
        EdgeImage s.rows.toNat s.cols.toNat s.bufs u.bufs ∧
        OnlyImagesChange s.rows.toNat s.cols.toNat [.edge] s.bufs u.bufs ∧ CompletedFrame s u)

/-- R93, R92, R75, R36, R39, R69, R70: THRINV, on lane 0 alone with the whole image as its band; that
the lanes it does not use keep `laneDone` clear is log 18. -/
def Obligations.ThrinvCompletes : Prop :=
  ∀ s : State, Acceptable s → paramsOk s.params = true →
    (∃ others : List Lane, (∀ l ∈ others, l.active = false ∧ l.todo = [] ∧ l.done = false) ∧
      exec .thrinv s = .next (acceptedAs s .thrinv .single
        ({ band := { start := 0, stop := s.rows.toNat }
           todo := thrinvWork s.cols.toNat { start := 0, stop := s.rows.toNat }
           active := true, done := false } :: others))) ∧
    (Written s.bufs .tin (s.rows.toNat * s.cols.toNat) →
      (∃ u, Completes .thrinv s u) ∧
      ∀ u, Completes .thrinv s u →
        ThrinvImage s.rows.toNat s.cols.toNat s.bufs u.bufs ∧
        OnlyImagesChange s.rows.toNat s.cols.toNat [.tout] s.bufs u.bufs ∧ CompletedFrame s u)

/-- R94, R95, R97, R36, R39, R69, R70: RUN: GRAY, SEPIA and NEG of SRC, and EDGE of the GRAY image
it wrote; TIN, TOUT and SRC untouched. -/
def Obligations.RunCompletes : Prop :=
  ∀ s : State, Acceptable s → paramsOk s.params = true →
    exec .run s = .next (acceptedAs s .run .stageA (freshLanes s (stageAWork s.cols.toNat))) ∧
    (Written s.bufs .src (3 * s.rows.toNat * s.cols.toNat) →
      (∃ u, Completes .run s u) ∧
      ∀ u, Completes .run s u →
        GrayImage s.rows.toNat s.cols.toNat s.bufs u.bufs ∧
        SepiaImage s.rows.toNat s.cols.toNat s.bufs u.bufs ∧
        NegImage s.rows.toNat s.cols.toNat s.bufs u.bufs ∧
        EdgeImage s.rows.toNat s.cols.toNat u.bufs u.bufs ∧
        OnlyImagesChange s.rows.toNat s.cols.toNat [.gray, .sepia, .neg, .edge] s.bufs u.bufs ∧
        CompletedFrame s u)

/-- R96: "The end state of RUN equals the end state of the sequence GRAY, SEPIA, NEG, SOBEL, each
issued with the same ROWS and COLS and waited for, in any order of the first three." The registers
and the buffers; STATUS is R96's exception. -/
def Obligations.RunEqualsTheFourCommands : Prop :=
  ∀ (s u v : State) (order : List Instr), Inv s → order.Perm [.gray, .sepia, .neg] →
    Completes .run s u → CompletesAll (order ++ [.sobel]) s v →
    u.bufs = v.bufs ∧ u.rows = v.rows ∧ u.cols = v.cols ∧ u.nworkers = v.nworkers ∧ u.params = v.params

/-- R77: "The end state of every command is independent of `LN`, of `NMAX` and of the order of rule
R76": two machines with the same image and dimensions, whatever their worker counts and the order
of their turns, end with the same buffers and STATUS. -/
def Obligations.ResultIndependentOfLanesAndOrder : Prop :=
  ∀ (i : Instr) (s s' u u' : State), Inv s → Inv s' →
    s.bufs = s'.bufs → s.rows = s'.rows → s.cols = s'.cols → s.status.ovr = s'.status.ovr →
    Completes i s u → Completes i s' u' → u.bufs = u'.bufs ∧ u.status = u'.status

/-- R115 with R46: a command completes only if every byte of its input image was written before. -/
def Obligations.UnwrittenInputNeverCompletes : Prop :=
  ∀ (i : Instr) (s u : State), paramsOk s.params = true → Completes i s u →
    Written s.bufs (cmdInput i) (s.rows.toNat * s.cols.toNat * channels (cmdInput i))

/-! ## Lanes, bands, the barrier, completion -/

/-- R46, R100, and the faults of R80, R83, R85, R91, R93: a work item faults exactly when a byte it
reads is `uninit`, and then with `UninitRead` naming such a byte; which one of several is named is
the model's choice (log 8), and that the centre tap counts as read is log 9. -/
def Obligations.WorkItemFaultsOnUninit : Prop :=
  ∀ (w : Work) (s : State),
    ((∃ f, runWork w s = .error f) ↔ ∃ b off, itemReads s w b off ∧ s.bufs.read b off = none) ∧
    ∀ f, runWork w s = .error f →
      ∃ b off, f = .uninitRead b off ∧ itemReads s w b off ∧ s.bufs.read b off = none

/-- The frame of the per-pixel writes (R39, R52): a work item changes no byte but those it writes,
writes each of them, and changes nothing but buffer bytes. -/
def Obligations.WorkItemChangesOnlyItsBytes : Prop :=
  ∀ (w : Work) (s t : State), runWork w s = .ok t →
    t = { s with bufs := t.bufs } ∧
    (∀ b off, itemWrites s w b off → t.bufs.read b off ≠ none) ∧
    ∀ b off, ¬ itemWrites s w b off → t.bufs.read b off = s.bufs.read b off

/-- R74: a lane "writes only within its assigned band", and only in a buffer the command writes
(R63); no register, flag or latched value changes in its turn (R19), nor any other lane. -/
def Obligations.LaneStaysInItsBand : Prop :=
  ∀ (k n : Nat) (s u : State), Inv s → takeTurn (.lane k n) s = .next u →
    u = { s with bufs := u.bufs, lanes := u.lanes } ∧
    (∀ k', k' ≠ k → u.lanes[k']? = s.lanes[k']?) ∧
    ∀ b off, u.bufs.read b off ≠ s.bufs.read b off →
      b ∈ cmdWrites s.curop ∧ ∃ l, s.lanes[k]? = some l ∧
        l.band.start * s.lcols * channels b ≤ off ∧ off < l.band.stop * s.lcols * channels b

/-- R73: the four properties of `bands(rows, N)`. -/
def Obligations.BandsPartitionTheRows : Prop :=
  ∀ rows n : Nat, 1 ≤ n →
    (bands rows n).length = n ∧
    (∀ b ∈ bands rows n, b.start ≤ b.stop ∧ b.stop ≤ rows) ∧
    ((bands rows n)[0]?.map Band.start = some 0 ∧ (bands rows n)[n - 1]?.map Band.stop = some rows) ∧
    (∀ k, k + 1 < n → (bands rows n)[k]?.map Band.stop = (bands rows n)[k + 1]?.map Band.start) ∧
    (∀ i, i < rows → ∃ (k : Nat) (b : Band), (bands rows n)[k]? = some b ∧ b.start ≤ i ∧ i < b.stop ∧
      ∀ (k' : Nat) (b' : Band), (bands rows n)[k']? = some b' → b'.start ≤ i → i < b'.stop → k' = k) ∧
    ((bands rows n).map (fun b => b.stop - b.start)).sum = rows ∧
    (rows < n → (∀ k, k + 1 < n → (bands rows n)[k]? = some { start := 0, stop := 0 }) ∧
      (bands rows n)[n - 1]? = some { start := 0, stop := rows }) ∧
    (n ≤ rows → 1 ≤ rows / n ∧ ∀ b ∈ bands rows n, rows / n ≤ b.stop - b.start)

/-- R73 item 3: a lane with an empty band sets `laneDone` without touching memory. -/
def Obligations.EmptyBandTouchesNoMemory : Prop :=
  ∀ (k n : Nat) (s : State) (l : Lane), Inv s → s.status.busy = true → s.lanes[k]? = some l →
    l.active = true → l.done = false → l.band.start = l.band.stop →
    takeTurn (.lane k n) s = .next { s with lanes := s.lanes.set k { l with done := true } }

/-- R98, R73 item 2, R100: no step of the machine ends in `OutOfRange`, from any state. -/
def Obligations.NoStepLeavesTheImage : Prop :=
  ∀ s : State, step s ≠ .fault .outOfRange

/-- R95: stage B starts only when every lane has finished stage A, with nothing left to do in it, and
no lane holds a SOBEL item before; the lanes then start afresh. -/
def Obligations.BarrierBeforeStageB : Prop :=
  ∀ s t : State, Inv s → s.phase = .stageA →
    (∀ l ∈ s.lanes, ∀ i j, Work.sobel i j ∉ l.todo) ∧
    (step s = .next t → t.phase = .stageB →
      (∀ l ∈ s.lanes, l.done = true ∧ l.todo = []) ∧
      (∀ l ∈ t.lanes, l.done = false) ∧ t.lanes.map Lane.band = s.lanes.map Lane.band ∧
      t.status = s.status ∧ t.bufs = s.bufs)

/-- R70: the sequencer completes the command when every lane its last stage uses is done, in one step
that changes `phase`, BUSY and DONE, ERR staying 0; and a command leaves BUSY in no other way than
that, all its work then done, or by reset. That this step changes nothing else, so that `curop`, the
lanes with `laneDone`, LROWS, LCOLS and LN are kept, is the model's choice (log 7). -/
def Obligations.CompletionIsTheOnlyEnd : Prop :=
  ∀ s : State, Inv s → s.status.busy = true →
    (s.phase ≠ .stageA → (∀ l ∈ s.lanes, l.active = true → l.done = true) →
      takeTurn .sequencer s = .next { s with
        phase := .idle
        status := { busy := false, done := true, err := false, ovr := s.status.ovr, errcode := 0 } }) ∧
    ∀ t, step s = .next t → t.status.busy = false →
      s.nextTurn = .reset ∨
      ((∀ l ∈ s.lanes, l.active = true → l.done = true ∧ l.todo = []) ∧ s.phase ≠ .stageA ∧
        t = { s.turnTaken with
          phase := .idle
          status := { busy := false, done := true, err := false, ovr := s.status.ovr, errcode := 0 } })

/-- R116: every turn of the block's agents either changes nothing (log 4), or shortens what is left, or
faults; while a command runs, some turn of theirs shortens what is left or faults on an `uninit` byte
(R46); and where the input image is written, some turn of theirs shortens what is left. -/
def Obligations.BlockTurnsMakeProgress : Prop :=
  ∀ s : State, Inv s →
    (∀ t u, Turn.ofBlock t = true → takeTurn t s = .next u → u = s ∨ remainingSteps u < remainingSteps s) ∧
    (s.status.busy = true → ∃ t, Turn.ofBlock t = true ∧
      ((∃ u, takeTurn t s = .next u ∧ remainingSteps u < remainingSteps s) ∨
        ∃ b off, takeTurn t s = .fault (.uninitRead b off) ∧ s.bufs.read b off = none)) ∧
    (s.status.busy = true → GrayReadyInv s →
      (s.phase ≠ .stageB →
        Written s.bufs (cmdInput s.curop) (imageBytes s.lrows s.lcols (cmdInput s.curop))) →
      ∃ t u, Turn.ofBlock t = true ∧ takeTurn t s = .next u ∧ remainingSteps u < remainingSteps s)

/-- R116: "Every accepted command completes after finitely many steps of the block": from every state
in which a command runs whose input image is written, some turns of the block alone, no more than the
steps that remain, complete it. -/
def Obligations.RunningCommandCanFinish : Prop :=
  ∀ s : State, Inv s → GrayReadyInv s → s.status.busy = true →
    (s.phase ≠ .stageB → Written s.bufs (cmdInput s.curop) (imageBytes s.lrows s.lcols (cmdInput s.curop))) →
    ∃ (ts : List Turn) (u : State), ts.length ≤ remainingSteps s ∧
      (∀ t ∈ ts, Turn.ofBlock t = true) ∧ runTurns ts s = .next u ∧ u.status.busy = false ∧
      u.status.done = true

/-- R116: "Every accepted command completes after finitely many steps of the block, whatever the host
does", under weak fairness to the sequencer and the lanes: in every fair run in which nothing faults
a running command completes. -/
def Obligations.FairRunsComplete : Prop :=
  ∀ (s : State) (turns : Nat → Turn) (states : Nat → State), Inv s → s.status.busy = true →
    FairRun s turns states → ∃ n, (states n).status.busy = false ∧ (states n).status.done = true

/-! ## Invariants and rules of the whole machine -/

/-- The invariant holds after reset. -/
def Obligations.InvariantAtReset : Prop :=
  (∀ p, paramsOk p = true → Inv (State.resetWith p)) ∧ Inv State.reset ∧ GrayReadyInv State.reset

/-- R22, R29, R31, R39, R98 and the rest of `Inv`, in every state a step leads to (the lanes THRINV
does not use are listed as log 18 says). -/
def Obligations.StepKeepsInvariant : Prop :=
  ∀ s t : State, Inv s → step s = .next t → Inv t

/-- R94, R95: RUN's data flow is kept by every step. -/
def Obligations.StepKeepsGrayReady : Prop :=
  ∀ s t : State, Inv s → GrayReadyInv s → step s = .next t → GrayReadyInv t

/-- R94: "stage B reads only GRAY bytes stage A wrote, so it cannot fault `UninitRead`". -/
def Obligations.StageBNeverFaults : Prop :=
  ∀ (s : State) (t : Turn), Inv s → GrayReadyInv s → s.phase = .stageB → Turn.ofBlock t = true →
    ∃ u, takeTurn t s = .next u

/-- R28: the copies taken at acceptance, and that no step changes them while the command runs,
whatever the host writes to ROWS, COLS and NWORKERS. -/
def Obligations.LatchedConfigurationIsFrozen : Prop :=
  (∀ (i : Instr) (s t : State), s.status.busy = false → exec i s = .next t → t.status.busy = true →
    t.lrows = s.rows.toNat ∧ t.lcols = s.cols.toNat ∧ t.ln = min (max s.nworkers.toNat 1) s.params.nmax) ∧
  (∀ s t : State, s.status.busy = true → step s = .next t → t.status.busy = true →
    t.lrows = s.lrows ∧ t.lcols = s.lcols ∧ t.ln = s.ln ∧ t.curop = s.curop) ∧
  (∀ (s t : State) (i : Instr), s.status.busy = false → exec i s = .next t → t.status.busy = false →
    t.lrows = s.lrows ∧ t.lcols = s.lcols ∧ t.ln = s.ln)

/-- R26, and the parameters R8 to R10: no step changes them, and HWPAR reads NMAX before and after. -/
def Obligations.ParametersNeverChange : Prop :=
  ∀ s t : State, step s = .next t → t.params = s.params ∧ t.readReg 0x14 = s.readReg 0x14

/-- R103: in every step but a reset, ERR and ERRCODE hold unless the host writes CMD in that step while
BUSY = 0, and DONE does too unless the sequencer completes a command (R70); a set OVR stays set unless
the host writes STATUS with bit 3 set, whatever CMD write is taken, and OVR is as before unless a CMD
write is taken while BUSY = 1 (R67). An access of the host that is only pending counts for nothing.
That a number wider than 32 bits is cut is the model's choice (log 17). -/
def Obligations.StatusHoldsUntilNextCommand : Prop :=
  ∀ s t : State, step s = .next t → s.nextTurn ≠ .reset →
    ((∀ value, s.hostWritesReg 0x00 value → s.status.busy = true) →
      t.status.err = s.status.err ∧ t.status.errcode = s.status.errcode ∧
      (t.status.done = s.status.done ∨ (s.nextTurn = .sequencer ∧ t.status.done = true))) ∧
    ((∀ value, s.hostWritesReg 0x04 value → value / 8 % 2 = 0) →
      (s.status.ovr = true → t.status.ovr = true) ∧
      ((∀ value, s.hostWritesReg 0x00 value → s.status.busy = false) → t.status.ovr = s.status.ovr))

/-! ## The host's accesses -/

/-- R20 to R27: what a 32-bit read of each offset of the register window returns (recorded as log 11
says). -/
def Obligations.RegisterReads : Prop :=
  ∀ (s : State) (off : Nat) (ts : List Turn) (rest : List HostOp), off < 0x100 → off % 4 = 0 →
    ∃ v : Word,
      step { s with sched := .host :: ts, hostOps := .read (.reg off) 32 :: rest } =
        .next { s with sched := ts, hostOps := rest, hostReads := v :: s.hostReads } ∧
      (off = 0x00 → v = 0) ∧
      (off = 0x04 → v.getLsbD 0 = s.status.busy ∧ v.getLsbD 1 = s.status.done ∧
        v.getLsbD 2 = s.status.err ∧ v.getLsbD 3 = s.status.ovr ∧
        v.extractLsb' 4 4 = s.status.errcode ∧ v.extractLsb' 8 24 = 0#24) ∧
      (off = 0x08 → v.toNat = s.rows.toNat) ∧ (off = 0x0C → v.toNat = s.cols.toNat) ∧
      (off = 0x10 → v.toNat = s.nworkers.toNat) ∧
      (off = 0x14 → s.params.nmax ≤ 65535 → v.toNat = s.params.nmax) ∧ (0x18 ≤ off → v = 0)

/-- R22 to R27: what a 32-bit write to each offset of the register window but CMD changes, busy or
not: bit 3 of STATUS, the low halves of ROWS, COLS and NWORKERS, and nothing elsewhere. -/
def Obligations.RegisterWrites : Prop :=
  ∀ (s : State) (off : Nat) (v : Word) (ts : List Turn) (rest : List HostOp),
    0 < off → off < 0x100 → off % 4 = 0 →
    step { s with sched := .host :: ts, hostOps := .write (.reg off) 32 v.toNat :: rest } =
      .next { s with
        sched := ts
        hostOps := rest
        status := { s.status with
          ovr := if off = 0x04 ∧ v.toNat / 8 % 2 = 1 then false else s.status.ovr }
        rows := if off = 0x08 then v.extractLsb' 0 16 else s.rows
        cols := if off = 0x0C then v.extractLsb' 0 16 else s.cols
        nworkers := if off = 0x10 then v.extractLsb' 0 16 else s.nworkers }

/-- R41: the block gives meaning to exactly the 32-bit aligned accesses of the register window and the
8-bit accesses below a buffer's capacity; any other access, and no access of those, is
`HostBadAccess`. That a number wider than its access is cut (log 17) and that the form of an access is
checked before the conflict and the byte (log 10) are the model's choices; that an address in no
window has no meaning is its inference (log 2). -/
def Obligations.OnlyAdmittedAccesses : Prop :=
  ∀ (s : State) (op : HostOp) (place : Place) (bits value : Nat) (rest : List HostOp),
    (op = .read place bits ∨ op = .write place bits value) →
    (hostTurn { s with hostOps := op :: rest } = .fault .hostBadAccess ↔
      ¬ ((∃ off, locate s.params place = some (.reg off) ∧ bits = 32 ∧ off % 4 = 0 ∧ off < 0x100) ∨
         (∃ b off, locate s.params place = some (.buf b off) ∧ bits = 8 ∧
            off < s.params.maxRows * s.params.maxCols * channels b)))

/-- R42, R43: a host byte read that R51 does not forbid returns the byte (recorded as log 11 says), or
faults `UninitRead`, with no side effect; a host byte write that R51 does not forbid stores the byte
and changes nothing else. -/
def Obligations.HostByteAccesses : Prop :=
  ∀ (s : State) (b : BufId) (off : Nat) (v : Byte) (ts : List Turn) (rest : List HostOp),
    off < s.params.maxRows * s.params.maxCols * channels b →
    ¬ (s.status.busy = true ∧ b ∈ cmdWrites s.curop ∧ off < s.lrows * s.lcols * channels b) →
    (∀ x, s.bufs.read b off = some x →
      step { s with sched := .host :: ts, hostOps := .read (.buf b off) 8 :: rest } =
        .next { s with sched := ts, hostOps := rest, hostReads := x.setWidth 32 :: s.hostReads }) ∧
    (s.bufs.read b off = none →
      step { s with sched := .host :: ts, hostOps := .read (.buf b off) 8 :: rest } =
        .fault (.uninitRead b off)) ∧
    (¬ (s.status.busy = true ∧ b ∈ cmdReads s.curop) →
      ∃ t, step { s with sched := .host :: ts, hostOps := .write (.buf b off) 8 v.toNat :: rest } = .next t ∧
        t = { s with sched := ts, hostOps := rest, bufs := t.bufs } ∧
        t.bufs.read b off = some v ∧
        ∀ b' off', (b' ≠ b ∨ off' ≠ off) → t.bufs.read b' off' = s.bufs.read b' off')

/-- R51, R63, R117: while BUSY = 1, exactly the conflicting accesses to the running command's buffers
fault `HostRace`: a write to a buffer it reads, a read or a write in the image area of a buffer it
writes, with R63's table of both. That a read of an `uninit` byte there faults `HostRace` and not
`UninitRead` (log 10), and that a number wider than its access is cut (log 17), are the model's
choices. -/
def Obligations.ConflictingAccessesRace : Prop :=
  (∀ (s : State) (b : BufId) (off value : Nat) (ts : List Turn) (rest : List HostOp),
    s.status.busy = true → off < s.params.maxRows * s.params.maxCols * channels b →
    (step { s with sched := .host :: ts, hostOps := .write (.buf b off) 8 value :: rest } =
        .fault (.hostRace b off) ↔
      b ∈ cmdReads s.curop ∨ (b ∈ cmdWrites s.curop ∧ off < s.lrows * s.lcols * channels b)) ∧
    (step { s with sched := .host :: ts, hostOps := .read (.buf b off) 8 :: rest } =
        .fault (.hostRace b off) ↔
      (b ∈ cmdWrites s.curop ∧ off < s.lrows * s.lcols * channels b))) ∧
  (cmdReads .gray = [.src] ∧ cmdReads .sepia = [.src] ∧ cmdReads .neg = [.src] ∧
    cmdReads .sobel = [.gray] ∧ cmdReads .thrinv = [.tin] ∧ cmdReads .run = [.src, .gray]) ∧
  (cmdWrites .gray = [.gray] ∧ cmdWrites .sepia = [.sepia] ∧ cmdWrites .neg = [.neg] ∧
    cmdWrites .sobel = [.edge] ∧ cmdWrites .thrinv = [.tout] ∧
    cmdWrites .run = [.gray, .sepia, .neg, .edge])

/-- R28, R51, R119: a host access while BUSY = 1 that does not fault reaches the running command in no
way: not its lanes, phase or latched values, not a byte of a buffer it reads, not the image area
of a buffer it writes. -/
def Obligations.HostCannotDisturbACommand : Prop :=
  ∀ s u : State, s.status.busy = true → hostTurn s = .next u →
    u.status.busy = true ∧ u.lanes = s.lanes ∧ u.phase = s.phase ∧ u.curop = s.curop ∧
    u.lrows = s.lrows ∧ u.lcols = s.lcols ∧ u.ln = s.ln ∧
    (∀ b off, b ∈ cmdReads s.curop → u.bufs.read b off = s.bufs.read b off) ∧
    ∀ b off, b ∈ cmdWrites s.curop → off < s.lrows * s.lcols * channels b →
      u.bufs.read b off = s.bufs.read b off

/-- R44: "Reads have no side effects": a host read changes nothing but what the host has read, by
window offset or bus address (recorded as log 11 says), and the same read again returns the same
value. -/
def Obligations.HostReadsHaveNoSideEffects : Prop :=
  ∀ (s u : State) (place : Place) (bits : Nat) (rest : List HostOp),
    hostTurn { s with hostOps := .read place bits :: .read place bits :: rest } = .next u →
    ∃ v : Word,
      u = { s with hostOps := .read place bits :: rest, hostReads := v :: s.hostReads } ∧
      hostTurn u = .next { s with hostOps := rest, hostReads := v :: v :: s.hostReads }

/-- R65: `wait` reads STATUS, is made again while bit 0 of the value read is 1, and
changes nothing else (log 11). -/
def Obligations.WaitPollsStatus : Prop :=
  ∀ (s : State) (ts : List Turn) (rest : List HostOp),
    step { s with sched := .host :: ts, hostOps := .wait :: rest } =
      .next { s with
        sched := ts
        hostOps := if s.status.busy = true then .wait :: rest else rest
        hostReads := s.readReg 0x04 :: s.hostReads }

/-- R40: under legal parameters every byte of the register window and of a buffer's window has its bus
address, and an address in no window has no location (log 2). -/
def Obligations.BusAddressesResolve : Prop :=
  ∀ p : Params, paramsOk p = true →
    (∀ off, off < 0x100 → locate p (.bus (p.regBase + off)) = some (.reg off)) ∧
    (∀ b off, off < p.maxRows * p.maxCols * channels b →
      locate p (.bus (p.bufBase + bufNumber b * p.bufStride + off)) = some (.buf b off)) ∧
    ∀ addr, ¬ (p.regBase ≤ addr ∧ addr < p.regBase + 0x100) →
      (∀ b, ¬ (p.bufBase + bufNumber b * p.bufStride ≤ addr ∧
        addr < p.bufBase + bufNumber b * p.bufStride + p.maxRows * p.maxCols * channels b)) →
      locate p (.bus addr) = none

/-! ## Reset -/

/-- R112: the state after reset, and R35's remark that a command written straight after it is
rejected as InvalidDimensions (STATUS 0x16). -/
def Obligations.ResetState : Prop :=
  ∀ p : Params, paramsOk p = true →
    (State.resetWith p).status.word = 0 ∧ (State.resetWith p).rows = 0 ∧ (State.resetWith p).cols = 0 ∧
    (State.resetWith p).nworkers.toNat = p.nmax ∧ (State.resetWith p).phase = .idle ∧
    (∀ b off, (State.resetWith p).bufs.read b off = none) ∧
    ∀ i, ∃ t, exec i (State.resetWith p) = .next t ∧ t.status.word = 0x16#32

/-- R112, R113: a reset taken in any state leaves the block's state as reset says; while BUSY = 1 it so
abandons the running command and reports no completion. Every byte is `uninit` after it. -/
def Obligations.ResetAbandonsTheCommand : Prop :=
  ∀ s : State, s.nextTurn = .reset →
    ∃ t, step s = .next t ∧
      t.status.word = 0 ∧ t.phase = .idle ∧ t.rows = 0 ∧ t.cols = 0 ∧
      t.nworkers = BitVec.ofNat 16 s.params.nmax ∧
      ∀ b off, t.bufs.read b off = none

/-! ## The per-pixel functions -/

/-- R79: the range of the sum, the truncated average, its range, and its symmetry. -/
def Obligations.GrayValueIsTheTruncatedAverage : Prop :=
  ∀ c0 c1 c2 : Nat, c0 ≤ 255 → c1 ≤ 255 → c2 ≤ 255 →
    grayValue c0 c1 c2 = (c0 + c1 + c2) / 3 ∧ c0 + c1 + c2 ≤ 765 ∧
    3 * grayValue c0 c1 c2 ≤ c0 + c1 + c2 ∧ c0 + c1 + c2 < 3 * grayValue c0 c1 c2 + 3 ∧
    grayValue c0 c1 c2 ≤ 255 ∧ grayValue c1 c0 c2 = grayValue c0 c1 c2 ∧
    grayValue c0 c2 c1 = grayValue c0 c1 c2

/-- R82 with R81: the ranges of the sepia sums, that the clamp never fires on sepiaB, that it does
fire on sepiaG and sepiaR for bright inputs, and that each output is in 0 to 255. -/
def Obligations.SepiaRanges : Prop :=
  (∀ c0 c1 c2 : Nat, c0 ≤ 255 → c1 ≤ 255 → c2 ≤ 255 →
    sepiaAcc 0 c0 c1 c2 ≤ 238935 ∧ sepiaAcc 1 c0 c1 c2 ≤ 306765 ∧ sepiaAcc 2 c0 c1 c2 ≤ 344505 ∧
    sepiaValue 0 c0 c1 c2 = sepiaAcc 0 c0 c1 c2 / 1000 ∧ sepiaValue 0 c0 c1 c2 ≤ 238 ∧
    sepiaAcc 1 c0 c1 c2 / 1000 ≤ 306 ∧ sepiaAcc 2 c0 c1 c2 / 1000 ≤ 344 ∧
    ∀ o, o < 3 → sepiaValue o c0 c1 c2 ≤ 255) ∧
  (sepiaAcc 1 255 255 255 / 1000 = 306 ∧ sepiaAcc 2 255 255 255 / 1000 = 344)

/-- R84 and R92: the negative is its own inverse and maps no value to itself; the threshold inversion
is idempotent, in 0 to 127, unchanged at 127 and inverted at 128. -/
def Obligations.NegativeAndThresholdAlgebra : Prop :=
  ∀ v : Nat, v ≤ 255 →
    negValue v = 255 - v ∧ negValue v ≤ 255 ∧ negValue (negValue v) = v ∧ negValue v ≠ v ∧
    thrValue v ≤ 127 ∧ thrValue (thrValue v) = thrValue v ∧
    (v ≤ 127 → thrValue v = v) ∧ (128 ≤ v → thrValue v = 255 - v)

/-- R88, R13: `isqrt` is the greatest `m` with `m*m <= n`; "`out = 0` exactly when `n >= 65025`
(`255^2`), and `out = 255` exactly when `n = 0`"; between them it is 255 minus the root. -/
def Obligations.EdgeValueExtremes : Prop :=
  (∀ n m : Nat, m ≤ isqrt n ↔ m * m ≤ n) ∧
  ∀ gx gy : Int,
    (edgeValue gx gy = 0 ↔ 65025 ≤ gx * gx + gy * gy) ∧
    (edgeValue gx gy = 255 ↔ gx * gx + gy * gy = 0) ∧
    (gx * gx + gy * gy < 65025 → edgeValue gx gy = 255 - isqrt (gx * gx + gy * gy).toNat)

/-- R89: with the window flipped both sums change sign, with the matrices read by columns they swap,
and with either or both readings every window gives the same output. -/
def Obligations.KernelReadingDoesNotMatter : Prop :=
  ∀ taps : List Nat, taps.length = 9 →
    gradient (flipped KX) windowPositions taps = - gradient KX windowPositions taps ∧
    gradient (flipped KY) windowPositions taps = - gradient KY windowPositions taps ∧
    gradient (byColumns KX) windowPositions taps = gradient KY windowPositions taps ∧
    gradient (byColumns KY) windowPositions taps = gradient KX windowPositions taps ∧
    edgeValue (gradient (flipped KX) windowPositions taps)
        (gradient (flipped KY) windowPositions taps) = sobelValue taps ∧
    edgeValue (gradient (byColumns KX) windowPositions taps)
        (gradient (byColumns KY) windowPositions taps) = sobelValue taps ∧
    edgeValue (gradient (flipped (byColumns KX)) windowPositions taps)
        (gradient (flipped (byColumns KY)) windowPositions taps) = sobelValue taps

/-- R90: the gradient sums of a constant image of value `v` at interior, edge and corner pixels, and
in images of one row or one column. -/
def Obligations.ConstantImageGradients : Prop :=
  ∀ (s : State) (v : Byte) (i j : Nat), i < s.lrows → j < s.lcols →
    (∀ a b, a < s.lrows → b < s.lcols → s.bufs.read .gray (a * s.lcols + b) = some v) →
    ∃ taps, tapValues s i j windowPositions = .ok taps ∧
      (2 ≤ s.lrows → 2 ≤ s.lcols →
        ((0 < i ∧ i + 1 < s.lrows) → (0 < j ∧ j + 1 < s.lcols) →
          gradient KX windowPositions taps = 0 ∧ gradient KY windowPositions taps = 0 ∧
          sobelValue taps = 255) ∧
        ((i = 0 ∨ i + 1 = s.lrows) → (0 < j ∧ j + 1 < s.lcols) →
          gradient KX windowPositions taps = 0 ∧ |gradient KY windowPositions taps| = 4 * v.toNat) ∧
        ((0 < i ∧ i + 1 < s.lrows) → (j = 0 ∨ j + 1 = s.lcols) →
          |gradient KX windowPositions taps| = 4 * v.toNat ∧ gradient KY windowPositions taps = 0) ∧
        ((i = 0 ∨ i + 1 = s.lrows) → (j = 0 ∨ j + 1 = s.lcols) →
          |gradient KX windowPositions taps| = 3 * v.toNat ∧
          |gradient KY windowPositions taps| = 3 * v.toNat)) ∧
      (s.lrows = 1 → gradient KY windowPositions taps = 0) ∧
      (s.lcols = 1 → gradient KX windowPositions taps = 0) ∧
      (s.lrows = 1 → s.lcols = 1 → sobelValue taps = 255)
end

