-- ==== Sys2Proof/Laws/Arith.lean ====
section
/-! SUPPORT. The integer square root and the saturation: what they answer. -/

namespace Sys2Proof.Machine

theorem isqrtFuel_spec (fuel n : Nat) (h : n ≤ fuel) :
    isqrtFuel fuel n * isqrtFuel fuel n ≤ n ∧ n < (isqrtFuel fuel n + 1) * (isqrtFuel fuel n + 1) := by
  induction fuel generalizing n with
  | zero => obtain rfl : n = 0 := by omega
            simp [isqrtFuel]
  | succ f ih =>
    by_cases hn : n = 0
    · subst hn; simp [isqrtFuel]
    · have := ih (n / 4) (by omega)
      generalize hr : isqrtFuel f (n / 4) = r at this
      have hdiv : 4 * (n / 4) ≤ n ∧ n < 4 * (n / 4) + 4 := by omega
      simp only [isqrtFuel, if_neg hn, hr]
      split
      · constructor
        · assumption
        · nlinarith
      · constructor
        · nlinarith
        · omega

/-- `isqrt(n)` is "the greatest integer `m` with `m*m <= n`" (R13). -/
theorem isqrt_spec (n : Nat) : isqrt n * isqrt n ≤ n ∧ n < (isqrt n + 1) * (isqrt n + 1) :=
  isqrtFuel_spec n n (Nat.le_refl n)

theorem isqrt_eq_sqrt (n : Nat) : isqrt n = Nat.sqrt n := by
  have h := isqrt_spec n
  refine Nat.le_antisymm (Nat.le_sqrt.mpr h.1) ?_
  exact Nat.lt_succ_iff.mp (Nat.sqrt_lt.mpr h.2)

theorem sat8_ofNat (n : Nat) : sat8 (n : Int) = min 255 n := by
  unfold sat8; omega

theorem sat8_le (v : Int) : sat8 v ≤ 255 := by
  unfold sat8; omega

end Sys2Proof.Machine
end

