-- ==== Sys2Proof/Laws/Memory.lean ====
section
/-! SUPPORT. The laws of the buffer memories: read after write, the canonical form kept by every
write, equal contents make equal memories. -/

namespace Sys2Proof.Machine

@[simp] theorem Memory.read_nil (off : Nat) : Memory.read [] off = none := rfl

theorem Memory.read_write (m : Memory) (a b : Nat) (v : Byte) :
    (Memory.write m a v).read b = if b = a then some v else m.read b := by
  induction m with
  | nil => simp [Memory.write, Memory.read]
  | cons c rest ih =>
    obtain ⟨x, u⟩ := c
    simp only [Memory.write]
    split
    · simp [Memory.read]
    · split
      · subst_vars; simp only [Memory.read]; split <;> rfl
      · simp only [Memory.read, ih]; grind

@[simp] theorem Memory.read_write_same (m : Memory) (a : Nat) (v : Byte) :
    (Memory.write m a v).read a = some v := by simp [Memory.read_write]

theorem Memory.read_write_other (m : Memory) {a b : Nat} (v : Byte) (h : b ≠ a) :
    (Memory.write m a v).read b = m.read b := by simp [Memory.read_write, h]

theorem Memory.risingFrom_mono {lo lo' : Nat} (m : Memory) (h : lo' ≤ lo)
    (hm : Memory.risingFrom lo m = true) : Memory.risingFrom lo' m = true := by
  cases m with
  | nil => rfl
  | cons c rest =>
    obtain ⟨x, u⟩ := c
    simp only [Memory.risingFrom, Bool.and_eq_true, decide_eq_true_eq] at hm ⊢
    exact ⟨by omega, hm.2⟩

theorem Memory.risingFrom_write (m : Memory) (lo a : Nat) (v : Byte) (hlo : lo ≤ a)
    (h : Memory.risingFrom lo m = true) : Memory.risingFrom lo (m.write a v) = true := by
  induction m generalizing lo with
  | nil => simp [Memory.write, Memory.risingFrom, hlo]
  | cons c rest ih =>
    obtain ⟨x, u⟩ := c
    simp only [Memory.risingFrom, Bool.and_eq_true, decide_eq_true_eq] at h
    simp only [Memory.write]
    split
    · simp [Memory.risingFrom, hlo, h.2]; omega
    · split
      · subst_vars; simp [Memory.risingFrom, h]
      · simp only [Memory.risingFrom, Bool.and_eq_true, decide_eq_true_eq]
        exact ⟨h.1, ih _ (by omega) h.2⟩

/-- A write keeps the canonical form. -/
theorem Memory.wf_write (m : Memory) (a : Nat) (v : Byte) (h : m.wf = true) : (m.write a v).wf = true :=
  Memory.risingFrom_write m 0 a v (Nat.zero_le a) h

theorem Memory.below_write (m : Memory) (cap a : Nat) (v : Byte) (ha : a < cap)
    (h : m.below cap = true) : (m.write a v).below cap = true := by
  induction m with
  | nil => simp [Memory.write, Memory.below, ha]
  | cons c rest ih =>
    obtain ⟨x, u⟩ := c
    simp only [Memory.below, List.all_cons, Bool.and_eq_true, decide_eq_true_eq] at h ih ⊢
    simp only [Memory.write]
    split
    · simp only [List.all_cons, Bool.and_eq_true, decide_eq_true_eq]
      exact ⟨ha, h.1, h.2⟩
    · split
      · simp only [List.all_cons, Bool.and_eq_true, decide_eq_true_eq]
        exact ⟨ha, h.2⟩
      · simp only [List.all_cons, Bool.and_eq_true, decide_eq_true_eq]
        exact ⟨h.1, ih h.2⟩

theorem Memory.read_lt (m : Memory) (lo off : Nat) (h : Memory.risingFrom lo m = true) (ho : off < lo) :
    m.read off = none := by
  induction m generalizing lo with
  | nil => rfl
  | cons c rest ih =>
    obtain ⟨x, u⟩ := c
    simp only [Memory.risingFrom, Bool.and_eq_true, decide_eq_true_eq] at h
    simp only [Memory.read]
    rw [if_neg (by omega)]
    exact ih _ h.2 (by omega)

theorem Memory.ext_from (m m' : Memory) (lo : Nat) (h : Memory.risingFrom lo m = true)
    (h' : Memory.risingFrom lo m' = true) (hr : ∀ off, m.read off = m'.read off) : m = m' := by
  induction m generalizing m' lo with
  | nil =>
    cases m' with
    | nil => rfl
    | cons c rest =>
      obtain ⟨x, u⟩ := c
      have := hr x
      simp [Memory.read] at this
  | cons c rest ih =>
    obtain ⟨x, u⟩ := c
    cases m' with
    | nil =>
      have := hr x
      simp [Memory.read] at this
    | cons c' rest' =>
      obtain ⟨x', u'⟩ := c'
      simp only [Memory.risingFrom, Bool.and_eq_true, decide_eq_true_eq] at h h'
      have key : x = x' := by
        rcases Nat.lt_trichotomy x x' with hlt | heq | hgt
        · have h1 := hr x
          simp only [Memory.read, if_true] at h1
          rw [if_neg (by omega), Memory.read_lt rest' (x' + 1) x h'.2 (by omega)] at h1
          simp at h1
        · exact heq
        · have h1 := hr x'
          simp only [Memory.read, if_true] at h1
          rw [if_neg (by omega), Memory.read_lt rest (x + 1) x' h.2 (by omega)] at h1
          simp at h1
      subst key
      have h1 := hr x
      simp only [Memory.read, if_true, Option.some.injEq] at h1
      subst h1
      congr 1
      refine ih rest' (x + 1) h.2 h'.2 (fun off => ?_)
      have h2 := hr off
      simp only [Memory.read] at h2
      split at h2
      · subst_vars
        rw [Memory.read_lt rest _ _ h.2 (by omega), Memory.read_lt rest' _ _ h'.2 (by omega)]
      · exact h2

/-- Canonical memories with equal contents are equal. -/
theorem Memory.ext (m m' : Memory) (h : m.wf = true) (h' : m'.wf = true)
    (hr : ∀ off, m.read off = m'.read off) : m = m' := Memory.ext_from m m' 0 h h' hr

theorem Buffers.get_set (m : Buffers) (a b : BufId) (mem : Memory) :
    (m.set a mem).get b = if b = a then mem else m.get b := by
  cases a <;> cases b <;> rfl

theorem Buffers.get_write (m : Buffers) (a b : BufId) (off : Nat) (v : Byte) :
    (m.write a off v).get b = if b = a then (m.get a).write off v else m.get b := by
  simp [Buffers.write, Buffers.get_set]

theorem Buffers.read_write (m : Buffers) (a b : BufId) (off o : Nat) (v : Byte) :
    (m.write a off v).read b o = if b = a ∧ o = off then some v else m.read b o := by
  simp only [Buffers.read, Buffers.get_write]
  by_cases h : b = a
  · subst h; simp [Memory.read_write]
  · simp [h]

@[simp] theorem Buffers.read_write_same (m : Buffers) (a : BufId) (off : Nat) (v : Byte) :
    (m.write a off v).read a off = some v := by simp [Buffers.read_write]

theorem Buffers.write_wf (m : Buffers) (a : BufId) (off : Nat) (v : Byte)
    (h : ∀ b, (m.get b).wf = true) (b : BufId) : ((m.write a off v).get b).wf = true := by
  rw [Buffers.get_write]
  split
  · exact Memory.wf_write _ _ _ (h a)
  · exact h b

theorem Buffers.write_below (p : Params) (m : Buffers) (a : BufId) (off : Nat) (v : Byte)
    (ho : off < capacity p a) (h : ∀ b, (m.get b).below (capacity p b) = true) (b : BufId) :
    ((m.write a off v).get b).below (capacity p b) = true := by
  rw [Buffers.get_write]
  split
  · subst_vars; exact Memory.below_write _ _ _ _ ho (h _)
  · exact h b

/-- Two sets of canonical buffers with equal contents are equal. -/
theorem Buffers.ext_read (m m' : Buffers) (h : ∀ b, (m.get b).wf = true) (h' : ∀ b, (m'.get b).wf = true)
    (hr : ∀ b off, m.read b off = m'.read b off) : m = m' := by
  have key : ∀ b, m.get b = m'.get b := fun b => Memory.ext _ _ (h b) (h' b) (hr b)
  cases m; cases m'
  simp only [Buffers.mk.injEq]
  exact ⟨key .src, key .gray, key .sepia, key .neg, key .edge, key .tin, key .tout⟩

@[simp] theorem Buffers.uninit_get (b : BufId) : Buffers.uninit.get b = [] := by cases b <;> rfl

@[simp] theorem Buffers.uninit_read (b : BufId) (off : Nat) : Buffers.uninit.read b off = none := by
  simp [Buffers.read]

end Sys2Proof.Machine
end

