-- ==== Sys2Proof/Laws/State.lean ====
section
/-! SUPPORT. One lemma per field per named update of State and of STATUS, true by rfl, so that no
proof unfolds a record update. -/

namespace Sys2Proof.Machine

/-! ## `State.overrun` -/

@[simp] theorem State.overrun_params (s : State) : s.overrun.params = s.params := rfl
@[simp] theorem State.overrun_status (s : State) : s.overrun.status = s.status.overrun := rfl
@[simp] theorem State.overrun_rows (s : State) : s.overrun.rows = s.rows := rfl
@[simp] theorem State.overrun_cols (s : State) : s.overrun.cols = s.cols := rfl
@[simp] theorem State.overrun_nworkers (s : State) : s.overrun.nworkers = s.nworkers := rfl
@[simp] theorem State.overrun_lrows (s : State) : s.overrun.lrows = s.lrows := rfl
@[simp] theorem State.overrun_lcols (s : State) : s.overrun.lcols = s.lcols := rfl
@[simp] theorem State.overrun_ln (s : State) : s.overrun.ln = s.ln := rfl
@[simp] theorem State.overrun_phase (s : State) : s.overrun.phase = s.phase := rfl
@[simp] theorem State.overrun_curop (s : State) : s.overrun.curop = s.curop := rfl
@[simp] theorem State.overrun_lanes (s : State) : s.overrun.lanes = s.lanes := rfl
@[simp] theorem State.overrun_bufs (s : State) : s.overrun.bufs = s.bufs := rfl
@[simp] theorem State.overrun_hostOps (s : State) : s.overrun.hostOps = s.hostOps := rfl
@[simp] theorem State.overrun_hostReads (s : State) : s.overrun.hostReads = s.hostReads := rfl
@[simp] theorem State.overrun_sched (s : State) : s.overrun.sched = s.sched := rfl
@[simp] theorem State.overrun_turnCount (s : State) : s.overrun.turnCount = s.turnCount := rfl

/-! ## `State.clearResult` -/

@[simp] theorem State.clearResult_params (s : State) : s.clearResult.params = s.params := rfl
@[simp] theorem State.clearResult_status (s : State) : s.clearResult.status = s.status.cleared := rfl
@[simp] theorem State.clearResult_rows (s : State) : s.clearResult.rows = s.rows := rfl
@[simp] theorem State.clearResult_cols (s : State) : s.clearResult.cols = s.cols := rfl
@[simp] theorem State.clearResult_nworkers (s : State) : s.clearResult.nworkers = s.nworkers := rfl
@[simp] theorem State.clearResult_lrows (s : State) : s.clearResult.lrows = s.lrows := rfl
@[simp] theorem State.clearResult_lcols (s : State) : s.clearResult.lcols = s.lcols := rfl
@[simp] theorem State.clearResult_ln (s : State) : s.clearResult.ln = s.ln := rfl
@[simp] theorem State.clearResult_phase (s : State) : s.clearResult.phase = s.phase := rfl
@[simp] theorem State.clearResult_curop (s : State) : s.clearResult.curop = s.curop := rfl
@[simp] theorem State.clearResult_lanes (s : State) : s.clearResult.lanes = s.lanes := rfl
@[simp] theorem State.clearResult_bufs (s : State) : s.clearResult.bufs = s.bufs := rfl
@[simp] theorem State.clearResult_hostOps (s : State) : s.clearResult.hostOps = s.hostOps := rfl
@[simp] theorem State.clearResult_hostReads (s : State) : s.clearResult.hostReads = s.hostReads := rfl
@[simp] theorem State.clearResult_sched (s : State) : s.clearResult.sched = s.sched := rfl
@[simp] theorem State.clearResult_turnCount (s : State) : s.clearResult.turnCount = s.turnCount := rfl

/-! ## `State.reject` -/

@[simp] theorem State.reject_params (s : State) (c : BitVec 4) : (s.reject c).params = s.params := rfl
@[simp] theorem State.reject_status (s : State) (c : BitVec 4) : (s.reject c).status = s.status.rejected c := rfl
@[simp] theorem State.reject_rows (s : State) (c : BitVec 4) : (s.reject c).rows = s.rows := rfl
@[simp] theorem State.reject_cols (s : State) (c : BitVec 4) : (s.reject c).cols = s.cols := rfl
@[simp] theorem State.reject_nworkers (s : State) (c : BitVec 4) : (s.reject c).nworkers = s.nworkers := rfl
@[simp] theorem State.reject_lrows (s : State) (c : BitVec 4) : (s.reject c).lrows = s.lrows := rfl
@[simp] theorem State.reject_lcols (s : State) (c : BitVec 4) : (s.reject c).lcols = s.lcols := rfl
@[simp] theorem State.reject_ln (s : State) (c : BitVec 4) : (s.reject c).ln = s.ln := rfl
@[simp] theorem State.reject_phase (s : State) (c : BitVec 4) : (s.reject c).phase = s.phase := rfl
@[simp] theorem State.reject_curop (s : State) (c : BitVec 4) : (s.reject c).curop = s.curop := rfl
@[simp] theorem State.reject_lanes (s : State) (c : BitVec 4) : (s.reject c).lanes = s.lanes := rfl
@[simp] theorem State.reject_bufs (s : State) (c : BitVec 4) : (s.reject c).bufs = s.bufs := rfl
@[simp] theorem State.reject_hostOps (s : State) (c : BitVec 4) : (s.reject c).hostOps = s.hostOps := rfl
@[simp] theorem State.reject_hostReads (s : State) (c : BitVec 4) : (s.reject c).hostReads = s.hostReads := rfl
@[simp] theorem State.reject_sched (s : State) (c : BitVec 4) : (s.reject c).sched = s.sched := rfl
@[simp] theorem State.reject_turnCount (s : State) (c : BitVec 4) : (s.reject c).turnCount = s.turnCount := rfl

/-! ## `State.latch` -/

@[simp] theorem State.latch_params (s : State) : s.latch.params = s.params := rfl
@[simp] theorem State.latch_status (s : State) : s.latch.status = s.status := rfl
@[simp] theorem State.latch_rows (s : State) : s.latch.rows = s.rows := rfl
@[simp] theorem State.latch_cols (s : State) : s.latch.cols = s.cols := rfl
@[simp] theorem State.latch_nworkers (s : State) : s.latch.nworkers = s.nworkers := rfl
@[simp] theorem State.latch_lrows (s : State) : s.latch.lrows = s.rows.toNat := rfl
@[simp] theorem State.latch_lcols (s : State) : s.latch.lcols = s.cols.toNat := rfl
@[simp] theorem State.latch_ln (s : State) : s.latch.ln = effectiveWorkers s.nworkers.toNat s.params.nmax := rfl
@[simp] theorem State.latch_phase (s : State) : s.latch.phase = s.phase := rfl
@[simp] theorem State.latch_curop (s : State) : s.latch.curop = s.curop := rfl
@[simp] theorem State.latch_lanes (s : State) : s.latch.lanes = s.lanes := rfl
@[simp] theorem State.latch_bufs (s : State) : s.latch.bufs = s.bufs := rfl
@[simp] theorem State.latch_hostOps (s : State) : s.latch.hostOps = s.hostOps := rfl
@[simp] theorem State.latch_hostReads (s : State) : s.latch.hostReads = s.hostReads := rfl
@[simp] theorem State.latch_sched (s : State) : s.latch.sched = s.sched := rfl
@[simp] theorem State.latch_turnCount (s : State) : s.latch.turnCount = s.turnCount := rfl

/-! ## `State.complete` -/

@[simp] theorem State.complete_params (s : State) : s.complete.params = s.params := rfl
@[simp] theorem State.complete_status (s : State) : s.complete.status = s.status.completed := rfl
@[simp] theorem State.complete_rows (s : State) : s.complete.rows = s.rows := rfl
@[simp] theorem State.complete_cols (s : State) : s.complete.cols = s.cols := rfl
@[simp] theorem State.complete_nworkers (s : State) : s.complete.nworkers = s.nworkers := rfl
@[simp] theorem State.complete_lrows (s : State) : s.complete.lrows = s.lrows := rfl
@[simp] theorem State.complete_lcols (s : State) : s.complete.lcols = s.lcols := rfl
@[simp] theorem State.complete_ln (s : State) : s.complete.ln = s.ln := rfl
@[simp] theorem State.complete_phase (s : State) : s.complete.phase = .idle := rfl
@[simp] theorem State.complete_curop (s : State) : s.complete.curop = s.curop := rfl
@[simp] theorem State.complete_lanes (s : State) : s.complete.lanes = s.lanes := rfl
@[simp] theorem State.complete_bufs (s : State) : s.complete.bufs = s.bufs := rfl
@[simp] theorem State.complete_hostOps (s : State) : s.complete.hostOps = s.hostOps := rfl
@[simp] theorem State.complete_hostReads (s : State) : s.complete.hostReads = s.hostReads := rfl
@[simp] theorem State.complete_sched (s : State) : s.complete.sched = s.sched := rfl
@[simp] theorem State.complete_turnCount (s : State) : s.complete.turnCount = s.turnCount := rfl

/-! ## `State.setLane` -/

@[simp] theorem State.setLane_params (s : State) (k : Nat) (l : Lane) : (s.setLane k l).params = s.params := rfl
@[simp] theorem State.setLane_status (s : State) (k : Nat) (l : Lane) : (s.setLane k l).status = s.status := rfl
@[simp] theorem State.setLane_rows (s : State) (k : Nat) (l : Lane) : (s.setLane k l).rows = s.rows := rfl
@[simp] theorem State.setLane_cols (s : State) (k : Nat) (l : Lane) : (s.setLane k l).cols = s.cols := rfl
@[simp] theorem State.setLane_nworkers (s : State) (k : Nat) (l : Lane) : (s.setLane k l).nworkers = s.nworkers := rfl
@[simp] theorem State.setLane_lrows (s : State) (k : Nat) (l : Lane) : (s.setLane k l).lrows = s.lrows := rfl
@[simp] theorem State.setLane_lcols (s : State) (k : Nat) (l : Lane) : (s.setLane k l).lcols = s.lcols := rfl
@[simp] theorem State.setLane_ln (s : State) (k : Nat) (l : Lane) : (s.setLane k l).ln = s.ln := rfl
@[simp] theorem State.setLane_phase (s : State) (k : Nat) (l : Lane) : (s.setLane k l).phase = s.phase := rfl
@[simp] theorem State.setLane_curop (s : State) (k : Nat) (l : Lane) : (s.setLane k l).curop = s.curop := rfl
@[simp] theorem State.setLane_lanes (s : State) (k : Nat) (l : Lane) : (s.setLane k l).lanes = s.lanes.set k l := rfl
@[simp] theorem State.setLane_bufs (s : State) (k : Nat) (l : Lane) : (s.setLane k l).bufs = s.bufs := rfl
@[simp] theorem State.setLane_hostOps (s : State) (k : Nat) (l : Lane) : (s.setLane k l).hostOps = s.hostOps := rfl
@[simp] theorem State.setLane_hostReads (s : State) (k : Nat) (l : Lane) : (s.setLane k l).hostReads = s.hostReads := rfl
@[simp] theorem State.setLane_sched (s : State) (k : Nat) (l : Lane) : (s.setLane k l).sched = s.sched := rfl
@[simp] theorem State.setLane_turnCount (s : State) (k : Nat) (l : Lane) : (s.setLane k l).turnCount = s.turnCount := rfl

/-! ## `State.putPx` -/

@[simp] theorem State.putPx_params (s : State) (b : BufId) (i j k v : Nat) : (s.putPx b i j k v).params = s.params := rfl
@[simp] theorem State.putPx_status (s : State) (b : BufId) (i j k v : Nat) : (s.putPx b i j k v).status = s.status := rfl
@[simp] theorem State.putPx_rows (s : State) (b : BufId) (i j k v : Nat) : (s.putPx b i j k v).rows = s.rows := rfl
@[simp] theorem State.putPx_cols (s : State) (b : BufId) (i j k v : Nat) : (s.putPx b i j k v).cols = s.cols := rfl
@[simp] theorem State.putPx_nworkers (s : State) (b : BufId) (i j k v : Nat) : (s.putPx b i j k v).nworkers = s.nworkers := rfl
@[simp] theorem State.putPx_lrows (s : State) (b : BufId) (i j k v : Nat) : (s.putPx b i j k v).lrows = s.lrows := rfl
@[simp] theorem State.putPx_lcols (s : State) (b : BufId) (i j k v : Nat) : (s.putPx b i j k v).lcols = s.lcols := rfl
@[simp] theorem State.putPx_ln (s : State) (b : BufId) (i j k v : Nat) : (s.putPx b i j k v).ln = s.ln := rfl
@[simp] theorem State.putPx_phase (s : State) (b : BufId) (i j k v : Nat) : (s.putPx b i j k v).phase = s.phase := rfl
@[simp] theorem State.putPx_curop (s : State) (b : BufId) (i j k v : Nat) : (s.putPx b i j k v).curop = s.curop := rfl
@[simp] theorem State.putPx_lanes (s : State) (b : BufId) (i j k v : Nat) : (s.putPx b i j k v).lanes = s.lanes := rfl
@[simp] theorem State.putPx_bufs (s : State) (b : BufId) (i j k v : Nat) : (s.putPx b i j k v).bufs = s.bufs.write b (pixelOffset s.lcols b i j k) (BitVec.ofNat 8 v) := rfl
@[simp] theorem State.putPx_hostOps (s : State) (b : BufId) (i j k v : Nat) : (s.putPx b i j k v).hostOps = s.hostOps := rfl
@[simp] theorem State.putPx_hostReads (s : State) (b : BufId) (i j k v : Nat) : (s.putPx b i j k v).hostReads = s.hostReads := rfl
@[simp] theorem State.putPx_sched (s : State) (b : BufId) (i j k v : Nat) : (s.putPx b i j k v).sched = s.sched := rfl
@[simp] theorem State.putPx_turnCount (s : State) (b : BufId) (i j k v : Nat) : (s.putPx b i j k v).turnCount = s.turnCount := rfl

/-! ## `State.hardReset` -/

@[simp] theorem State.hardReset_params (s : State) : s.hardReset.params = s.params := rfl
@[simp] theorem State.hardReset_status (s : State) : s.hardReset.status = Status.reset := rfl
@[simp] theorem State.hardReset_rows (s : State) : s.hardReset.rows = 0 := rfl
@[simp] theorem State.hardReset_cols (s : State) : s.hardReset.cols = 0 := rfl
@[simp] theorem State.hardReset_nworkers (s : State) : s.hardReset.nworkers = BitVec.ofNat 16 s.params.nmax := rfl
@[simp] theorem State.hardReset_lrows (s : State) : s.hardReset.lrows = 0 := rfl
@[simp] theorem State.hardReset_lcols (s : State) : s.hardReset.lcols = 0 := rfl
@[simp] theorem State.hardReset_ln (s : State) : s.hardReset.ln = 0 := rfl
@[simp] theorem State.hardReset_phase (s : State) : s.hardReset.phase = .idle := rfl
@[simp] theorem State.hardReset_curop (s : State) : s.hardReset.curop = .gray := rfl
@[simp] theorem State.hardReset_lanes (s : State) : s.hardReset.lanes = [] := rfl
@[simp] theorem State.hardReset_bufs (s : State) : s.hardReset.bufs = Buffers.uninit := rfl
@[simp] theorem State.hardReset_hostOps (s : State) : s.hardReset.hostOps = s.hostOps := rfl
@[simp] theorem State.hardReset_hostReads (s : State) : s.hardReset.hostReads = s.hostReads := rfl
@[simp] theorem State.hardReset_sched (s : State) : s.hardReset.sched = s.sched := rfl
@[simp] theorem State.hardReset_turnCount (s : State) : s.hardReset.turnCount = s.turnCount := rfl

/-! ## `State.returned` -/

@[simp] theorem State.returned_params (s : State) (v : Word) : (s.returned v).params = s.params := rfl
@[simp] theorem State.returned_status (s : State) (v : Word) : (s.returned v).status = s.status := rfl
@[simp] theorem State.returned_rows (s : State) (v : Word) : (s.returned v).rows = s.rows := rfl
@[simp] theorem State.returned_cols (s : State) (v : Word) : (s.returned v).cols = s.cols := rfl
@[simp] theorem State.returned_nworkers (s : State) (v : Word) : (s.returned v).nworkers = s.nworkers := rfl
@[simp] theorem State.returned_lrows (s : State) (v : Word) : (s.returned v).lrows = s.lrows := rfl
@[simp] theorem State.returned_lcols (s : State) (v : Word) : (s.returned v).lcols = s.lcols := rfl
@[simp] theorem State.returned_ln (s : State) (v : Word) : (s.returned v).ln = s.ln := rfl
@[simp] theorem State.returned_phase (s : State) (v : Word) : (s.returned v).phase = s.phase := rfl
@[simp] theorem State.returned_curop (s : State) (v : Word) : (s.returned v).curop = s.curop := rfl
@[simp] theorem State.returned_lanes (s : State) (v : Word) : (s.returned v).lanes = s.lanes := rfl
@[simp] theorem State.returned_bufs (s : State) (v : Word) : (s.returned v).bufs = s.bufs := rfl
@[simp] theorem State.returned_hostOps (s : State) (v : Word) : (s.returned v).hostOps = s.hostOps := rfl
@[simp] theorem State.returned_hostReads (s : State) (v : Word) : (s.returned v).hostReads = v :: s.hostReads := rfl
@[simp] theorem State.returned_sched (s : State) (v : Word) : (s.returned v).sched = s.sched := rfl
@[simp] theorem State.returned_turnCount (s : State) (v : Word) : (s.returned v).turnCount = s.turnCount := rfl

/-! ## `Status.cleared` -/

@[simp] theorem Status.cleared_busy (t : Status): t.cleared.busy = t.busy := rfl
@[simp] theorem Status.cleared_done (t : Status): t.cleared.done = false := rfl
@[simp] theorem Status.cleared_err (t : Status): t.cleared.err = false := rfl
@[simp] theorem Status.cleared_ovr (t : Status): t.cleared.ovr = t.ovr := rfl
@[simp] theorem Status.cleared_errcode (t : Status): t.cleared.errcode = 0 := rfl

/-! ## `Status.rejected` -/

@[simp] theorem Status.rejected_busy (t : Status) (c : BitVec 4): (t.rejected c).busy = t.busy := rfl
@[simp] theorem Status.rejected_done (t : Status) (c : BitVec 4): (t.rejected c).done = true := rfl
@[simp] theorem Status.rejected_err (t : Status) (c : BitVec 4): (t.rejected c).err = true := rfl
@[simp] theorem Status.rejected_ovr (t : Status) (c : BitVec 4): (t.rejected c).ovr = t.ovr := rfl
@[simp] theorem Status.rejected_errcode (t : Status) (c : BitVec 4): (t.rejected c).errcode = c := rfl

/-! ## `Status.overrun` -/

@[simp] theorem Status.overrun_busy (t : Status): t.overrun.busy = t.busy := rfl
@[simp] theorem Status.overrun_done (t : Status): t.overrun.done = t.done := rfl
@[simp] theorem Status.overrun_err (t : Status): t.overrun.err = t.err := rfl
@[simp] theorem Status.overrun_ovr (t : Status): t.overrun.ovr = true := rfl
@[simp] theorem Status.overrun_errcode (t : Status): t.overrun.errcode = t.errcode := rfl

/-! ## `Status.accepted` -/

@[simp] theorem Status.accepted_busy (t : Status): t.accepted.busy = true := rfl
@[simp] theorem Status.accepted_done (t : Status): t.accepted.done = t.done := rfl
@[simp] theorem Status.accepted_err (t : Status): t.accepted.err = t.err := rfl
@[simp] theorem Status.accepted_ovr (t : Status): t.accepted.ovr = t.ovr := rfl
@[simp] theorem Status.accepted_errcode (t : Status): t.accepted.errcode = t.errcode := rfl

/-! ## `Status.completed` -/

@[simp] theorem Status.completed_busy (t : Status): t.completed.busy = false := rfl
@[simp] theorem Status.completed_done (t : Status): t.completed.done = true := rfl
@[simp] theorem Status.completed_err (t : Status): t.completed.err = t.err := rfl
@[simp] theorem Status.completed_ovr (t : Status): t.completed.ovr = t.ovr := rfl
@[simp] theorem Status.completed_errcode (t : Status): t.completed.errcode = t.errcode := rfl

/-! ## `Status.reset` -/

@[simp] theorem Status.reset_busy : Status.reset.busy = false := rfl
@[simp] theorem Status.reset_done : Status.reset.done = false := rfl
@[simp] theorem Status.reset_err : Status.reset.err = false := rfl
@[simp] theorem Status.reset_ovr : Status.reset.ovr = false := rfl
@[simp] theorem Status.reset_errcode : Status.reset.errcode = 0 := rfl

/-! ## `Status.hostWrite` -/

@[simp] theorem Status.hostWrite_busy (t : Status) (v : Word) : (t.hostWrite v).busy = t.busy := by unfold Status.hostWrite; split <;> rfl
@[simp] theorem Status.hostWrite_done (t : Status) (v : Word) : (t.hostWrite v).done = t.done := by unfold Status.hostWrite; split <;> rfl
@[simp] theorem Status.hostWrite_err (t : Status) (v : Word) : (t.hostWrite v).err = t.err := by unfold Status.hostWrite; split <;> rfl
@[simp] theorem Status.hostWrite_ovr (t : Status) (v : Word) : (t.hostWrite v).ovr = (if v.getLsbD 3 then false else t.ovr) := by unfold Status.hostWrite; split <;> rfl
@[simp] theorem Status.hostWrite_errcode (t : Status) (v : Word) : (t.hostWrite v).errcode = t.errcode := by unfold Status.hostWrite; split <;> rfl

/-! ## `State.turnTaken`, `State.nextTurn` -/

@[simp] theorem State.turnTaken_params (s : State) : s.turnTaken.params = s.params := by unfold State.turnTaken; split <;> rfl
@[simp] theorem State.turnTaken_status (s : State) : s.turnTaken.status = s.status := by unfold State.turnTaken; split <;> rfl
@[simp] theorem State.turnTaken_rows (s : State) : s.turnTaken.rows = s.rows := by unfold State.turnTaken; split <;> rfl
@[simp] theorem State.turnTaken_cols (s : State) : s.turnTaken.cols = s.cols := by unfold State.turnTaken; split <;> rfl
@[simp] theorem State.turnTaken_nworkers (s : State) : s.turnTaken.nworkers = s.nworkers := by unfold State.turnTaken; split <;> rfl
@[simp] theorem State.turnTaken_lrows (s : State) : s.turnTaken.lrows = s.lrows := by unfold State.turnTaken; split <;> rfl
@[simp] theorem State.turnTaken_lcols (s : State) : s.turnTaken.lcols = s.lcols := by unfold State.turnTaken; split <;> rfl
@[simp] theorem State.turnTaken_ln (s : State) : s.turnTaken.ln = s.ln := by unfold State.turnTaken; split <;> rfl
@[simp] theorem State.turnTaken_phase (s : State) : s.turnTaken.phase = s.phase := by unfold State.turnTaken; split <;> rfl
@[simp] theorem State.turnTaken_curop (s : State) : s.turnTaken.curop = s.curop := by unfold State.turnTaken; split <;> rfl
@[simp] theorem State.turnTaken_lanes (s : State) : s.turnTaken.lanes = s.lanes := by unfold State.turnTaken; split <;> rfl
@[simp] theorem State.turnTaken_bufs (s : State) : s.turnTaken.bufs = s.bufs := by unfold State.turnTaken; split <;> rfl
@[simp] theorem State.turnTaken_hostOps (s : State) : s.turnTaken.hostOps = s.hostOps := by unfold State.turnTaken; split <;> rfl
@[simp] theorem State.turnTaken_hostReads (s : State) : s.turnTaken.hostReads = s.hostReads := by unfold State.turnTaken; split <;> rfl

@[simp] theorem State.turnTaken_cons (s : State) (t : Turn) (ts : List Turn) :
    State.turnTaken { s with sched := t :: ts } = { s with sched := ts } := rfl
@[simp] theorem State.nextTurn_cons (s : State) (t : Turn) (ts : List Turn) :
    State.nextTurn { s with sched := t :: ts } = t := rfl

/-! ## `Status.word` -/

set_option maxRecDepth 10000 in
/-- The fields of the STATUS word at their places (R22). -/
theorem Status.word_fields (t : Status) :
    t.word.getLsbD 0 = t.busy ∧ t.word.getLsbD 1 = t.done ∧ t.word.getLsbD 2 = t.err ∧
    t.word.getLsbD 3 = t.ovr ∧ t.word.extractLsb' 4 4 = t.errcode ∧ t.word.extractLsb' 8 24 = 0#24 := by
  obtain ⟨b, d, e, o, c⟩ := t
  revert b d e o c
  decide

end Sys2Proof.Machine
end

