-- ==== Sys2Proof/Laws/Ops.lean ====
section
/-! SUPPORT. What each shared operation can do, said once: the CMD write, the start of a stage, a
lane's item, the turns of the three agents, and how a run unfolds into turns. -/

namespace Sys2Proof.Machine

/-! ## Bands -/

theorem bandOf_bounds {rows n k : Nat} (h : k < n) :
    (bandOf rows n k).start ≤ (bandOf rows n k).stop ∧ (bandOf rows n k).stop ≤ rows := by
  have hq : n * (rows / n) ≤ rows := Nat.mul_div_le rows n
  have hk : (k + 1) * (rows / n) ≤ n * (rows / n) := Nat.mul_le_mul_right _ h
  have hs : (k + 1) * (rows / n) = k * (rows / n) + rows / n := Nat.succ_mul _ _
  unfold bandOf
  split
  · exact ⟨Nat.le_trans (hs ▸ Nat.le_add_right _ _) (Nat.le_trans hk hq), Nat.le_refl _⟩
  · exact ⟨hs ▸ Nat.le_add_right _ _, Nat.le_trans hk hq⟩

@[simp] theorem bands_length (rows n : Nat) : (bands rows n).length = n := by simp [bands]

theorem bands_mem {rows n : Nat} {b : Band} (h : b ∈ bands rows n) :
    b.start ≤ b.stop ∧ b.stop ≤ rows := by
  simp only [bands, List.mem_map, List.mem_range] at h
  obtain ⟨k, hk, rfl⟩ := h
  exact bandOf_bounds hk

theorem bandedLanes_inside (work : Nat → Band → List Work) (s : State) :
    (bandedLanes work s).any (bandOutside s.lrows) = false := by
  rw [List.any_eq_false]
  intro l hl
  simp only [bandedLanes, List.mem_map] at hl
  obtain ⟨b, hb, rfl⟩ := hl
  have := bands_mem hb
  simp [bandOutside]
  omega

theorem singleLane_inside (work : Nat → Band → List Work) (s : State) :
    (singleLane work s).any (bandOutside s.lrows) = false := by
  rw [List.any_eq_false]
  intro l hl
  simp only [singleLane, List.mem_map, List.mem_range] at hl
  obtain ⟨k, hk, rfl⟩ := hl
  split <;> simp [bandOutside]

/-! ## The CMD write -/

theorem startStage_eq (s : State) (ph : Phase) (lanes : List Lane)
    (h : lanes.any (bandOutside s.lrows) = false) :
    s.startStage ph lanes = .next { s with phase := ph, lanes := lanes } := by
  simp [State.startStage, h]

/-- The state in which a command's first stage starts, before it has lanes. -/
def State.accepted (s : State) (op : Instr) : State :=
  { s.clearResult.latch with status := s.status.cleared.accepted, curop := op }

/-- A CMD write of a legal word has three outcomes (R67), if its plan stays in the image. -/
theorem issue_cases (s : State) (op : Instr) (ph : Phase) (plan : State → List Lane)
    (h : ∀ t, (plan t).any (bandOutside t.lrows) = false) :
    s.issue op ph plan =
      if s.status.busy then .next s.overrun
      else if dimensionsBad s.params s.rows.toNat s.cols.toNat then
        .next (s.clearResult.reject errInvalidDimensions)
      else .next { s.accepted op with phase := ph, lanes := plan (s.accepted op) } := by
  unfold State.issue
  split
  · rfl
  · split
    · rfl
    · rw [State.accept, startStage_eq _ _ _ (h _)]; rfl

/-- The first stage of a command: its phase and the plan of its lanes. -/
def firstPhase : Instr → Phase
  | .run => .stageA
  | _ => .single

/-- The lanes of a command's first stage. -/
def firstPlan : Instr → State → List Lane
  | .gray => bandedLanes grayWork
  | .sepia => bandedLanes sepiaWork
  | .neg => bandedLanes negWork
  | .sobel => bandedLanes sobelWork
  | .thrinv => singleLane thrinvWork
  | .run => bandedLanes stageAWork

/-- What the write of a command's word to CMD does, for all six (R67 to R69). -/
theorem exec_cases (i : Instr) (s : State) :
    exec i s =
      if s.status.busy then .next s.overrun
      else if dimensionsBad s.params s.rows.toNat s.cols.toNat then
        .next (s.clearResult.reject errInvalidDimensions)
      else .next { s.accepted i with phase := firstPhase i, lanes := firstPlan i (s.accepted i) } := by
  cases i
  case thrinv => exact issue_cases s _ _ _ (singleLane_inside _)
  all_goals exact issue_cases s _ _ _ (bandedLanes_inside _)

/-! ## Lanes -/

theorem fetch_ok {s : State} {b : BufId} {off v : Nat} :
    s.fetch b off = .ok v ↔ ∃ x, s.bufs.read b off = some x ∧ v = x.toNat := by
  unfold State.fetch
  split <;> rename_i h
  · simp [h, eq_comm]
  · simp [h]

theorem fetch_error {s : State} {b : BufId} {off : Nat} {f : Fault} :
    s.fetch b off = .error f ↔ s.bufs.read b off = none ∧ f = .uninitRead b off := by
  unfold State.fetch
  split <;> rename_i h
  · simp [h]
  · simp [h, eq_comm]

/-- A lane's turn has three outcomes: nothing, `laneDone`, one item done. -/
theorem laneTurn_cases {k n : Nat} {s u : State} (h : laneTurn k n s = .next u) :
    u = s ∨
    (∃ l, s.lanes[k]? = some l ∧ s.phase ≠ .idle ∧ l.active = true ∧ l.done = false ∧ l.todo = [] ∧
      u = s.setLane k { l with done := true }) ∨
    (∃ l w t m, s.lanes[k]? = some l ∧ s.phase ≠ .idle ∧ l.active = true ∧ l.done = false ∧
      l.todo[m]? = some w ∧ runWork w s = .ok t ∧
      u = t.setLane k { l with todo := l.todo.eraseIdx m }) := by
  unfold laneTurn at h
  split at h
  · simp at h; exact .inl h.symm
  · rename_i l hl
    split at h
    · simp at h; exact .inl h.symm
    · rename_i hc
      simp only [not_or, Bool.not_eq_true, Bool.not_eq_false] at hc
      unfold State.laneWork at h
      split at h
      · rename_i hn
        simp at h
        refine .inr (.inl ⟨l, hl, hc.1, hc.2.1, hc.2.2, ?_, h.symm⟩)
        rcases htodo : l.todo with _ | ⟨w, ws⟩
        · rfl
        · have hlt : n % l.todo.length < l.todo.length := Nat.mod_lt _ (by simp [htodo])
          simp only [List.getElem?_eq_none_iff] at hn
          omega
      · rename_i w hw
        split at h
        · simp at h
        · rename_i t ht
          simp at h
          exact .inr (.inr ⟨l, w, t, _, hl, hc.1, hc.2.1, hc.2.2, hw, ht, h.symm⟩)

/-- A sequencer's turn: nothing, completion, or the start of stage B. -/
theorem sequencerTurn_cases (s : State) :
    sequencerTurn s =
      if s.stageComplete = false ∨ s.phase = .idle then .next s
      else if s.phase = .stageA then
        .next { s with phase := .stageB, lanes := bandedLanes sobelWork s }
      else .next s.complete := by
  unfold sequencerTurn State.startStageB
  rw [startStage_eq _ _ _ (bandedLanes_inside _ _)]
  cases s.stageComplete <;> cases hp : s.phase <;> simp

/-! ## Steps and runs -/

@[simp] theorem step_cons (s : State) (t : Turn) (ts : List Turn) :
    step { s with sched := t :: ts } = takeTurn t { s with sched := ts } := rfl

/-- A result with the schedule of its next state replaced. -/
def withSched (ts : List Turn) : Result → Result
  | .next u => .next { u with sched := ts }
  | .fault f => .fault f
  | .refused r => .refused r

/-- The same for a lane's item. -/
def itemWithSched (ts : List Turn) : Except Fault State → Except Fault State
  | .ok u => .ok { u with sched := ts }
  | .error f => .error f

theorem runWork_sched (w : Work) (s : State) (ts : List Turn) :
    runWork w { s with sched := ts } = itemWithSched ts (runWork w s) := by
  have hf : ∀ b off, State.fetch { s with sched := ts } b off = s.fetch b off := fun _ _ => rfl
  have ht : ∀ i j ps, tapValues { s with sched := ts } i j ps = tapValues s i j ps := by
    intro i j ps
    induction ps with
    | nil => rfl
    | cons p ps ih => simp only [tapValues, ih]; rfl
  cases w <;>
    simp only [runWork, grayPixel, sepiaPixel, negChannel, sobelPixel, thrinvPixel, State.px, hf, ht]
  case sobel i j => cases tapValues s i j windowPositions <;> rfl
  case neg i j ch => cases s.fetch .src (pixelOffset s.lcols .src i j ch) <;> rfl
  case thrinv i j => cases s.fetch .tin (pixelOffset s.lcols .tin i j 0) <;> rfl
  all_goals
    rename_i i j
    cases s.fetch .src (pixelOffset s.lcols .src i j 0) with
    | error f => rfl
    | ok c0 =>
      cases s.fetch .src (pixelOffset s.lcols .src i j 1) with
      | error f => rfl
      | ok c1 => cases s.fetch .src (pixelOffset s.lcols .src i j 2) <;> rfl

theorem laneTurn_sched (k n : Nat) (s : State) (ts : List Turn) :
    laneTurn k n { s with sched := ts } = withSched ts (laneTurn k n s) := by
  unfold laneTurn
  dsimp only
  split
  · rfl
  · split
    · rfl
    · unfold State.laneWork
      split
      · rfl
      · rw [runWork_sched]
        cases runWork _ s <;> rfl

theorem sequencerTurn_sched (s : State) (ts : List Turn) :
    sequencerTurn { s with sched := ts } = withSched ts (sequencerTurn s) := by
  have hc : State.stageComplete { s with sched := ts } = s.stageComplete := rfl
  rw [sequencerTurn_cases, sequencerTurn_cases, hc]
  dsimp only
  by_cases h1 : s.stageComplete = false ∨ s.phase = .idle
  · rw [if_pos h1, if_pos h1]; rfl
  · rw [if_neg h1, if_neg h1]
    by_cases h2 : s.phase = .stageA
    · rw [if_pos h2, if_pos h2]; rfl
    · rw [if_neg h2, if_neg h2]; rfl

theorem exec_sched (i : Instr) (s : State) (ts : List Turn) :
    exec i { s with sched := ts } = withSched ts (exec i s) := by
  rw [exec_cases, exec_cases]
  dsimp only
  by_cases h1 : s.status.busy = true
  · rw [if_pos h1, if_pos h1]; rfl
  · rw [if_neg h1, if_neg h1]
    by_cases h2 : dimensionsBad s.params s.rows.toNat s.cols.toNat = true
    · rw [if_pos h2, if_pos h2]; rfl
    · rw [if_neg h2, if_neg h2]; cases i <;> rfl

theorem writeCmd_sched (w : Word) (s : State) (ts : List Turn) :
    State.writeCmd { s with sched := ts } w = withSched ts (s.writeCmd w) := by
  unfold State.writeCmd State.issueIllegal
  dsimp only
  by_cases h1 : s.status.busy = true
  · rw [if_pos h1, if_pos h1]; rfl
  · rw [if_neg h1, if_neg h1, if_neg h1, if_neg h1]
    cases decode w with
    | ok i => exact exec_sched i s ts
    | error e => rfl

theorem writeReg_sched (off : Nat) (v : Word) (s : State) (ts : List Turn) :
    State.writeReg { s with sched := ts } off v = withSched ts (s.writeReg off v) := by
  unfold State.writeReg
  by_cases h1 : off = offCMD
  · rw [if_pos h1, if_pos h1]; exact writeCmd_sched v s ts
  · rw [if_neg h1, if_neg h1]
    repeat' split
    all_goals rfl

theorem hostRead_sched (p : Place) (n : Nat) (s : State) (ts : List Turn) :
    State.hostRead { s with sched := ts } p n = withSched ts (s.hostRead p n) := by
  have hr : ∀ b off, State.hostRaces { s with sched := ts } false b off = s.hostRaces false b off :=
    fun _ _ => rfl
  have hf : ∀ b off, State.fetch { s with sched := ts } b off = s.fetch b off := fun _ _ => rfl
  unfold State.hostRead
  simp only [hr, hf]
  rcases locate s.params p with _ | off | ⟨b, off⟩ | a
  · rfl
  · dsimp only; cases regAccessOk n off <;> rfl
  · dsimp only
    cases bufAccessOk s.params b n off with
    | false => rfl
    | true =>
      cases s.hostRaces false b off with
      | true => rfl
      | false => cases s.fetch b off <;> rfl
  · rfl

theorem hostWrite_sched (p : Place) (n v : Nat) (s : State) (ts : List Turn) :
    State.hostWrite { s with sched := ts } p n v = withSched ts (s.hostWrite p n v) := by
  have hr : ∀ b off, State.hostRaces { s with sched := ts } true b off = s.hostRaces true b off :=
    fun _ _ => rfl
  unfold State.hostWrite
  simp only [hr, writeReg_sched]
  rcases locate s.params p with _ | off | ⟨b, off⟩ | a
  · rfl
  · dsimp only; cases regAccessOk n off <;> rfl
  · dsimp only
    cases bufAccessOk s.params b n off with
    | false => rfl
    | true => cases s.hostRaces true b off <;> rfl
  · rfl

theorem hostTurn_sched (s : State) (ts : List Turn) :
    hostTurn { s with sched := ts } = withSched ts (hostTurn s) := by
  have hr : State.readReg { s with sched := ts } offSTATUS = s.readReg offSTATUS := rfl
  unfold hostTurn
  simp only [hr]
  split
  · rfl
  · rename_i rest _
    exact hostRead_sched _ _ { s with hostOps := rest } ts
  · rename_i rest _
    exact hostWrite_sched _ _ _ { s with hostOps := rest } ts
  · cases (s.readReg offSTATUS).getLsbD 0 <;> rfl

/-- No agent's turn reads or changes the schedule. -/
theorem takeTurn_sched (t : Turn) (s : State) (ts : List Turn) :
    takeTurn t { s with sched := ts } = withSched ts (takeTurn t s) := by
  cases t with
  | host => exact hostTurn_sched s ts
  | sequencer => exact sequencerTurn_sched s ts
  | lane k n => exact laneTurn_sched k n s ts
  | reset => rfl

@[simp] theorem runTurns_nil (s : State) : runTurns [] s = .next { s with sched := [] } := rfl

theorem coreRun_succ (k : Nat) (s : State) :
    Host.Core.run Sys2Proof.core (k + 1) s =
      match step s with
      | .next u => Host.Core.run Sys2Proof.core k u
      | .fault f => .fault f
      | .refused r => .refused r := by
  simp only [Host.Core.run]
  cases hs : step s with
  | next u =>
    have h : Host.Core.step Sys2Proof.core s = .next u := hs
    rw [h]
  | fault f =>
    have h : Host.Core.step Sys2Proof.core s = .fault f := hs
    rw [h]
  | refused r =>
    have h : Host.Core.step Sys2Proof.core s = .refused r := hs
    rw [h]

/-- A run unfolds into its turns. -/
theorem runTurns_cons (t : Turn) (ts : List Turn) (s : State) :
    runTurns (t :: ts) s =
      match takeTurn t s with
      | .next u => runTurns ts u
      | .fault f => .fault f
      | .refused r => .refused r := by
  unfold runTurns
  rw [List.length_cons, coreRun_succ, step_cons, takeTurn_sched]
  cases takeTurn t s <;> rfl

end Sys2Proof.Machine
end

