-- ==== Sys2Proof/Laws/Items.lean ====
section
/-! SUPPORT. What a work item does, as the list of bytes it stores, and which items a stage consists
of: cited instead of unfolding the loop bodies and the work lists. -/

namespace Sys2Proof.Machine

/-! ## The bytes an item stores -/

/-- The byte at an offset as a number; an item that has run has read no `uninit` byte. -/
def Buffers.byteAt (m : Buffers) (b : BufId) (off : Nat) : Nat := ((m.read b off).map BitVec.toNat).getD 0

theorem byteAt_of_read {m : Buffers} {b : BufId} {off : Nat} {c : Byte} (h : m.read b off = some c) :
    m.byteAt b off = c.toNat := by simp [Buffers.byteAt, h]

theorem fetch_eq (s : State) (b : BufId) (off : Nat) :
    s.fetch b off =
      if s.bufs.read b off = none then .error (.uninitRead b off) else .ok (s.bufs.byteAt b off) := by
  unfold State.fetch Buffers.byteAt
  cases s.bufs.read b off <;> simp

/-- The value of a window position of pixel `(i, j)`, from GRAY or 0 outside the image (R86). -/
def tapByte (m : Buffers) (rows cols i j : Nat) (pos : Nat × Nat) : Nat :=
  if 1 ≤ i + pos.1 ∧ i + pos.1 < rows + 1 ∧ 1 ≤ j + pos.2 ∧ j + pos.2 < cols + 1 then
    m.byteAt .gray ((i + pos.1 - 1) * cols + (j + pos.2 - 1))
  else 0

/-- The (buffer, offset, value) triples an item stores, in order, from the buffers `m`. -/
def itemStores (m : Buffers) (rows cols : Nat) : Work → List (BufId × Nat × Nat)
  | .gray i j =>
    [(.gray, i * cols + j, grayValue (m.byteAt .src ((i * cols + j) * 3))
      (m.byteAt .src ((i * cols + j) * 3 + 1)) (m.byteAt .src ((i * cols + j) * 3 + 2)))]
  | .sepia i j =>
    let c0 := m.byteAt .src ((i * cols + j) * 3)
    let c1 := m.byteAt .src ((i * cols + j) * 3 + 1)
    let c2 := m.byteAt .src ((i * cols + j) * 3 + 2)
    [(.sepia, (i * cols + j) * 3, sepiaValue 0 c0 c1 c2),
      (.sepia, (i * cols + j) * 3 + 1, sepiaValue 1 c0 c1 c2),
      (.sepia, (i * cols + j) * 3 + 2, sepiaValue 2 c0 c1 c2)]
  | .neg i j ch => [(.neg, (i * cols + j) * 3 + ch, negValue (m.byteAt .src ((i * cols + j) * 3 + ch)))]
  | .sobel i j => [(.edge, i * cols + j, sobelValue (windowPositions.map (tapByte m rows cols i j)))]
  | .thrinv i j => [(.tout, i * cols + j, thrValue (m.byteAt .tin (i * cols + j)))]

/-- The buffers after a list of stores. -/
def Buffers.storeAll (m : Buffers) : List (BufId × Nat × Nat) → Buffers
  | [] => m
  | (b, off, v) :: rest => Buffers.storeAll (m.write b off (BitVec.ofNat 8 v)) rest

/-- A window position is read as its value, or faults on the `uninit` byte of GRAY it names. -/
theorem tapValue_cases (s : State) (i j : Nat) (pos : Nat × Nat) :
    tapValue s i j pos = .ok (tapByte s.bufs s.lrows s.lcols i j pos) ∨
    ∃ off, tapValue s i j pos = .error (.uninitRead .gray off) ∧ s.bufs.read .gray off = none ∧
      (1 ≤ i + pos.1 ∧ i + pos.1 < s.lrows + 1 ∧ 1 ≤ j + pos.2 ∧ j + pos.2 < s.lcols + 1) ∧
      off = (i + pos.1 - 1) * s.lcols + (j + pos.2 - 1) := by
  unfold tapValue tapByte
  split
  · rename_i h
    simp only [State.px, fetch_eq, pixelOffset, channels, Nat.mul_one, Nat.add_zero]
    split
    · rename_i hn; exact .inr ⟨_, rfl, hn, h, rfl⟩
    · exact .inl rfl
  · exact .inl rfl

theorem tapValues_ok (s : State) (i j : Nat) (ps : List (Nat × Nat)) (vs : List Nat)
    (h : tapValues s i j ps = .ok vs) : vs = ps.map (tapByte s.bufs s.lrows s.lcols i j) := by
  induction ps generalizing vs with
  | nil => simp [tapValues] at h; subst h; rfl
  | cons p ps ih =>
    simp only [tapValues] at h
    rcases tapValue_cases s i j p with h1 | ⟨off, h1, _⟩
    · rw [h1] at h
      cases h2 : tapValues s i j ps with
      | error f => rw [h2] at h; simp [bind, Except.bind] at h
      | ok ws =>
        rw [h2] at h
        simp [bind, Except.bind, pure, Except.pure] at h
        subst h
        rw [ih _ h2]; rfl
    · rw [h1] at h; simp [bind, Except.bind] at h

/-- An item that runs stores its bytes and does nothing else. -/
theorem runWork_ok (w : Work) (s t : State) (h : runWork w s = .ok t) :
    t = { s with bufs := s.bufs.storeAll (itemStores s.bufs s.lrows s.lcols w) } := by
  cases w with
  | sobel i j =>
    simp only [runWork, sobelPixel] at h
    cases h1 : tapValues s i j windowPositions with
    | error f => rw [h1] at h; simp [bind, Except.bind] at h
    | ok vs =>
      rw [h1] at h; simp [bind, Except.bind, pure, Except.pure] at h
      rw [tapValues_ok _ _ _ _ _ h1] at h; subst h
      simp [itemStores, Buffers.storeAll, State.putPx, pixelOffset, channels]
  | neg i j ch =>
    simp only [runWork, negChannel, State.px, fetch_eq] at h
    split at h
    · simp [bind, Except.bind] at h
    · simp [bind, Except.bind, pure, Except.pure] at h; subst h
      simp [itemStores, Buffers.storeAll, State.putPx, pixelOffset, channels]
  | thrinv i j =>
    simp only [runWork, thrinvPixel, State.px, fetch_eq] at h
    split at h
    · simp [bind, Except.bind] at h
    · simp [bind, Except.bind, pure, Except.pure] at h; subst h
      simp [itemStores, Buffers.storeAll, State.putPx, pixelOffset, channels]
  | gray i j =>
    simp only [runWork, grayPixel, State.px, fetch_eq] at h
    split at h
    · simp [bind, Except.bind] at h
    · split at h
      · simp [bind, Except.bind] at h
      · split at h
        · simp [bind, Except.bind] at h
        · simp [bind, Except.bind, pure, Except.pure] at h; subst h
          simp [itemStores, Buffers.storeAll, State.putPx, pixelOffset, channels]
  | sepia i j =>
    simp only [runWork, sepiaPixel, State.px, fetch_eq] at h
    split at h
    · simp [bind, Except.bind] at h
    · split at h
      · simp [bind, Except.bind] at h
      · split at h
        · simp [bind, Except.bind] at h
        · simp [bind, Except.bind, pure, Except.pure] at h; subst h
          simp [itemStores, Buffers.storeAll, State.putPx, pixelOffset, channels]

theorem read_storeAll_other (m : Buffers) (l : List (BufId × Nat × Nat)) (b : BufId) (off : Nat)
    (h : ∀ v, (b, off, v) ∉ l) : (m.storeAll l).read b off = m.read b off := by
  induction l generalizing m with
  | nil => rfl
  | cons x r ih =>
    obtain ⟨b', o', v'⟩ := x
    simp only [Buffers.storeAll]
    rw [ih _ (fun v hv => h v (List.mem_cons_of_mem _ hv)), Buffers.read_write, if_neg]
    rintro ⟨rfl, rfl⟩
    exact h v' (by simp)

theorem read_storeAll_item {m : Buffers} {rows cols : Nat} {w : Work} {b : BufId} {off v : Nat}
    (h : (b, off, v) ∈ itemStores m rows cols w) (m' : Buffers) :
    (m'.storeAll (itemStores m rows cols w)).read b off = some (BitVec.ofNat 8 v) := by
  cases w with
  | sepia i j =>
    simp only [itemStores, List.mem_cons, Prod.mk.injEq, List.not_mem_nil, or_false] at h
    simp only [itemStores, Buffers.storeAll, Buffers.read_write]
    rcases h with ⟨rfl, rfl, rfl⟩ | ⟨rfl, rfl, rfl⟩ | ⟨rfl, rfl, rfl⟩ <;> simp
  | _ =>
    simp only [itemStores, List.mem_cons, Prod.mk.injEq, List.not_mem_nil, or_false] at h
    obtain ⟨rfl, rfl, rfl⟩ := h
    simp [itemStores, Buffers.storeAll]

theorem itemWrites_iff (s : State) (m : Buffers) (w : Work) (b : BufId) (off : Nat) :
    itemWrites s w b off ↔ ∃ v, (b, off, v) ∈ itemStores m s.lrows s.lcols w := by
  cases w with
  | sepia i j =>
    simp only [itemWrites, itemStores, List.mem_cons, Prod.mk.injEq, List.not_mem_nil, or_false]
    constructor
    · rintro ⟨rfl, ch, hch, rfl⟩
      have : ch = 0 ∨ ch = 1 ∨ ch = 2 := by omega
      rcases this with rfl | rfl | rfl
      · exact ⟨_, .inl ⟨rfl, rfl, rfl⟩⟩
      · exact ⟨_, .inr (.inl ⟨rfl, rfl, rfl⟩)⟩
      · exact ⟨_, .inr (.inr ⟨rfl, rfl, rfl⟩)⟩
    · rintro ⟨v, ⟨rfl, rfl, _⟩ | ⟨rfl, rfl, _⟩ | ⟨rfl, rfl, _⟩⟩
      · exact ⟨rfl, 0, by omega, rfl⟩
      · exact ⟨rfl, 1, by omega, rfl⟩
      · exact ⟨rfl, 2, by omega, rfl⟩
  | _ => simp [itemWrites, itemStores]

/-! ## Which items the work lists hold -/

theorem mem_bandPixels (cols : Nat) (b : Band) (p : Nat × Nat) :
    p ∈ bandPixels cols b ↔ (b.start ≤ p.1 ∧ p.1 < b.stop) ∧ p.2 < cols := by
  obtain ⟨i, j⟩ := p
  have hr : ∀ i, i ∈ bandRows b ↔ b.start ≤ i ∧ i < b.stop := by
    intro i; simp only [bandRows, List.mem_range'_1]; omega
  simp only [bandPixels, List.mem_flatMap, List.mem_map, List.mem_range, Prod.mk.injEq, hr]
  constructor
  · rintro ⟨i', h, j', hj, rfl, rfl⟩; exact ⟨h, hj⟩
  · rintro ⟨h, hj⟩; exact ⟨i, h, j, hj, rfl, rfl⟩

theorem mem_grayWork (cols : Nat) (b : Band) (w : Work) :
    w ∈ grayWork cols b ↔ ∃ i j, w = .gray i j ∧ (b.start ≤ i ∧ i < b.stop) ∧ j < cols := by
  simp only [grayWork, List.mem_map, mem_bandPixels, Prod.exists]
  constructor
  · rintro ⟨i, j, h, rfl⟩; exact ⟨i, j, rfl, h⟩
  · rintro ⟨i, j, rfl, h⟩; exact ⟨i, j, h, rfl⟩

theorem mem_sepiaWork (cols : Nat) (b : Band) (w : Work) :
    w ∈ sepiaWork cols b ↔ ∃ i j, w = .sepia i j ∧ (b.start ≤ i ∧ i < b.stop) ∧ j < cols := by
  simp only [sepiaWork, List.mem_map, mem_bandPixels, Prod.exists]
  constructor
  · rintro ⟨i, j, h, rfl⟩; exact ⟨i, j, rfl, h⟩
  · rintro ⟨i, j, rfl, h⟩; exact ⟨i, j, h, rfl⟩

theorem mem_sobelWork (cols : Nat) (b : Band) (w : Work) :
    w ∈ sobelWork cols b ↔ ∃ i j, w = .sobel i j ∧ (b.start ≤ i ∧ i < b.stop) ∧ j < cols := by
  simp only [sobelWork, List.mem_map, mem_bandPixels, Prod.exists]
  constructor
  · rintro ⟨i, j, h, rfl⟩; exact ⟨i, j, rfl, h⟩
  · rintro ⟨i, j, rfl, h⟩; exact ⟨i, j, h, rfl⟩

theorem mem_thrinvWork (cols : Nat) (b : Band) (w : Work) :
    w ∈ thrinvWork cols b ↔ ∃ i j, w = .thrinv i j ∧ (b.start ≤ i ∧ i < b.stop) ∧ j < cols := by
  simp only [thrinvWork, List.mem_map, mem_bandPixels, Prod.exists]
  constructor
  · rintro ⟨i, j, h, rfl⟩; exact ⟨i, j, rfl, h⟩
  · rintro ⟨i, j, rfl, h⟩; exact ⟨i, j, h, rfl⟩

theorem mem_negWork (cols : Nat) (b : Band) (w : Work) :
    w ∈ negWork cols b ↔
      ∃ i j ch, w = .neg i j ch ∧ (b.start ≤ i ∧ i < b.stop) ∧ j < cols ∧ ch < 3 := by
  simp only [negWork, List.mem_flatMap, mem_bandPixels, Prod.exists, List.mem_cons, List.not_mem_nil,
    or_false]
  constructor
  · rintro ⟨i, j, h, rfl | rfl | rfl⟩
    · exact ⟨i, j, 0, rfl, h.1, h.2, by omega⟩
    · exact ⟨i, j, 1, rfl, h.1, h.2, by omega⟩
    · exact ⟨i, j, 2, rfl, h.1, h.2, by omega⟩
  · rintro ⟨i, j, ch, rfl, h, hj, hc⟩
    have : ch = 0 ∨ ch = 1 ∨ ch = 2 := by omega
    rcases this with rfl | rfl | rfl <;> exact ⟨i, j, ⟨h, hj⟩, by simp⟩

/-! ## The host's checks -/

theorem paramsOk_iff (p : Params) : paramsOk p = true ↔
    (1 ≤ p.nmax ∧ p.nmax ≤ 65535) ∧ (1 ≤ p.maxRows ∧ p.maxRows ≤ 65535) ∧
    (1 ≤ p.maxCols ∧ p.maxCols ≤ 65535) ∧ 3 * p.maxRows * p.maxCols ≤ p.bufStride ∧
    ∀ b, p.regBase + 0x100 ≤ bufStart p b ∨ bufStart p b + capacity p b ≤ p.regBase := by
  have h : bufIds.all (regApart p) = true ↔
      ∀ b, p.regBase + 0x100 ≤ bufStart p b ∨ bufStart p b + capacity p b ≤ p.regBase := by
    rw [List.all_eq_true]
    constructor
    · intro h b
      have := h b (by cases b <;> decide)
      simpa [regApart] using this
    · intro h b _
      simpa [regApart] using h b
  simp only [paramsOk, Bool.and_eq_true, decide_eq_true_eq, h]
  tauto

theorem regAccessOk_iff (bits off : Nat) :
    regAccessOk bits off = true ↔ bits = 32 ∧ off % 4 = 0 ∧ off < 0x100 := by
  unfold regAccessOk regWindowBytes; simp; tauto

theorem bufAccessOk_iff (p : Params) (b : BufId) (bits off : Nat) :
    bufAccessOk p b bits off = true ↔ bits = 8 ∧ off < p.maxRows * p.maxCols * channels b := by
  unfold bufAccessOk capacity; simp

theorem hostRaces_iff (s : State) (w : Bool) (b : BufId) (off : Nat) :
    s.hostRaces w b off = true ↔ s.status.busy = true ∧
      ((w = true ∧ b ∈ cmdReads s.curop) ∨
        (b ∈ cmdWrites s.curop ∧ off < s.lrows * s.lcols * channels b)) := by
  show (_ && (_ || (_ && decide (off < s.lrows * s.lcols * channels b)))) = true ↔ _
  simp

theorem dimensionsBad_iff (p : Params) (rows cols : Nat) :
    dimensionsBad p rows cols = true ↔ rows = 0 ∨ cols = 0 ∨ p.maxRows < rows ∨ p.maxCols < cols := by
  unfold dimensionsBad; simp; tauto

end Sys2Proof.Machine
end

