-- ==== Sys2Proof/Laws/PerInstr.lean ====
section
/-! SUPPORT. A statement about every instruction as syntax, one lemma per constructor: its word is a
CMD32 word with RSVD zero and an assigned OP, and only its word has that OP (R59, R61). -/

namespace Sys2Proof.Laws.WordForm

/-- The word of instruction `i` is well formed, its RSVD field is zero, and the opcode map sends its
OP field back to `i`. -/
def Statement (i : Instr) : Prop :=
  CmdWord.wellFormed (encode i) = true ∧ CmdWord.rsvd (encode i) = 0 ∧
    CmdWord.op (encode i) = opcode i ∧ decodeOp (CmdWord.op (encode i)) = some i

theorem gray : Statement .gray := by unfold Statement; decide
theorem sepia : Statement .sepia := by unfold Statement; decide
theorem neg : Statement .neg := by unfold Statement; decide
theorem sobel : Statement .sobel := by unfold Statement; decide
theorem thrinv : Statement .thrinv := by unfold Statement; decide
theorem run : Statement .run := by unfold Statement; decide

end Sys2Proof.Laws.WordForm
end

