-- ==== Sys2Proof/Tests/Slice0.lean ====
section
/-! SUPPORT. Small tests, each about one step, with expected values from the spec's examples and test
vectors (95_test_vectors.md), and for every obligation with hypotheses a witness that meets them. -/

namespace Sys2Proof.Tests.Slice0

open Sys2Proof Sys2Proof.Machine

/-! ## Words (30_encoding.md R61, R62) -/

theorem test_word_gray : decodeTableWord 32 0b00000000000000000000000000000001 = some .gray := by decide
theorem test_word_sepia : decodeTableWord 32 0b00000000000000000000000000000010 = some .sepia := by decide
theorem test_word_neg : decodeTableWord 32 0b00000000000000000000000000000011 = some .neg := by decide
theorem test_word_sobel : decodeTableWord 32 0b00000000000000000000000000000100 = some .sobel := by decide
theorem test_word_thrinv : decodeTableWord 32 0b00000000000000000000000000000101 = some .thrinv := by decide
theorem test_word_run : decodeTableWord 32 0b00000000000000000000000000000110 = some .run := by decide
theorem test_word_illegal : decode 0x00000000#32 = .error .illegalCommand ∧
    decode 0x00000007#32 = .error .illegalCommand ∧ decode 0x0000000F#32 = .error .illegalCommand ∧
    decode 0x00000011#32 = .error .illegalCommand ∧ decode 0x80000001#32 = .error .illegalCommand := by decide

/-! ## WellFormed: an ill-formed word for each check, refused by it and by the decoder -/

theorem test_wellformed_accepts : CmdWord.wellFormed 0x00000006#32 = true := by decide
theorem test_rsvd_refused : CmdWord.rsvdZero 0x00000016#32 = false ∧
    CmdWord.wellFormed 0x00000016#32 = false ∧ decodeTableWord 32 0x00000016 = none := by decide
theorem test_op_zero_refused : CmdWord.opAssigned 0x00000000#32 = false ∧
    CmdWord.wellFormed 0x00000000#32 = false ∧ decodeTableWord 32 0x00000000 = none := by decide
theorem test_op_seven_refused : CmdWord.opAssigned 0x00000007#32 = false ∧
    CmdWord.wellFormed 0x00000007#32 = false ∧ decodeTableWord 32 0x00000007 = none := by decide

/-! ## Small states -/

/-- A build with two lanes and images up to 4 by 4. -/
def p0 : Params := { nmax := 2, maxRows := 4, maxCols := 4, regBase := 0, bufBase := 256, bufStride := 64 }

/-- After reset, with the dimensions, the worker count and the buffers written. -/
def idle (rows cols workers : Half) (m : Buffers) : State :=
  { State.resetWith p0 with rows := rows, cols := cols, nworkers := workers, bufs := m }

/-- One SRC pixel [90, 60, 30], one GRAY byte, one TIN byte. -/
def onePixel : Buffers :=
  { Buffers.uninit with src := [(0, 90), (1, 60), (2, 30)], gray := [(0, 60)], tin := [(0, 128)] }

/-- A 1 by 1 image and one worker. -/
def one : State := idle 1 1 1 onePixel

/-- Command `op` running on a 1 by 1 image, with these lanes. -/
def busy (op : Instr) (ph : Phase) (ln : Nat) (lanes : List Lane) : State :=
  { one with
    status := { busy := true, done := false, err := false, ovr := false, errcode := 0 }
    lrows := 1, lcols := 1, ln := ln, phase := ph, curop := op, lanes := lanes }

/-- A used lane with this band and this work. -/
def lane (start stop : Nat) (todo : List Work) (done : Bool) : Lane :=
  { band := { start := start, stop := stop }, todo := todo, active := true, done := done }

/-- GRAY on one lane, its pixel still to do. -/
def busyGray : State := busy .gray .single 1 [lane 0 1 [.gray 0 0] false]
/-- GRAY on one lane that is done. -/
def doneGray : State := busy .gray .single 1 [lane 0 1 [] true]
/-- GRAY on two lanes, the first with an empty band (R73 item 3). -/
def twoLanes : State := busy .gray .single 2 [lane 0 0 [] false, lane 0 1 [.gray 0 0] false]
/-- RUN in stage A, every lane done. -/
def doneStageA : State := busy .run .stageA 1 [lane 0 1 [] true]
/-- RUN in stage A, the GRAY item still to do and GRAY not yet written. -/
def busyStageA : State :=
  { busy .run .stageA 1 [lane 0 1 [.gray 0 0] false] with bufs := { onePixel with gray := [] } }
/-- RUN in stage B, the pixel still to do. -/
def busyStageB : State := busy .run .stageB 1 [lane 0 1 [.sobel 0 0] false]

/-- The state of a next outcome. -/
def nextOf : Result → State
  | .next s => s
  | .fault _ => State.resetWith p0
  | .refused _ => State.resetWith p0

/-! ## One step (expected values: the examples of R80, R83, R85, R91, R93, R94) -/

/-- R80's example `[90,60,30]` gives 60; the lane's item is gone, `laneDone` is not yet set. -/
theorem test_gray_item : (nextOf (takeTurn (.lane 0 0) busyGray)).bufs.read .gray 0 = some 60 ∧
    (nextOf (takeTurn (.lane 0 0) busyGray)).lanes = [lane 0 1 [] false] := by decide

theorem test_gray_truncates : grayValue 2 2 1 = 1 ∧ grayValue 255 255 254 = 254 ∧ grayValue 0 1 1 = 0 := by
  decide

/-- R83's example gives [51, 66, 74], stored at increasing offsets. -/
theorem test_sepia_item :
    (nextOf (takeTurn (.lane 0 0) (busy .sepia .single 1 [lane 0 1 [.sepia 0 0] false]))).bufs.sepia =
      [(0, 51), (1, 66), (2, 74)] := by decide

/-- Vectors 2.4: white, pure C2, and the row where double arithmetic differs. -/
theorem test_sepia_values : (List.range 3).map (fun o => sepiaValue o 255 255 255) = [238, 255, 255] ∧
    (List.range 3).map (fun o => sepiaValue o 0 0 255) = [69, 88, 100] ∧
    (List.range 3).map (fun o => sepiaValue o 36 146 60) = [99, 127, 142] := by decide

/-- R85: one channel of [90, 60, 30] at a time; 255 - 30 = 225. -/
theorem test_neg_item :
    (nextOf (takeTurn (.lane 0 0) (busy .neg .single 1 [lane 0 1 [.neg 0 0 2] false]))).bufs.neg =
      [(2, 225)] := by decide

theorem test_neg_values : negValue 127 = 128 ∧ negValue 0 = 255 ∧ negValue 255 = 0 := by decide

/-- R91's 2 by 2 example [[10,20],[30,40]]: pixel (1, 0) gives 148. -/
theorem test_sobel_item :
    (nextOf (takeTurn (.lane 0 0)
      { busy .sobel .single 1 [lane 0 2 [.sobel 1 0] false] with
        lrows := 2, lcols := 2
        bufs := { Buffers.uninit with gray := [(0, 10), (1, 20), (2, 30), (3, 40)] } })).bufs.edge =
      [(2, 148)] := by decide

/-- Vectors 2.6: constant images of value 10 (corner, edge, centre) and 4 (corner, floor of the root);
saturation. -/
theorem test_sobel_values : sobelValue [0, 0, 0, 0, 10, 10, 0, 10, 10] = 213 ∧
    sobelValue [0, 0, 0, 10, 10, 10, 10, 10, 10] = 215 ∧
    sobelValue [10, 10, 10, 10, 10, 10, 10, 10, 10] = 255 ∧ sobelValue [0, 0, 0, 0, 4, 4, 0, 4, 4] = 239 ∧
    edgeValue (-1020) 0 = 0 := by decide

/-- R93: 128 gives 127. -/
theorem test_thrinv_item :
    (nextOf (takeTurn (.lane 0 0) (busy .thrinv .single 1 [lane 0 1 [.thrinv 0 0] false]))).bufs.tout =
      [(0, 127)] := by decide

theorem test_thrinv_values : thrValue 127 = 127 ∧ thrValue 128 = 127 ∧ thrValue 255 = 0 ∧ thrValue 1 = 1 := by
  decide

/-- R94: RUN starts in STAGE_A with the three operations of the pixel to do, BUSY alone set. -/
theorem test_run_accepted :
    (nextOf (exec .run one)).phase = .stageA ∧ (nextOf (exec .run one)).status.word = 0x1#32 ∧
    (nextOf (exec .run one)).lanes =
      [lane 0 1 [.gray 0 0, .sepia 0 0, .neg 0 0 0, .neg 0 0 1, .neg 0 0 2] false] := by decide

/-- R95: the barrier is passed only once stage A's lanes are done. -/
theorem test_run_barrier : takeTurn .sequencer busyStageA = .next busyStageA ∧
    (nextOf (takeTurn .sequencer doneStageA)).phase = .stageB ∧
    (nextOf (takeTurn .sequencer doneStageA)).lanes = [lane 0 1 [.sobel 0 0] false] := ⟨rfl, by decide, by decide⟩

/-- R35: a command written straight after reset is rejected as InvalidDimensions, STATUS 0x16. -/
theorem test_reset_rejects : (nextOf (exec .gray (State.resetWith p0))).status.word = 0x16#32 := by decide

/-- R46: a lane that reads an unwritten byte faults, naming it. -/
theorem test_uninit_faults :
    takeTurn (.lane 0 0) { busyGray with bufs := { onePixel with src := [(0, 90), (2, 30)] } } =
      .fault (.uninitRead .src 1) := rfl

/-- Vectors 2.1: bands(10, 4), bands(7, 3), and bands(3, 4) with its empty bands. -/
theorem test_bands : bands 10 4 = [⟨0, 2⟩, ⟨2, 4⟩, ⟨4, 6⟩, ⟨6, 10⟩] ∧
    bands 7 3 = [⟨0, 2⟩, ⟨2, 4⟩, ⟨4, 7⟩] ∧ bands 3 4 = [⟨0, 0⟩, ⟨0, 0⟩, ⟨0, 0⟩, ⟨0, 3⟩] := by decide

/-- Vectors 2.2: code 4 wins over code 1; an overrun shows 0x9; clearing OVR; ROWS keeps 16 bits. -/
theorem test_status_vectors :
    (nextOf ((idle 0 0 1 onePixel).writeReg 0x00 0x9)).status.word = 0x46#32 ∧
    (nextOf (busyGray.writeReg 0x00 0x2)).status.word = 0x9#32 ∧
    (nextOf (State.writeReg { one with status := { one.status with done := true, ovr := true } } 0x04 0x8)).status.word =
      0x2#32 ∧
    ((nextOf (one.writeReg 0x08 0x12345)).readReg 0x08) = 0x2345#32 := by decide

/-- R75: THRINV uses lane 0 alone, for the whole image. -/
theorem test_thrinv_lanes :
    (nextOf (exec .thrinv (idle 2 1 2 onePixel))).lanes =
      [lane 0 2 [.thrinv 0 0, .thrinv 1 0] false,
        { band := { start := 0, stop := 0 }, todo := [], active := false, done := false }] := by decide

/-- R65: the expansions of `dims`, `cmd` and `clrovr`; R64's `wb`. -/
theorem test_host_lines : (HostLine.dims 4 5).expand = [.write (.reg 8) 32 4, .write (.reg 12) 32 5] ∧
    (HostLine.cmd .run).expand = [.write (.reg 0) 32 6] ∧
    HostLine.clrovr.expand = [.write (.reg 4) 32 8] ∧
    (HostLine.wb .src 3 [7, 8]).expand = [.write (.buf .src 3) 8 7, .write (.buf .src 4) 8 8] := by decide

/-- R59, R67: the word placed for the next step runs, straight after reset. -/
theorem test_fetch_word : (nextOf (step ((State.resetWith p0).withFetchWord 32 5))).status.word = 0x16#32 := by
  decide

/-! ## Witnesses: concrete states and operands that meet the hypotheses of the obligations -/

theorem witness_params : paramsOk p0 = true := by decide

/-- The invariant's parts of a running state that are the same for every witness below. -/
theorem busy_inv (op : Instr) (ph : Phase) (ln : Nat) (lanes : List Lane) (m : Buffers)
    (hm : ∀ b, (m.get b).wf = true) (hc : ∀ b, (m.get b).below (capacity p0 b) = true)
    (hph : ph ≠ .idle) (hln : 1 ≤ ln ∧ ln ≤ 2) (hst : op = .run ↔ ph = .stageA ∨ ph = .stageB)
    (hplan : lanes.map (fun l => (l.band, l.active)) = lanePlan op 1 ln)
    (hl : ∀ l ∈ lanes, LaneInv { busy op ph ln lanes with bufs := m } l) :
    Inv { busy op ph ln lanes with bufs := m } where
  params := witness_params
  canonical := hm
  inCapacity := hc
  idle := ⟨fun h => absurd h hph, fun h => Bool.noConfusion h⟩
  busyNotDone := by simp [busy]
  errDone := fun h => Bool.noConfusion h
  errCode := fun h => Bool.noConfusion h
  noErrCode := fun _ => rfl
  running := fun _ =>
    { rows := ⟨Nat.le_refl 1, by simp [busy, one, idle, State.resetWith, p0]⟩
      cols := ⟨Nat.le_refl 1, by simp [busy, one, idle, State.resetWith, p0]⟩
      workers := hln, stages := hst, plan := hplan, lanes := hl }

theorem busyGray_inv : Inv busyGray :=
  busy_inv .gray .single 1 _ onePixel (by intro b; cases b <;> decide) (by intro b; cases b <;> decide)
    (by decide) (by decide) (by decide) (by decide) (by
      simp only [List.mem_singleton, forall_eq]
      exact ⟨by simp [lane, workFits, busy], by decide, by decide⟩)

theorem doneGray_inv : Inv doneGray :=
  busy_inv .gray .single 1 _ onePixel (by intro b; cases b <;> decide) (by intro b; cases b <;> decide)
    (by decide) (by decide) (by decide) (by decide) (by
      simp only [List.mem_singleton, forall_eq]
      exact ⟨by simp [lane], by decide, by decide⟩)

theorem twoLanes_inv : Inv twoLanes :=
  busy_inv .gray .single 2 _ onePixel (by intro b; cases b <;> decide) (by intro b; cases b <;> decide)
    (by decide) (by decide) (by decide) (by decide) (by
      simp only [List.mem_cons, List.not_mem_nil, or_false, forall_eq_or_imp, forall_eq]
      exact ⟨⟨by simp [lane], by decide, by decide⟩, ⟨by simp [lane, workFits, busy], by decide, by decide⟩⟩)

theorem doneStageA_inv : Inv doneStageA :=
  busy_inv .run .stageA 1 _ onePixel (by intro b; cases b <;> decide) (by intro b; cases b <;> decide)
    (by decide) (by decide) (by decide) (by decide) (by
      simp only [List.mem_singleton, forall_eq]
      exact ⟨by simp [lane], by decide, by decide⟩)

theorem busyStageA_inv : Inv busyStageA :=
  busy_inv .run .stageA 1 _ { onePixel with gray := [] } (by intro b; cases b <;> decide)
    (by intro b; cases b <;> decide) (by decide) (by decide) (by decide) (by decide) (by
      simp only [List.mem_singleton, forall_eq]
      exact ⟨by simp [lane, workFits, busy], by decide, by decide⟩)

theorem busyStageB_inv : Inv busyStageB :=
  busy_inv .run .stageB 1 _ onePixel (by intro b; cases b <;> decide) (by intro b; cases b <;> decide)
    (by decide) (by decide) (by decide) (by decide) (by
      simp only [List.mem_singleton, forall_eq]
      exact ⟨by simp [lane, workFits, busy], by decide, by decide⟩)

/-- The invariant holds of an idle state with any dimensions and canonical buffers. -/
theorem idle_inv (rows cols workers : Half) (m : Buffers) (hm : ∀ b, (m.get b).wf = true)
    (hc : ∀ b, (m.get b).below (capacity p0 b) = true) : Inv (idle rows cols workers m) where
  params := witness_params
  canonical := hm
  inCapacity := hc
  idle := ⟨fun _ => rfl, fun _ => rfl⟩
  busyNotDone := by simp [Machine.State.resetWith, Slice0.idle, Status.reset]
  errDone := fun h => Bool.noConfusion h
  errCode := fun h => Bool.noConfusion h
  noErrCode := fun _ => rfl
  running := fun h => Bool.noConfusion h

theorem one_inv : Inv one :=
  idle_inv 1 1 1 onePixel (by intro b; cases b <;> decide) (by intro b; cases b <;> decide)

theorem busyStageA_grayReady : GrayReadyInv busyStageA where
  stageA := by
    intro _ i j hi hj
    obtain rfl : i = 0 := by simpa [busyStageA, busy] using hi
    obtain rfl : j = 0 := by simpa [busyStageA, busy] using hj
    exact .inr ⟨_, .head _, rfl, .head _⟩
  stageB := fun h => absurd h (by decide)

theorem busyStageB_grayReady : GrayReadyInv busyStageB where
  stageA := fun h => absurd h (by decide)
  stageB := by
    intro _ off ho
    obtain rfl : off = 0 := by simpa [busyStageB, busy, imageBytes, channels] using ho
    decide

/-- DecodeAgreesWithEncode, StepRunsTheDecodedCommand: a well-formed command, its word, and words
on both sides of each bound of R61. -/
theorem witness_decode : Instr.wellFormed .run = true ∧ decode 0x6#32 = .ok .run ∧
    decode 0x1#32 = .ok .gray ∧ decode 0x0#32 = .error .illegalCommand ∧
    decode 0x7#32 = .error .illegalCommand ∧ decode 0x11#32 = .error .illegalCommand := by decide

/-- IllegalWordIsRejected, RejectionChangesStatusAlone, CmdWriteReportsOneOutcome: an idle state, a
rejected word for each ground, a running state, and the step taken. -/
theorem witness_cmd_writes : one.status.busy = false ∧ busyGray.status.busy = true ∧
    ((0x10#32).extractLsb' 4 28 ≠ 0#28 ∧ ((0x0#32).extractLsb' 0 4).toNat = 0 ∧
      7 ≤ ((0x7#32).extractLsb' 0 4).toNat) ∧
    (nextOf (step { one with
      sched := [.host], hostOps := [.write (.reg 0x00) 32 (0x10#32 : Word).toNat] })).status.err = true ∧
    (∃ t, step { one with
      sched := [.host], hostOps := [.write (.reg 0x00) 32 (0x10#32 : Word).toNat] } = .next t) :=
  ⟨rfl, rfl, by decide, by decide, _, rfl⟩

/-- CommandWhileBusyIsDropped, and BadDimensionsAreRejected at each of its four bounds. -/
theorem witness_dimensions : busyStageB.status.busy = true ∧ (idle 0 1 1 onePixel).rows.toNat = 0 ∧
    (idle 1 0 1 onePixel).cols.toNat = 0 ∧
    p0.maxRows < (idle 5 1 1 onePixel).rows.toNat ∧ p0.maxCols < (idle 1 5 1 onePixel).cols.toNat ∧
    (idle 5 5 1 onePixel).status.busy = false := by decide

/-- The six completions, LatchedConfigurationIsFrozen: an acceptable state of a legal build, at the
least and at the largest dimensions. -/
theorem witness_acceptable : Acceptable one ∧ Acceptable (idle 4 4 2 onePixel) ∧ paramsOk one.params = true := by
  unfold Acceptable; decide

/-- Every input image of the 1 by 1 state is written. -/
theorem witness_written : Written one.bufs .src (3 * one.rows.toNat * one.cols.toNat) ∧
    Written one.bufs .gray (one.rows.toNat * one.cols.toNat) ∧
    Written one.bufs .tin (one.rows.toNat * one.cols.toNat) := by
  unfold Written; decide

/-- Three turns complete a one-stage command on one pixel. -/
def threeTurns : List Turn := [.lane 0 0, .lane 0 0, .sequencer]

/-- Five turns complete NEG on one pixel. -/
def fiveTurns : List Turn := [.lane 0 0, .lane 0 0, .lane 0 0, .lane 0 0, .sequencer]

/-- Ten turns complete RUN on one pixel: five items, `laneDone`, the barrier, one item, `laneDone`,
completion. -/
def tenTurns : List Turn :=
  [.lane 0 0, .lane 0 0, .lane 0 0, .lane 0 0, .lane 0 0, .lane 0 0, .sequencer, .lane 0 0, .lane 0 0, .sequencer]

/-- Command `i` from `s`, completed by the turns `ts`. -/
def completed (i : Instr) (ts : List Turn) (s : State) : State := nextOf (runTurns ts (nextOf (exec i s)))

/-- The witness of a completion from its run. -/
theorem completes_of (i : Instr) (ts : List Turn) (s : State) (hs : s.status.busy = false)
    (he : exec i s = .next (nextOf (exec i s))) (hb : (nextOf (exec i s)).status.busy = true)
    (ht : ts.all Turn.ofBlock = true)
    (hr : runTurns ts (nextOf (exec i s)) = .next (completed i ts s))
    (hd : (completed i ts s).status.busy = false) : Completes i s (completed i ts s) :=
  ⟨hs, _, he, hb, ⟨ts, by simpa using ht, hr⟩, hd⟩

theorem witness_gray : Completes .gray one (completed .gray threeTurns one) :=
  completes_of _ _ _ rfl rfl (by decide) (by decide) rfl (by decide)
theorem witness_sepia : Completes .sepia one (completed .sepia threeTurns one) :=
  completes_of _ _ _ rfl rfl (by decide) (by decide) rfl (by decide)
theorem witness_neg : Completes .neg one (completed .neg fiveTurns one) :=
  completes_of _ _ _ rfl rfl (by decide) (by decide) rfl (by decide)
theorem witness_sobel : Completes .sobel one (completed .sobel threeTurns one) :=
  completes_of _ _ _ rfl rfl (by decide) (by decide) rfl (by decide)
theorem witness_thrinv : Completes .thrinv one (completed .thrinv threeTurns one) :=
  completes_of _ _ _ rfl rfl (by decide) (by decide) rfl (by decide)
theorem witness_run : Completes .run one (completed .run tenTurns one) :=
  completes_of _ _ _ rfl rfl (by decide) (by decide) rfl (by decide)

/-- RunEqualsTheFourCommands: the four commands one after another, from the state of `witness_run`,
in the order NEG, GRAY, SEPIA, SOBEL. -/
theorem witness_four_commands : Inv one ∧ [Instr.neg, .gray, .sepia].Perm [.gray, .sepia, .neg] ∧
    CompletesAll ([.neg, .gray, .sepia] ++ [.sobel]) one
      (completed .sobel threeTurns (completed .sepia threeTurns
        (completed .gray threeTurns (completed .neg fiveTurns one)))) :=
  ⟨one_inv, by decide,
    _, completes_of .neg fiveTurns _ rfl rfl (by decide) (by decide) rfl (by decide),
    _, completes_of .gray threeTurns _ rfl rfl (by decide) (by decide) rfl (by decide),
    _, completes_of .sepia threeTurns _ rfl rfl (by decide) (by decide) rfl (by decide),
    _, completes_of .sobel threeTurns _ rfl rfl (by decide) (by decide) rfl (by decide), rfl⟩

/-- ResultIndependentOfLanesAndOrder: the same image on one worker and on two. -/
theorem witness_two_worker_counts : Inv one ∧ Inv (idle 1 1 2 onePixel) ∧
    one.nworkers ≠ (idle 1 1 2 onePixel).nworkers ∧ Completes .gray one (completed .gray threeTurns one) ∧
    Completes .gray (idle 1 1 2 onePixel)
      (completed .gray [.lane 1 0, .lane 0 0, .lane 1 0, .sequencer] (idle 1 1 2 onePixel)) :=
  ⟨one_inv, idle_inv 1 1 2 onePixel (by intro b; cases b <;> decide) (by intro b; cases b <;> decide),
    by decide, witness_gray, completes_of _ _ _ rfl rfl (by decide) (by decide) rfl (by decide)⟩

/-- WorkItemFaultsOnUninit and WorkItemChangesOnlyItsBytes: an item that runs and one that faults. -/
theorem witness_items : (∃ t, runWork (.gray 0 0) busyGray = .ok t) ∧
    runWork (.neg 0 0 1) { busyGray with bufs := { onePixel with src := [(0, 90)] } } =
      .error (.uninitRead .src 1) := ⟨⟨_, rfl⟩, rfl⟩

/-- The invariant does not look at the schedule or at the host's pending accesses. -/
theorem inv_host (s : State) (ts : List Turn) (ops : List HostOp) (h : Inv s) :
    Inv { s with sched := ts, hostOps := ops } where
  params := h.params
  canonical := h.canonical
  inCapacity := h.inCapacity
  idle := h.idle
  busyNotDone := h.busyNotDone
  errDone := h.errDone
  errCode := h.errCode
  noErrCode := h.noErrCode
  running := fun hb =>
    { rows := (h.running hb).rows, cols := (h.running hb).cols, workers := (h.running hb).workers
      stages := (h.running hb).stages, plan := (h.running hb).plan
      lanes := fun l hl =>
        { fits := ((h.running hb).lanes l hl).fits, inactive := ((h.running hb).lanes l hl).inactive
          finished := ((h.running hb).lanes l hl).finished } }

/-- LaneStaysInItsBand: a lane's turn that changes a byte. -/
theorem witness_lane_turn : Inv busyStageA ∧
    takeTurn (.lane 0 0) busyStageA = .next (nextOf (takeTurn (.lane 0 0) busyStageA)) ∧
    (nextOf (takeTurn (.lane 0 0) busyStageA)).bufs.read .gray 0 ≠ busyStageA.bufs.read .gray 0 :=
  ⟨busyStageA_inv, rfl, by decide⟩

/-- BandsPartitionTheRows: one band, fewer rows than bands, as many rows as bands, no rows. -/
theorem witness_bands : (bands 3 1)[0]? = some ⟨0, 3⟩ ∧ 3 < 4 ∧ (bands 3 4)[2]? = some ⟨0, 0⟩ ∧ 4 ≤ 4 ∧
    (bands 4 4)[3]? = some ⟨3, 4⟩ ∧ bands 0 3 = [⟨0, 0⟩, ⟨0, 0⟩, ⟨0, 0⟩] := by decide

/-- EmptyBandTouchesNoMemory: the first lane of `twoLanes`. -/
theorem witness_empty_band : Inv twoLanes ∧ twoLanes.status.busy = true ∧
    twoLanes.lanes[0]? = some (lane 0 0 [] false) ∧ (lane 0 0 [] false).active = true ∧
    (lane 0 0 [] false).band.start = (lane 0 0 [] false).band.stop := ⟨twoLanes_inv, rfl, rfl, rfl, rfl⟩

/-- BarrierBeforeStageB: the step that passes the barrier. -/
theorem witness_barrier : Inv { doneStageA with sched := [.sequencer], hostOps := [] } ∧
    doneStageA.phase = .stageA ∧
    step { doneStageA with sched := [.sequencer], hostOps := [] } =
      .next (nextOf (step { doneStageA with sched := [.sequencer], hostOps := [] })) ∧
    (nextOf (step { doneStageA with sched := [.sequencer], hostOps := [] })).phase = .stageB :=
  ⟨inv_host _ _ _ doneStageA_inv, rfl, rfl, rfl⟩

/-- CompletionIsTheOnlyEnd: the step that completes. -/
theorem witness_completion : Inv { doneGray with sched := [.sequencer], hostOps := [] } ∧
    doneGray.status.busy = true ∧ doneGray.phase ≠ .stageA ∧
    (∀ l ∈ doneGray.lanes, l.active = true → l.done = true) ∧
    step { doneGray with sched := [.sequencer], hostOps := [] } =
      .next (nextOf (step { doneGray with sched := [.sequencer], hostOps := [] })) ∧
    (nextOf (step { doneGray with sched := [.sequencer], hostOps := [] })).status.busy = false :=
  ⟨inv_host _ _ _ doneGray_inv, rfl, by decide, by decide, rfl, rfl⟩

/-- BlockTurnsMakeProgress: a turn of a running block that is not idle, the input image written, and
a turn that faults where it is not. -/
theorem witness_progress : Inv busyGray ∧ GrayReadyInv busyGray ∧ busyGray.status.busy = true ∧
    Written busyGray.bufs (cmdInput busyGray.curop)
      (imageBytes busyGray.lrows busyGray.lcols (cmdInput busyGray.curop)) ∧ Turn.ofBlock (.lane 0 0) = true ∧
    takeTurn (.lane 0 0) busyGray = .next (nextOf (takeTurn (.lane 0 0) busyGray)) ∧
    remainingSteps (nextOf (takeTurn (.lane 0 0) busyGray)) + 1 = remainingSteps busyGray ∧
    takeTurn (.lane 0 0) { busyGray with bufs := Buffers.uninit } = .fault (.uninitRead .src 0) :=
  ⟨busyGray_inv, ⟨fun h => absurd h (by decide), fun h => absurd h (by decide)⟩, rfl,
    by unfold Written; decide, rfl, rfl, by decide, rfl⟩

/-- RunningCommandCanFinish, StageBNeverFaults, StepKeepsGrayReady: both stages of RUN. -/
theorem witness_stages : Inv busyStageA ∧ GrayReadyInv busyStageA ∧ busyStageA.status.busy = true ∧
    Written busyStageA.bufs (cmdInput busyStageA.curop)
      (imageBytes busyStageA.lrows busyStageA.lcols (cmdInput busyStageA.curop)) ∧
    Inv busyStageB ∧ GrayReadyInv busyStageB ∧ busyStageB.phase = .stageB ∧ Turn.ofBlock (.lane 0 0) = true ∧
    (∃ t, step { busyStageA with sched := [.lane 0 0] } = .next t) :=
  ⟨busyStageA_inv, busyStageA_grayReady, rfl, by unfold Written; decide, busyStageB_inv, busyStageB_grayReady,
    rfl, rfl, _, rfl⟩

/-- Turns in which the sequencer and the two lanes of `p0` come round again and again. -/
def roundRobin (n : Nat) : Turn :=
  if n % 3 = 0 then .sequencer else if n % 3 = 1 then .lane 0 0 else .lane 1 0

/-- The states of the run of `doneGray` under `roundRobin`: completed by the first turn. -/
def roundStates (n : Nat) : State := if n = 0 then doneGray else doneGray.complete

/-- FairRunsComplete: a fair run. -/
theorem witness_fair_run : Inv doneGray ∧ doneGray.status.busy = true ∧
    FairRun doneGray roundRobin roundStates := by
  refine ⟨doneGray_inv, rfl, rfl, fun n => ?_, fun n => ?_, fun n => ⟨3 * n, by omega, ?_⟩, fun k n hk => ?_⟩
  · rcases n with _ | n
    · rfl
    · show takeTurn (roundRobin (n + 1)) doneGray.complete = .next doneGray.complete
      unfold roundRobin
      split
      · rfl
      · split <;> rfl
  · unfold roundRobin
    split
    · exact nofun
    · split <;> exact nofun
  · unfold roundRobin
    rw [if_pos (Nat.mul_mod_right 3 n)]
  · have hk2 : k < 2 := hk
    have h : k = 0 ∨ k = 1 := by omega
    rcases h with rfl | rfl
    · exact ⟨3 * n + 1, 0, by omega, by
        unfold roundRobin; rw [if_neg (by omega), if_pos (by omega)]⟩
    · exact ⟨3 * n + 2, 0, by omega, by
        unfold roundRobin; rw [if_neg (by omega), if_neg (by omega)]⟩

/-- StepKeepsInvariant, ParametersNeverChange, LatchedConfigurationIsFrozen: a step of a running block in which the host writes ROWS. -/
theorem witness_step : Inv { busyGray with sched := [.host], hostOps := [.write (.reg 0x08) 32 4] } ∧
    step { busyGray with sched := [.host], hostOps := [.write (.reg 0x08) 32 4] } =
      .next { busyGray with rows := 4 } ∧
    State.nextTurn { busyGray with sched := [.host], hostOps := [.write (.reg 0x08) 32 4] } ≠ .reset ∧
    locate p0 (.reg 0x08) ≠ some (.reg 0x00) ∧ locate p0 (.reg 0x08) ≠ some (.reg 0x04) :=
  ⟨inv_host _ _ _ busyGray_inv, rfl, by decide, by decide, by decide⟩

/-- The host's next access, whether or not the host has the turn, is a write to one register. -/
theorem hostWritesReg_inj {s : State} {off off' value value' : Nat} {rest : List HostOp}
    (ho : s.hostOps = .write (.reg off') 32 value' :: rest) (h : s.hostWritesReg off value) :
    off = off' ∧ value = value' := by
  obtain ⟨_, place, rest', h1, h2⟩ := h
  rw [ho] at h1
  injection h1 with h1 _
  injection h1 with h1 h3 h4
  subst h1
  simp only [locate, Option.some.injEq, Place.reg.injEq] at h2
  exact ⟨h2.symm, h4.symm⟩

/-- StatusHoldsUntilNextCommand, and program P4: a lane's turn while a CMD write is only pending; the
CMD write taken while BUSY = 1 with OVR set; the host's write to STATUS with bit 3 clear. -/
theorem witness_status_holds :
    (∀ off value, ¬ State.hostWritesReg
      { busyGray with sched := [.lane 0 0], hostOps := [.write (.reg 0x00) 32 2] } off value) ∧
    (∃ t, step { busyGray with sched := [.lane 0 0], hostOps := [.write (.reg 0x00) 32 2] } = .next t) ∧
    State.hostWritesReg
      { busyGray with sched := [.host], hostOps := [.write (.reg 0x00) 32 2] } 0x00 2 ∧
    (∃ t, step { busyGray with sched := [.host], hostOps := [.write (.reg 0x00) 32 2] } = .next t) ∧
    (∀ value, State.hostWritesReg
      { one with sched := [.host], hostOps := [.write (.reg 0x04) 32 0xF7] } 0x04 value →
        value / 8 % 2 = 0) ∧
    (∀ value, ¬ State.hostWritesReg
      { one with sched := [.host], hostOps := [.write (.reg 0x04) 32 0xF7] } 0x00 value) :=
  ⟨fun _ _ h => absurd h.1 (by decide), ⟨_, rfl⟩, ⟨rfl, _, _, rfl, rfl⟩, ⟨_, rfl⟩,
    fun _ h => (hostWritesReg_inj rfl h).2 ▸ rfl, fun _ h => absurd (hostWritesReg_inj rfl h).1 (by decide)⟩

/-- ResetAbandonsTheCommand: a reset while a command runs and one while none does. -/
theorem witness_reset : State.nextTurn { busyGray with sched := [.reset] } = .reset ∧
    busyGray.status.busy = true ∧ State.nextTurn { one with sched := [.reset] } = .reset ∧
    one.status.busy = false := by decide

/-- LatchedConfigurationIsFrozen: an accepted and a rejected command. -/
theorem witness_latch : (nextOf (exec .gray one)).status.busy = true ∧
    exec .gray (idle 0 1 1 onePixel) = .next (nextOf (exec .gray (idle 0 1 1 onePixel))) ∧
    (nextOf (exec .gray (idle 0 1 1 onePixel))).status.busy = false := ⟨by decide, rfl, by decide⟩

/-- RegisterReads, RegisterWrites: each clause's offset is in the window and aligned, the first and
the last reserved one too. -/
theorem witness_registers : (∀ off ∈ [0x00, 0x04, 0x08, 0x0C, 0x10, 0x14, 0x18, 0xFC], off < 0x100 ∧ off % 4 = 0) ∧
    p0.nmax ≤ 65535 ∧ (8#32).toNat / 8 % 2 = 1 ∧ (7#32).toNat / 8 % 2 ≠ 1 := by decide

/-- OnlyAdmittedAccesses: the last admitted and the first refused offset of each window. -/
theorem witness_accesses : hostTurn { one with hostOps := [.read (.reg 0xFC) 32] } ≠ .fault .hostBadAccess ∧
    hostTurn { one with hostOps := [.read (.reg 0x100) 32] } = .fault .hostBadAccess ∧
    hostTurn { one with hostOps := [.read (.reg 0x02) 32] } = .fault .hostBadAccess ∧
    hostTurn { one with hostOps := [.write (.buf .src 47) 8 1] } ≠ .fault .hostBadAccess ∧
    hostTurn { one with hostOps := [.write (.buf .src 48) 8 1] } = .fault .hostBadAccess ∧
    hostTurn { one with hostOps := [.write (.buf .src 0) 32 1] } = .fault .hostBadAccess :=
  ⟨nofun, rfl, rfl, nofun, rfl, rfl⟩

/-- HostByteAccesses and ConflictingAccessesRace, while GRAY runs on a 1 by 1 image: the last byte
below the image area of GRAY, the first above it, SRC read and written, TIN not used. -/
theorem witness_host_bytes : busyGray.status.busy = true ∧ BufId.gray ∈ cmdWrites busyGray.curop ∧
    0 < busyGray.lrows * busyGray.lcols * channels .gray ∧
    ¬ 1 < busyGray.lrows * busyGray.lcols * channels .gray ∧
    1 < busyGray.params.maxRows * busyGray.params.maxCols * channels .gray ∧
    BufId.src ∈ cmdReads busyGray.curop ∧ BufId.src ∉ cmdWrites busyGray.curop ∧
    BufId.tin ∉ cmdReads busyGray.curop ∧ BufId.tin ∉ cmdWrites busyGray.curop ∧
    busyGray.bufs.read .src 2 = some 30 ∧ busyGray.bufs.read .gray 1 = none := by decide

/-- HostCannotDisturbACommand, HostReadsHaveNoSideEffects: accesses that do not fault. -/
theorem witness_host_turns : busyGray.status.busy = true ∧
    hostTurn { busyGray with hostOps := [.write (.buf .gray 1) 8 7] } =
      .next (nextOf (hostTurn { busyGray with hostOps := [.write (.buf .gray 1) 8 7] })) ∧
    hostTurn { busyGray with hostOps := [.read (.buf .src 2) 8, .read (.buf .src 2) 8] } =
      .next { busyGray with hostOps := [.read (.buf .src 2) 8], hostReads := [30] } := ⟨rfl, rfl, rfl⟩

/-- BusAddressesResolve: the ends of the windows of `p0`, and an address between two of them. -/
theorem witness_bus : locate p0 (.bus 255) = some (.reg 0xFF) ∧ locate p0 (.bus 256) = some (.buf .src 0) ∧
    locate p0 (.bus 303) = some (.buf .src 47) ∧ locate p0 (.bus 304) = none ∧
    locate p0 (.bus 655) = some (.buf .tout 15) ∧ locate p0 (.bus 656) = none := by decide

/-- NegativeAndThresholdAlgebra, GrayValueIsTheTruncatedAverage, SepiaRanges, EdgeValueExtremes,
KernelReadingDoesNotMatter: values at the bounds of their clauses. -/
theorem witness_values : 127 ≤ 127 ∧ 128 ≤ 128 ∧ 128 ≤ 255 ∧ 255 ≤ 255 ∧ 2 < 3 ∧
    (65025 : Int) ≤ 255 * 255 + 0 * 0 ∧ ¬ ((65025 : Int) ≤ 254 * 254 + 22 * 22) ∧
    [1, 2, 3, 4, 5, 6, 7, 8, 9].length = 9 := by decide

/-- A running state with a constant GRAY image. -/
def constant (rows cols : Nat) : State :=
  { busyGray with
    lrows := rows, lcols := cols
    bufs := { Buffers.uninit with gray := (List.range (rows * cols)).map (fun off => (off, 10)) } }

/-- ConstantImageGradients: an interior, an edge and a corner pixel of a 3 by 3 image, and the images
of one row, one column and one pixel. -/
theorem witness_constant :
    (∀ a, a < 3 → ∀ b, b < 3 → (constant 3 3).bufs.read .gray (a * 3 + b) = some 10) ∧
    (∀ b, b < 3 → (constant 1 3).bufs.read .gray (0 * 3 + b) = some 10) ∧
    (∀ a, a < 3 → (constant 3 1).bufs.read .gray (a * 1 + 0) = some 10) ∧
    (constant 1 1).bufs.read .gray 0 = some 10 ∧
    (0 < 1 ∧ 1 + 1 < 3) ∧ (0 = 0 ∨ 0 + 1 = 3) ∧ (2 = 0 ∨ 2 + 1 = 3) := by decide

end Sys2Proof.Tests.Slice0
end

/-! PROOFS. The Sobel output and the integer square root (O50). -/

namespace Sys2Proof.Machine

theorem le_isqrt (n m : Nat) : m ≤ isqrt n ↔ m * m ≤ n := by
  rw [isqrt_eq_sqrt, Nat.le_sqrt]

theorem gradientSquare_cast (gx gy : Int) : (gradientSquare gx gy : Int) = gx * gx + gy * gy :=
  Int.toNat_of_nonneg (add_nonneg (mul_self_nonneg gx) (mul_self_nonneg gy))

/-- The output is the inverted root, cut off at 255 (R88). -/
theorem edgeValue_eq (gx gy : Int) : edgeValue gx gy = 255 - min 255 (isqrt (gradientSquare gx gy)) := by
  rw [edgeValue, sat8_ofNat]

/-- The root reaches the saturation bound at `255^2` (R88). -/
theorem edgeValue_eq_zero_iff (gx gy : Int) : edgeValue gx gy = 0 ↔ 65025 ≤ gradientSquare gx gy := by
  have hroot := le_isqrt (gradientSquare gx gy) 255
  rw [edgeValue_eq]
  omega

/-- The root is 0 only of 0 (R88). -/
theorem edgeValue_eq_255_iff (gx gy : Int) : edgeValue gx gy = 255 ↔ gradientSquare gx gy = 0 := by
  have hroot := le_isqrt (gradientSquare gx gy) 1
  rw [edgeValue_eq]
  omega

theorem edgeValue_of_lt {gx gy : Int} (h : gradientSquare gx gy < 65025) :
    edgeValue gx gy = 255 - isqrt (gradientSquare gx gy) := by
  have hroot : isqrt (gradientSquare gx gy) < 255 := by
    rw [← not_le, le_isqrt, not_le]
    exact h
  rw [edgeValue_eq, Nat.min_eq_right hroot.le]

/-- Settles O50: the root is the library's integer square root, and it reaches 255 exactly from
`255 * 255` on and 1 exactly from 1 on. -/
theorem edgeValueExtremes : Obligations.EdgeValueExtremes := by
  unfold Obligations.EdgeValueExtremes
  refine ⟨le_isqrt, fun gx gy => ?_⟩
  have hsq := gradientSquare_cast gx gy
  refine ⟨?_, ?_, fun hlt => edgeValue_of_lt (by omega)⟩
  · rw [edgeValue_eq_zero_iff]; omega
  · rw [edgeValue_eq_255_iff]; omega

end Sys2Proof.Machine

/-! PROOFS. What each access of the host can do, said once, and that no turn of any agent changes the
parameters of the build (O34). -/

namespace Sys2Proof.Machine

/-! ## The host's accesses -/

/-- A host read that answers has returned a register's value or an initialized byte. -/
theorem hostRead_cases {s t : State} {place : Place} {bits : Nat} (h : s.hostRead place bits = .next t) :
    (∃ off, locate s.params place = some (.reg off) ∧ regAccessOk bits off = true ∧
      t = s.returned (s.readReg off)) ∨
    (∃ b off v, locate s.params place = some (.buf b off) ∧ bufAccessOk s.params b bits off = true ∧
      s.hostRaces false b off = false ∧ s.fetch b off = .ok v ∧ t = s.returned (BitVec.ofNat 32 v)) := by
  unfold State.hostRead at h
  split at h
  case h_1 off hloc =>
    split at h
    case isTrue hok => cases h; exact .inl ⟨off, hloc, hok, rfl⟩
    case isFalse => cases h
  case h_2 b off hloc =>
    split at h
    case isTrue hok =>
      split at h
      case isTrue => cases h
      case isFalse hrace =>
        split at h
        case h_1 v hv => cases h; exact .inr ⟨b, off, v, hloc, hok, by simpa using hrace, hv, rfl⟩
        case h_2 => cases h
    case isFalse => cases h
  case h_3 => cases h

/-- A host write that answers is a register write or stores one byte. -/
theorem hostWrite_cases {s t : State} {place : Place} {bits value : Nat}
    (h : s.hostWrite place bits value = .next t) :
    (∃ off, locate s.params place = some (.reg off) ∧ regAccessOk bits off = true ∧
      s.writeReg off (BitVec.ofNat 32 value) = .next t) ∨
    (∃ b off, locate s.params place = some (.buf b off) ∧ bufAccessOk s.params b bits off = true ∧
      s.hostRaces true b off = false ∧
      t = { s with bufs := s.bufs.write b off (BitVec.ofNat 8 value) }) := by
  unfold State.hostWrite at h
  split at h
  case h_1 off hloc =>
    split at h
    case isTrue hok => exact .inl ⟨off, hloc, hok, h⟩
    case isFalse => cases h
  case h_2 b off hloc =>
    split at h
    case isTrue hok =>
      split at h
      case isTrue => cases h
      case isFalse hrace => cases h; exact .inr ⟨b, off, hloc, hok, by simpa using hrace, rfl⟩
    case isFalse => cases h
  case h_3 => cases h

/-- A CMD write that answers: dropped, the command's own outcome, or a rejection (R67). -/
theorem writeCmd_cases {s t : State} {w : Word} (h : s.writeCmd w = .next t) :
    (s.status.busy = true ∧ t = s.overrun) ∨
    (s.status.busy = false ∧ ∃ i, decode w = .ok i ∧ exec i s = .next t) ∨
    (s.status.busy = false ∧ decode w = .error .illegalCommand ∧
      t = s.clearResult.reject errIllegalCommand) := by
  unfold State.writeCmd at h
  split at h
  case isTrue hbusy => cases h; exact .inl ⟨hbusy, rfl⟩
  case isFalse hbusy =>
    have hidle : s.status.busy = false := by simpa using hbusy
    split at h
    case h_1 i hi => exact .inr (.inl ⟨hidle, i, hi, h⟩)
    case h_2 hw =>
      cases h
      exact .inr (.inr ⟨hidle, hw, by rw [State.issueIllegal, if_neg hbusy]⟩)

/-- A write to the register window that answers, register by register (R20 to R27). -/
theorem writeReg_cases {s t : State} {off : Nat} {v : Word} (h : s.writeReg off v = .next t) :
    (off = offCMD ∧ s.writeCmd v = .next t) ∨
    (off = offSTATUS ∧ t = { s with status := s.status.hostWrite v }) ∨
    (off = offROWS ∧ t = { s with rows := v.setWidth 16 }) ∨
    (off = offCOLS ∧ t = { s with cols := v.setWidth 16 }) ∨
    (off = offNWORKERS ∧ t = { s with nworkers := v.setWidth 16 }) ∨
    (off ∉ [offCMD, offSTATUS, offROWS, offCOLS, offNWORKERS] ∧ t = s) := by
  unfold State.writeReg at h
  split_ifs at h with hcmd hstatus hrows hcols hworkers
  · exact .inl ⟨hcmd, h⟩
  · cases h; exact .inr (.inl ⟨hstatus, rfl⟩)
  · cases h; exact .inr (.inr (.inl ⟨hrows, rfl⟩))
  · cases h; exact .inr (.inr (.inr (.inl ⟨hcols, rfl⟩)))
  · cases h; exact .inr (.inr (.inr (.inr (.inl ⟨hworkers, rfl⟩))))
  · cases h
    refine .inr (.inr (.inr (.inr (.inr ⟨?_, rfl⟩))))
    simp only [List.mem_cons, List.not_mem_nil, or_false, not_or]
    exact ⟨hcmd, hstatus, hrows, hcols, hworkers⟩

/-- A host turn that answers: no access left, a read, a write, or a poll of STATUS (R48, R65). -/
theorem hostTurn_cases {s t : State} (h : hostTurn s = .next t) :
    (s.hostOps = [] ∧ t = s) ∨
    (∃ place bits rest, s.hostOps = .read place bits :: rest ∧
      State.hostRead { s with hostOps := rest } place bits = .next t) ∨
    (∃ place bits value rest, s.hostOps = .write place bits value :: rest ∧
      State.hostWrite { s with hostOps := rest } place bits value = .next t) ∨
    (∃ rest, s.hostOps = .wait :: rest ∧
      t = { s.returned (s.readReg offSTATUS) with
        hostOps := if (s.readReg offSTATUS).getLsbD 0 then s.hostOps else rest }) := by
  unfold hostTurn at h
  split at h
  case h_1 hops => cases h; exact .inl ⟨hops, rfl⟩
  case h_2 place bits rest hops => exact .inr (.inl ⟨place, bits, rest, hops, h⟩)
  case h_3 place bits value rest hops => exact .inr (.inr (.inl ⟨place, bits, value, rest, hops, h⟩))
  case h_4 rest hops =>
    refine .inr (.inr (.inr ⟨rest, hops, ?_⟩))
    dsimp only at h
    split at h
    case isTrue hbit => cases h; rw [if_pos hbit]; rfl
    case isFalse hbit => cases h; rw [if_neg hbit]

/-! ## The parameters are constants of the build -/

theorem exec_params {i : Instr} {s t : State} (h : exec i s = .next t) : t.params = s.params := by
  rw [exec_cases] at h
  split at h
  · cases h; rfl
  · split at h <;> cases h <;> rfl

theorem writeCmd_params {s t : State} {w : Word} (h : s.writeCmd w = .next t) :
    t.params = s.params := by
  obtain ⟨-, rfl⟩ | ⟨-, i, -, hexec⟩ | ⟨-, -, rfl⟩ := writeCmd_cases h
  · rfl
  · exact exec_params hexec
  · rfl

theorem writeReg_params {s t : State} {off : Nat} {v : Word} (h : s.writeReg off v = .next t) :
    t.params = s.params := by
  obtain ⟨-, hcmd⟩ | ⟨-, rfl⟩ | ⟨-, rfl⟩ | ⟨-, rfl⟩ | ⟨-, rfl⟩ | ⟨-, rfl⟩ := writeReg_cases h
  · exact writeCmd_params hcmd
  all_goals rfl

theorem hostRead_params {s t : State} {place : Place} {bits : Nat}
    (h : s.hostRead place bits = .next t) : t.params = s.params := by
  obtain ⟨_, -, -, rfl⟩ | ⟨_, _, _, -, -, -, -, rfl⟩ := hostRead_cases h <;> rfl

theorem hostWrite_params {s t : State} {place : Place} {bits value : Nat}
    (h : s.hostWrite place bits value = .next t) : t.params = s.params := by
  obtain ⟨_, -, -, hreg⟩ | ⟨_, _, -, -, -, rfl⟩ := hostWrite_cases h
  · exact writeReg_params hreg
  · rfl

theorem hostTurn_params {s t : State} (h : hostTurn s = .next t) : t.params = s.params := by
  obtain ⟨-, rfl⟩ | ⟨place, bits, rest, -, hread⟩ | ⟨place, bits, value, rest, -, hwrite⟩ |
    ⟨rest, -, rfl⟩ := hostTurn_cases h
  · rfl
  · rw [hostRead_params hread]
  · rw [hostWrite_params hwrite]
  · rfl

theorem laneTurn_params {k n : Nat} {s t : State} (h : laneTurn k n s = .next t) :
    t.params = s.params := by
  obtain rfl | ⟨_, -, -, -, -, -, rfl⟩ | ⟨_, w, u, _, -, -, -, -, -, hwork, rfl⟩ := laneTurn_cases h
  · rfl
  · rfl
  · rw [State.setLane_params, runWork_ok w s u hwork]

theorem sequencerTurn_params {s t : State} (h : sequencerTurn s = .next t) : t.params = s.params := by
  rw [sequencerTurn_cases] at h
  split at h
  · cases h; rfl
  · split at h <;> cases h <;> rfl

/-- Whichever agent takes its turn, a reset too, the parameters stay (R8 to R10, R112). -/
theorem takeTurn_params {turn : Turn} {s t : State} (h : takeTurn turn s = .next t) :
    t.params = s.params := by
  cases turn with
  | host => exact hostTurn_params h
  | sequencer => exact sequencerTurn_params h
  | lane k n => exact laneTurn_params h
  | reset => cases h; rfl

theorem step_params {s t : State} (h : step s = .next t) : t.params = s.params := by
  rw [takeTurn_params h, State.turnTaken_params]

/-- HWPAR is read from the parameters alone (R26). -/
theorem readReg_hwpar (s : State) :
    s.readReg offHWPAR = (BitVec.ofNat 16 s.params.nmax).setWidth 32 := rfl

/-- Settles O34: every agent's turn keeps the parameters, and HWPAR reads nothing else. -/
theorem parametersNeverChange : Obligations.ParametersNeverChange := by
  unfold Obligations.ParametersNeverChange
  intro s t h
  have hparams := step_params h
  exact ⟨hparams, by rw [readReg_hwpar, readReg_hwpar, hparams]⟩

end Sys2Proof.Machine

/-! PROOFS. The control state that the invariant speaks of, which the host's accesses to a running
command leave as it is, and what every step keeps of the latched configuration (O33, O41). -/

namespace Sys2Proof.Machine

/-! ## The control state -/

/-- `t` has the control state of `s`: everything `Inv` speaks of but the buffer memories. What may
differ beside those is OVR, ROWS, COLS, NWORKERS, the host's lists and the schedule. -/
structure SameControl (s t : State) : Prop where
  params : t.params = s.params
  busy : t.status.busy = s.status.busy
  done : t.status.done = s.status.done
  err : t.status.err = s.status.err
  errcode : t.status.errcode = s.status.errcode
  lrows : t.lrows = s.lrows
  lcols : t.lcols = s.lcols
  ln : t.ln = s.ln
  phase : t.phase = s.phase
  curop : t.curop = s.curop
  lanes : t.lanes = s.lanes

theorem SameControl.refl (s : State) : SameControl s s := by constructor <;> rfl

theorem sameControl_turnTaken (s : State) : SameControl s s.turnTaken := by constructor <;> simp

theorem sameControl_overrun (s : State) : SameControl s s.overrun := by constructor <;> rfl

/-- A lane's item changes nothing but buffer bytes. -/
theorem sameControl_runWork {w : Work} {s t : State} (h : runWork w s = .ok t) : SameControl s t := by
  rw [runWork_ok w s t h]
  constructor <;> rfl

/-! ## What a host access can do -/

/-- A host read answers with the control state and every byte as they were (R44). -/
theorem hostRead_sameControl {s t : State} {place : Place} {bits : Nat}
    (h : s.hostRead place bits = .next t) : SameControl s t ∧ t.bufs = s.bufs := by
  obtain ⟨_, -, -, rfl⟩ | ⟨_, _, _, -, -, -, -, rfl⟩ := hostRead_cases h
  all_goals exact ⟨by constructor <;> rfl, rfl⟩

/-- A register write that answers leaves the control state and the buffers, unless it is a CMD write
taken while BUSY = 0, which issues a command or is rejected (R22 to R27, R67). -/
theorem writeReg_effect {s t : State} {off : Nat} {v : Word} (h : s.writeReg off v = .next t) :
    (SameControl s t ∧ t.bufs = s.bufs) ∨
    (s.status.busy = false ∧
      ((∃ i, exec i s = .next t) ∨ t = s.clearResult.reject errIllegalCommand)) := by
  obtain ⟨-, hcmd⟩ | ⟨-, rfl⟩ | ⟨-, rfl⟩ | ⟨-, rfl⟩ | ⟨-, rfl⟩ | ⟨-, rfl⟩ := writeReg_cases h
  · obtain ⟨-, rfl⟩ | ⟨hidle, i, -, hexec⟩ | ⟨hidle, -, ht⟩ := writeCmd_cases hcmd
    · exact .inl ⟨sameControl_overrun s, rfl⟩
    · exact .inr ⟨hidle, .inl ⟨i, hexec⟩⟩
    · exact .inr ⟨hidle, .inr ht⟩
  · exact .inl ⟨by constructor <;> simp, rfl⟩
  all_goals exact .inl ⟨by constructor <;> rfl, rfl⟩

/-- A host turn that answers leaves the control state and the buffers; or stores one byte where R51
allows it; or is a CMD write taken while BUSY = 0 (R42 to R51, R67). -/
theorem hostTurn_effect {s t : State} (h : hostTurn s = .next t) :
    (SameControl s t ∧ t.bufs = s.bufs) ∨
    (∃ b off v, SameControl s t ∧ off < capacity s.params b ∧ s.hostRaces true b off = false ∧
      t.bufs = s.bufs.write b off v) ∨
    (s.status.busy = false ∧ ∃ rest,
      ((∃ i, exec i { s with hostOps := rest } = .next t) ∨
        t = (State.clearResult { s with hostOps := rest }).reject errIllegalCommand)) := by
  obtain ⟨-, rfl⟩ | ⟨place, bits, rest, -, hread⟩ | ⟨place, bits, value, rest, -, hwrite⟩ |
    ⟨rest, -, rfl⟩ := hostTurn_cases h
  · exact .inl ⟨.refl t, rfl⟩
  · obtain ⟨hsame, hbufs⟩ := hostRead_sameControl hread
    exact .inl ⟨{ hsame with }, hbufs⟩
  · obtain ⟨off, -, -, hreg⟩ | ⟨b, off, -, hok, hrace, rfl⟩ := hostWrite_cases hwrite
    · obtain ⟨hsame, hbufs⟩ | ⟨hidle, hissue⟩ := writeReg_effect hreg
      · exact .inl ⟨{ hsame with }, hbufs⟩
      · exact .inr (.inr ⟨hidle, rest, hissue⟩)
    · refine .inr (.inl ⟨b, off, _, by constructor <;> rfl, ?_, hrace, rfl⟩)
      exact ((bufAccessOk_iff _ _ _ _).mp hok).2
  · exact .inl ⟨by constructor <;> rfl, rfl⟩

/-- While a command runs, a host turn that answers leaves the control state (R28, R119). -/
theorem hostTurn_sameControl_of_busy {s t : State} (hbusy : s.status.busy = true)
    (h : hostTurn s = .next t) : SameControl s t := by
  obtain ⟨hsame, -⟩ | ⟨_, _, _, hsame, -⟩ | ⟨hidle, -⟩ := hostTurn_effect h
  · exact hsame
  · exact hsame
  · rw [hbusy] at hidle; cases hidle

/-- A byte that a host write would race for is not changed by a host turn that answers (R51). -/
theorem hostTurn_read_of_races {s t : State} {b : BufId} {off : Nat}
    (hrace : s.hostRaces true b off = true) (h : hostTurn s = .next t) :
    t.bufs.read b off = s.bufs.read b off := by
  obtain ⟨-, hbufs⟩ | ⟨b', off', v, -, -, hfree, hbufs⟩ | ⟨hidle, -⟩ := hostTurn_effect h
  · rw [hbufs]
  · rw [hbufs, Buffers.read_write, if_neg]
    rintro ⟨rfl, rfl⟩
    rw [hrace] at hfree; cases hfree
  · rw [((hostRaces_iff _ _ _ _).mp hrace).1] at hidle; cases hidle

/-- Settles O41: a host turn leaves the control state of a running command, and the bytes the command
reads or writes are those a host write would race for. -/
theorem hostCannotDisturbACommand : Obligations.HostCannotDisturbACommand := by
  unfold Obligations.HostCannotDisturbACommand
  intro s u hbusy h
  have hsame := hostTurn_sameControl_of_busy hbusy h
  refine ⟨hsame.busy.trans hbusy, hsame.lanes, hsame.phase, hsame.curop, hsame.lrows, hsame.lcols,
    hsame.ln, fun b off hread => ?_, fun b off hwrite hoff => ?_⟩
  · exact hostTurn_read_of_races ((hostRaces_iff _ _ _ _).mpr ⟨hbusy, .inl ⟨rfl, hread⟩⟩) h
  · exact hostTurn_read_of_races ((hostRaces_iff _ _ _ _).mpr ⟨hbusy, .inr ⟨hwrite, hoff⟩⟩) h

/-! ## The latched configuration -/

/-- `t` has the latched configuration of `s` (R28) and runs the same command (R29). -/
structure SameConfig (s t : State) : Prop where
  lrows : t.lrows = s.lrows
  lcols : t.lcols = s.lcols
  ln : t.ln = s.ln
  curop : t.curop = s.curop

theorem SameControl.config {s t : State} (h : SameControl s t) : SameConfig s t :=
  ⟨h.lrows, h.lcols, h.ln, h.curop⟩

theorem laneTurn_config {k n : Nat} {s t : State} (h : laneTurn k n s = .next t) : SameConfig s t := by
  obtain rfl | ⟨_, -, -, -, -, -, rfl⟩ | ⟨_, w, u, _, -, -, -, -, -, hwork, rfl⟩ := laneTurn_cases h
  · exact (SameControl.refl t).config
  · constructor <;> rfl
  · exact { (sameControl_runWork hwork).config with }

theorem sequencerTurn_config {s t : State} (h : sequencerTurn s = .next t) : SameConfig s t := by
  rw [sequencerTurn_cases] at h
  split_ifs at h <;> cases h <;> constructor <;> rfl

/-- No agent's turn changes the latched configuration of a command that runs before and after it; only
a reset could, and that ends the command. -/
theorem takeTurn_config {turn : Turn} {s t : State} (hbusy : s.status.busy = true)
    (h : takeTurn turn s = .next t) (hbusy' : t.status.busy = true) : SameConfig s t := by
  cases turn with
  | host => exact (hostTurn_sameControl_of_busy hbusy h).config
  | sequencer => exact sequencerTurn_config h
  | lane k n => exact laneTurn_config h
  | reset => cases h; cases hbusy'

/-- A command issued while BUSY = 0 is accepted with copies of the registers, or rejected with the
latched values as they were (R28, R68, R69). -/
theorem exec_latches {i : Instr} {s t : State} (hidle : s.status.busy = false)
    (h : exec i s = .next t) :
    (t.status.busy = true ∧ t.lrows = s.rows.toNat ∧ t.lcols = s.cols.toNat ∧
      t.ln = effectiveWorkers s.nworkers.toNat s.params.nmax) ∨
    (t.status.busy = false ∧ SameConfig s t) := by
  rw [exec_cases, if_neg (by simp [hidle])] at h
  split at h <;> cases h
  · exact .inr ⟨hidle, by constructor <;> rfl⟩
  · exact .inl ⟨rfl, rfl, rfl, rfl⟩

/-- Settles O33: acceptance copies the registers, a rejection copies nothing, and no turn between the
two ends of a command touches the copies. -/
theorem latchedConfigurationIsFrozen : Obligations.LatchedConfigurationIsFrozen := by
  unfold Obligations.LatchedConfigurationIsFrozen
  refine ⟨fun i s t hidle h hbusy => ?_, fun s t hbusy h hbusy' => ?_, fun s t i hidle h hidle' => ?_⟩
  · obtain ⟨-, hlatched⟩ | ⟨hrejected, -⟩ := exec_latches hidle h
    · exact hlatched
    · rw [hrejected] at hbusy; cases hbusy
  · obtain ⟨hrows, hcols, hln, hop⟩ := takeTurn_config (s.turnTaken_status ▸ hbusy) h hbusy'
    exact ⟨hrows.trans s.turnTaken_lrows, hcols.trans s.turnTaken_lcols, hln.trans s.turnTaken_ln,
      hop.trans s.turnTaken_curop⟩
  · obtain ⟨haccepted, -⟩ | ⟨-, hsame⟩ := exec_latches hidle h
    · rw [haccepted] at hidle'; cases hidle'
    · exact ⟨hsame.lrows, hsame.lcols, hsame.ln⟩

end Sys2Proof.Machine

/-! PROOFS. The invariant holds after reset (O29) and every step keeps it (O30). -/

namespace Sys2Proof.Machine

/-! ## The invariant and the control state -/

theorem Inv.busy_of_phase {s : State} (h : Inv s) (hphase : s.phase ≠ .idle) : s.status.busy = true := by
  rw [Ne, h.idle, Bool.not_eq_false] at hphase
  exact hphase

theorem Inv.nmax_pos {s : State} (h : Inv s) : 1 ≤ s.params.nmax :=
  ((paramsOk_iff _).mp h.params).1.1

theorem RunningInv.congr {s t : State} (h : RunningInv s) (hst : SameControl s t) : RunningInv t where
  rows := by rw [hst.lrows, hst.params]; exact h.rows
  cols := by rw [hst.lcols, hst.params]; exact h.cols
  workers := by rw [hst.ln, hst.params]; exact h.workers
  stages := by rw [hst.curop, hst.phase]; exact h.stages
  plan := by rw [hst.lanes, hst.curop, hst.lrows, hst.ln]; exact h.plan
  lanes l hl := by
    rw [hst.lanes] at hl
    obtain ⟨hfits, hinactive, hfinished⟩ := h.lanes l hl
    exact ⟨by rw [hst.phase, hst.curop, hst.lcols]; exact hfits, hinactive, hfinished⟩

/-- The invariant depends on the control state and on the form of the buffer memories alone. -/
theorem Inv.of_sameControl {s t : State} (h : Inv s) (hst : SameControl s t)
    (hcanonical : ∀ b, (t.bufs.get b).wf = true)
    (hcapacity : ∀ b, (t.bufs.get b).below (capacity s.params b) = true) : Inv t where
  params := by rw [hst.params]; exact h.params
  canonical := hcanonical
  inCapacity := by rw [hst.params]; exact hcapacity
  idle := by rw [hst.phase, hst.busy]; exact h.idle
  busyNotDone := by rw [hst.busy, hst.done]; exact h.busyNotDone
  errDone := by rw [hst.err, hst.done, hst.busy]; exact h.errDone
  errCode := by rw [hst.err, hst.errcode]; exact h.errCode
  noErrCode := by rw [hst.err, hst.errcode]; exact h.noErrCode
  running hbusy := (h.running (hst.busy.symm.trans hbusy)).congr hst

theorem Inv.congr {s t : State} (h : Inv s) (hst : SameControl s t) (hbufs : t.bufs = s.bufs) :
    Inv t :=
  h.of_sameControl hst (by rw [hbufs]; exact h.canonical) (by rw [hbufs]; exact h.inCapacity)

/-- One byte stored below its buffer's capacity keeps the invariant. -/
theorem Inv.of_write {s t : State} {b : BufId} {off : Nat} {v : Byte} (h : Inv s)
    (hst : SameControl s t) (hoff : off < capacity s.params b) (hbufs : t.bufs = s.bufs.write b off v) :
    Inv t :=
  h.of_sameControl hst (by rw [hbufs]; exact Buffers.write_wf _ _ _ _ h.canonical)
    (by rw [hbufs]; exact Buffers.write_below _ _ _ _ _ hoff h.inCapacity)

/-! ## Reset, rejection and completion -/

/-- After reset no command runs, STATUS is 0 and no buffer holds a byte (R35). -/
theorem inv_resetWith {p : Params} (hp : paramsOk p = true) : Inv (State.resetWith p) where
  params := hp
  canonical b := by rw [State.resetWith, Buffers.uninit_get]; rfl
  inCapacity b := by rw [State.resetWith, Buffers.uninit_get]; rfl
  idle := ⟨fun _ => rfl, fun _ => rfl⟩
  busyNotDone := by rintro ⟨hbusy, -⟩; cases hbusy
  errDone herr := by cases herr
  errCode herr := by cases herr
  noErrCode _ := rfl
  running hbusy := by cases hbusy

theorem Inv.hardReset {s : State} (h : Inv s) : Inv s.hardReset :=
  (inv_resetWith h.params).congr (by constructor <;> rfl) rfl

theorem Inv.reject {s : State} (h : Inv s) (hidle : s.status.busy = false) {code : BitVec 4}
    (hcode : code = errInvalidDimensions ∨ code = errIllegalCommand) :
    Inv (s.clearResult.reject code) where
  params := h.params
  canonical := h.canonical
  inCapacity := h.inCapacity
  idle := h.idle
  busyNotDone := by rintro ⟨hbusy, -⟩; exact absurd hbusy (by simpa using hidle)
  errDone _ := ⟨rfl, hidle⟩
  errCode _ := hcode
  noErrCode herr := by cases herr
  running hbusy := absurd hbusy (by simpa using hidle)

theorem Inv.complete {s : State} (h : Inv s) (hphase : s.phase ≠ .idle) : Inv s.complete where
  params := h.params
  canonical := h.canonical
  inCapacity := h.inCapacity
  idle := ⟨fun _ => rfl, fun _ => rfl⟩
  busyNotDone := by rintro ⟨hbusy, -⟩; cases hbusy
  errDone herr := by
    have hidle := (h.errDone herr).2
    rw [h.busy_of_phase hphase] at hidle; cases hidle
  errCode := h.errCode
  noErrCode := h.noErrCode
  running hbusy := by cases hbusy

/-! ## The lanes a stage starts with -/

/-- Banded lanes take the bands of the partition, each of them used (R72). -/
theorem bandedLanes_plan (work : Nat → Band → List Work) (s : State) :
    (bandedLanes work s).map (fun l => (l.band, l.active)) =
      (bands s.lrows s.ln).map (fun b => (b, true)) := by
  simp [bandedLanes]

/-- THRINV's lanes: lane 0 takes the whole image, the others are not used (R75). -/
theorem singleLane_plan (work : Nat → Band → List Work) (s : State) :
    (singleLane work s).map (fun l => (l.band, l.active)) = lanePlan .thrinv s.lrows s.ln := by
  rw [singleLane, lanePlan, if_pos rfl, List.map_map]
  refine List.map_congr_left fun k _ => ?_
  rw [Function.comp_apply]
  split <;> rfl

/-- A banded lane has its work to do and is not done. -/
theorem mem_bandedLanes {work : Nat → Band → List Work} {s : State} {l : Lane}
    (h : l ∈ bandedLanes work s) :
    l.todo = work s.lcols l.band ∧ l.active = true ∧ l.done = false := by
  obtain ⟨b, -, rfl⟩ := List.mem_map.mp h
  exact ⟨rfl, rfl, rfl⟩

/-- A lane of THRINV's stage has its work to do, or is not used and has none; it is not done. -/
theorem mem_singleLane {work : Nat → Band → List Work} {s : State} {l : Lane}
    (h : l ∈ singleLane work s) :
    (l.todo = work s.lcols l.band ∧ l.active = true ∨ l.todo = [] ∧ l.active = false) ∧
      l.done = false := by
  obtain ⟨k, -, rfl⟩ := List.mem_map.mp h
  split
  · exact ⟨.inl ⟨rfl, rfl⟩, rfl⟩
  · exact ⟨.inr ⟨rfl, rfl⟩, rfl⟩

theorem firstPlan_plan (i : Instr) (s : State) :
    (firstPlan i s).map (fun l => (l.band, l.active)) = lanePlan i s.lrows s.ln := by
  cases i
  case thrinv => exact singleLane_plan _ s
  all_goals exact bandedLanes_plan _ s

theorem firstPhase_stages (i : Instr) : i = .run ↔ firstPhase i = .stageA ∨ firstPhase i = .stageB := by
  cases i <;> decide

/-! ## The work of a stage fits it -/

section
variable {ph : Phase} {op : Instr} {cols : Nat} {b : Band} {w : Work}

theorem grayWork_fits (hstage : ph = .single ∧ op = .gray ∨ ph = .stageA)
    (h : w ∈ grayWork cols b) : workFits ph op cols b w := by
  obtain ⟨i, j, rfl, ⟨hstart, hstop⟩, hj⟩ := (mem_grayWork _ _ _).mp h
  exact ⟨hstage, hstart, hstop, hj⟩

theorem sepiaWork_fits (hstage : ph = .single ∧ op = .sepia ∨ ph = .stageA)
    (h : w ∈ sepiaWork cols b) : workFits ph op cols b w := by
  obtain ⟨i, j, rfl, ⟨hstart, hstop⟩, hj⟩ := (mem_sepiaWork _ _ _).mp h
  exact ⟨hstage, hstart, hstop, hj⟩

theorem negWork_fits (hstage : ph = .single ∧ op = .neg ∨ ph = .stageA)
    (h : w ∈ negWork cols b) : workFits ph op cols b w := by
  obtain ⟨i, j, ch, rfl, ⟨hstart, hstop⟩, hj, hch⟩ := (mem_negWork _ _ _).mp h
  exact ⟨hstage, hstart, hstop, hj, hch⟩

theorem sobelWork_fits (hstage : ph = .single ∧ op = .sobel ∨ ph = .stageB)
    (h : w ∈ sobelWork cols b) : workFits ph op cols b w := by
  obtain ⟨i, j, rfl, ⟨hstart, hstop⟩, hj⟩ := (mem_sobelWork _ _ _).mp h
  exact ⟨hstage, hstart, hstop, hj⟩

theorem thrinvWork_fits (hstage : ph = .single ∧ op = .thrinv)
    (h : w ∈ thrinvWork cols b) : workFits ph op cols b w := by
  obtain ⟨i, j, rfl, ⟨hstart, hstop⟩, hj⟩ := (mem_thrinvWork _ _ _).mp h
  exact ⟨hstage, hstart, hstop, hj⟩

theorem stageAWork_fits (hstage : ph = .stageA) (h : w ∈ stageAWork cols b) :
    workFits ph op cols b w := by
  rw [stageAWork, List.mem_append, List.mem_append] at h
  obtain (hgray | hsepia) | hneg := h
  · exact grayWork_fits (.inr hstage) hgray
  · exact sepiaWork_fits (.inr hstage) hsepia
  · exact negWork_fits (.inr hstage) hneg

end

/-- The lanes of a banded stage whose work fits it meet the lane invariant. -/
theorem laneInv_of_bandedLanes {work : Nat → Band → List Work} {s t : State}
    (hfits : ∀ b, ∀ w ∈ work s.lcols b, workFits t.phase t.curop t.lcols b w) :
    ∀ l ∈ bandedLanes work s, LaneInv t l := by
  intro l hl
  obtain ⟨htodo, hactive, hdone⟩ := mem_bandedLanes hl
  exact ⟨by rw [htodo]; exact hfits l.band, by simp [hactive], by simp [hdone]⟩

/-- The same for THRINV's stage, where the unused lanes have no work (R75). -/
theorem laneInv_of_singleLane {work : Nat → Band → List Work} {s t : State}
    (hfits : ∀ b, ∀ w ∈ work s.lcols b, workFits t.phase t.curop t.lcols b w) :
    ∀ l ∈ singleLane work s, LaneInv t l := by
  intro l hl
  obtain ⟨⟨htodo, hactive⟩ | ⟨htodo, hactive⟩, hdone⟩ := mem_singleLane hl
  · exact ⟨by rw [htodo]; exact hfits l.band, by simp [hactive], by simp [hdone]⟩
  · exact ⟨by simp [htodo], fun _ => ⟨htodo, hdone⟩, fun _ => htodo⟩

/-- The lanes of a command's first stage meet the lane invariant, whichever command it is. -/
theorem laneInv_of_firstPlan {i : Instr} {s t : State} (hphase : t.phase = firstPhase i)
    (hop : t.curop = i) (hcols : t.lcols = s.lcols) : ∀ l ∈ firstPlan i s, LaneInv t l := by
  cases i
  case gray =>
    exact laneInv_of_bandedLanes fun b w hw => hcols ▸ grayWork_fits (.inl ⟨hphase, hop⟩) hw
  case sepia =>
    exact laneInv_of_bandedLanes fun b w hw => hcols ▸ sepiaWork_fits (.inl ⟨hphase, hop⟩) hw
  case neg =>
    exact laneInv_of_bandedLanes fun b w hw => hcols ▸ negWork_fits (.inl ⟨hphase, hop⟩) hw
  case sobel =>
    exact laneInv_of_bandedLanes fun b w hw => hcols ▸ sobelWork_fits (.inl ⟨hphase, hop⟩) hw
  case thrinv =>
    exact laneInv_of_singleLane fun b w hw => hcols ▸ thrinvWork_fits ⟨hphase, hop⟩ hw
  case run =>
    exact laneInv_of_bandedLanes fun b w hw => hcols ▸ stageAWork_fits hphase hw

/-! ## Acceptance and the CMD write -/

/-- The state in which command `i` has been accepted from `s` and its first stage has its lanes. -/
def State.started (s : State) (i : Instr) : State :=
  { s.accepted i with phase := firstPhase i, lanes := firstPlan i (s.accepted i) }

theorem effectiveWorkers_bounds {n nmax : Nat} (h : 1 ≤ nmax) :
    1 ≤ effectiveWorkers n nmax ∧ effectiveWorkers n nmax ≤ nmax := by
  unfold effectiveWorkers; omega

theorem runningInv_started {s : State} (i : Instr) (hnmax : 1 ≤ s.params.nmax)
    (hdims : ¬ dimensionsBad s.params s.rows.toNat s.cols.toNat = true) :
    RunningInv (s.started i) := by
  rw [dimensionsBad_iff] at hdims
  have hrows : 1 ≤ s.rows.toNat ∧ s.rows.toNat ≤ s.params.maxRows := by omega
  have hcols : 1 ≤ s.cols.toNat ∧ s.cols.toNat ≤ s.params.maxCols := by omega
  exact {
    rows := hrows
    cols := hcols
    workers := effectiveWorkers_bounds hnmax
    stages := firstPhase_stages i
    plan := firstPlan_plan i (s.accepted i)
    lanes := laneInv_of_firstPlan rfl rfl rfl }

theorem Inv.started {s : State} (h : Inv s) (i : Instr)
    (hdims : ¬ dimensionsBad s.params s.rows.toNat s.cols.toNat = true) : Inv (s.started i) where
  params := h.params
  canonical := h.canonical
  inCapacity := h.inCapacity
  idle := by
    constructor
    · intro hphase; cases i <;> cases hphase
    · intro hidle; cases hidle
  busyNotDone := by rintro ⟨-, hdone⟩; cases hdone
  errDone herr := by cases herr
  errCode herr := by cases herr
  noErrCode _ := rfl
  running _ := runningInv_started i h.nmax_pos hdims

/-- The write of a command's word keeps the invariant with each of its outcomes (R67 to R69). -/
theorem exec_keeps_inv {i : Instr} {s t : State} (h : Inv s) (hexec : exec i s = .next t) : Inv t := by
  rw [exec_cases] at hexec
  split_ifs at hexec with hbusy hdims <;> cases hexec
  · exact h.congr (sameControl_overrun s) rfl
  · exact h.reject (by simpa using hbusy) (.inl rfl)
  · exact h.started i hdims

theorem hostTurn_keeps_inv {s t : State} (h : Inv s) (hturn : hostTurn s = .next t) : Inv t := by
  obtain ⟨hsame, hbufs⟩ | ⟨b, off, v, hsame, hoff, -, hbufs⟩ | ⟨hidle, rest, hissue⟩ :=
    hostTurn_effect hturn
  · exact h.congr hsame hbufs
  · exact h.of_write hsame hoff hbufs
  · have hrest : Inv { s with hostOps := rest } := h.congr (by constructor <;> rfl) rfl
    obtain ⟨i, hexec⟩ | rfl := hissue
    · exact exec_keeps_inv hrest hexec
    · exact hrest.reject hidle (.inr rfl)

/-! ## The sequencer -/

/-- Passing RUN's stage barrier keeps what holds while a command runs: stage B has the same bands. -/
theorem RunningInv.stageB {s : State} (h : RunningInv s) (hphase : s.phase = .stageA) :
    RunningInv { s with phase := .stageB, lanes := bandedLanes sobelWork s } := by
  have hrun : s.curop = .run := h.stages.mpr (.inl hphase)
  exact {
    rows := h.rows
    cols := h.cols
    workers := h.workers
    stages := iff_of_true hrun (.inr rfl)
    plan := by
      show _ = lanePlan s.curop s.lrows s.ln
      rw [bandedLanes_plan, lanePlan, if_neg (by rw [hrun]; decide)]
    lanes := laneInv_of_bandedLanes fun b w hw => sobelWork_fits (.inr rfl) hw }

theorem Inv.stageB {s : State} (h : Inv s) (hphase : s.phase = .stageA) :
    Inv { s with phase := .stageB, lanes := bandedLanes sobelWork s } := by
  have hbusy := h.busy_of_phase (by rw [hphase]; decide)
  exact { h with
    idle := iff_of_false (fun hidle => by cases hidle) (by simp [hbusy])
    running := fun _ => (h.running hbusy).stageB hphase }

theorem sequencerTurn_keeps_inv {s t : State} (h : Inv s) (hturn : sequencerTurn s = .next t) : Inv t := by
  rw [sequencerTurn_cases] at hturn
  split_ifs at hturn with hwait hstageA <;> cases hturn
  · exact h
  · exact h.stageB hstageA
  · exact h.complete (not_or.mp hwait).2

/-! ## A lane -/

/-- A used or unused band of the plan ends within the image. -/
theorem lanePlan_stop_le {op : Instr} {rows n : Nat} {b : Band} {active : Bool}
    (h : (b, active) ∈ lanePlan op rows n) : b.stop ≤ rows := by
  unfold lanePlan at h
  split at h
  · obtain ⟨k, -, hk⟩ := List.mem_map.mp h
    split at hk <;> cases hk
    · exact Nat.le_refl _
    · exact Nat.zero_le _
  · obtain ⟨b', hb', hk⟩ := List.mem_map.mp h
    cases hk
    exact (bands_mem hb').2

theorem RunningInv.band_stop_le {s : State} (h : RunningInv s) {l : Lane} (hl : l ∈ s.lanes) :
    l.band.stop ≤ s.lrows := by
  refine lanePlan_stop_le (op := s.curop) (n := s.ln) (active := l.active) ?_
  rw [← h.plan]
  exact List.mem_map_of_mem hl

/-- A pixel's byte lies in the image area (R36, R39). -/
theorem pixelOffset_lt_imageBytes {rows cols i j k : Nat} {b : BufId} (hi : i < rows) (hj : j < cols)
    (hk : k < channels b) : pixelOffset cols b i j k < imageBytes rows cols b := by
  have hpixel : i * cols + j + 1 ≤ rows * cols := by nlinarith
  unfold pixelOffset imageBytes
  calc (i * cols + j) * channels b + k < (i * cols + j + 1) * channels b := by rw [Nat.succ_mul]; omega
    _ ≤ rows * cols * channels b := Nat.mul_le_mul_right _ hpixel

/-- The image of a running command fits its buffers (R31, R67). -/
theorem RunningInv.imageBytes_le_capacity {s : State} (h : RunningInv s) (b : BufId) :
    imageBytes s.lrows s.lcols b ≤ capacity s.params b :=
  Nat.mul_le_mul_right _ (Nat.mul_le_mul h.rows.2 h.cols.2)

/-- An item that fits a band within the image stores only in the image areas (R39). -/
theorem itemWrites_lt_imageBytes {s : State} {ph : Phase} {op : Instr} {b : Band} {w : Work}
    {buf : BufId} {off : Nat} (hstop : b.stop ≤ s.lrows) (hfits : workFits ph op s.lcols b w)
    (h : itemWrites s w buf off) : off < imageBytes s.lrows s.lcols buf := by
  have hpixel {i j k : Nat} (hi : i < b.stop) (hj : j < s.lcols) (hk : k < channels buf) :
      (i * s.lcols + j) * channels buf + k < imageBytes s.lrows s.lcols buf :=
    pixelOffset_lt_imageBytes (Nat.lt_of_lt_of_le hi hstop) hj hk
  cases w with
  | sepia i j =>
    obtain ⟨-, -, hi, hj⟩ := hfits
    obtain ⟨rfl, ch, hch, rfl⟩ := h
    exact hpixel hi hj hch
  | neg i j ch =>
    obtain ⟨-, -, hi, hj, hch⟩ := hfits
    obtain ⟨rfl, rfl⟩ := h
    exact hpixel hi hj hch
  | _ i j =>
    obtain ⟨-, -, hi, hj⟩ := hfits
    obtain ⟨rfl, rfl⟩ := h
    simpa [channels] using hpixel (k := 0) hi hj (by decide)

theorem Buffers.storeAll_wf (l : List (BufId × Nat × Nat)) (m : Buffers)
    (h : ∀ b, (m.get b).wf = true) : ∀ b, ((m.storeAll l).get b).wf = true := by
  induction l generalizing m with
  | nil => exact h
  | cons x rest ih => exact ih _ (Buffers.write_wf _ _ _ _ h)

theorem Buffers.storeAll_below (p : Params) (l : List (BufId × Nat × Nat)) (m : Buffers)
    (hl : ∀ b off v, (b, off, v) ∈ l → off < capacity p b)
    (h : ∀ b, (m.get b).below (capacity p b) = true) :
    ∀ b, ((m.storeAll l).get b).below (capacity p b) = true := by
  induction l generalizing m with
  | nil => exact h
  | cons x rest ih =>
    obtain ⟨b, off, v⟩ := x
    exact ih _ (fun b' off' v' hmem => hl b' off' v' (List.mem_cons_of_mem _ hmem))
      (Buffers.write_below _ _ _ _ _ (hl b off v List.mem_cons_self) h)

/-- A lane's item keeps the invariant: what it stores lies in the image, which fits its buffers. -/
theorem Inv.runWork {s t : State} (h : Inv s) (hbusy : s.status.busy = true) {l : Lane} {w : Work}
    (hl : l ∈ s.lanes) (hw : w ∈ l.todo) (hwork : runWork w s = .ok t) : Inv t := by
  have hrunning := h.running hbusy
  have hbelow : ∀ b off v, (b, off, v) ∈ itemStores s.bufs s.lrows s.lcols w →
      off < capacity s.params b := fun b off v hmem =>
    Nat.lt_of_lt_of_le
      (itemWrites_lt_imageBytes (hrunning.band_stop_le hl) ((hrunning.lanes l hl).fits w hw)
        ((itemWrites_iff s s.bufs w b off).mpr ⟨v, hmem⟩))
      (hrunning.imageBytes_le_capacity b)
  refine h.of_sameControl (sameControl_runWork hwork) ?_ ?_
  all_goals rw [runWork_ok w s t hwork]
  · exact Buffers.storeAll_wf _ _ h.canonical
  · exact Buffers.storeAll_below _ _ _ hbelow h.inCapacity

/-- A lane replaced by one with the same place in the plan keeps what holds while a command runs. -/
theorem RunningInv.setLane {s : State} (h : RunningInv s) {k : Nat} {l l' : Lane}
    (hl : s.lanes[k]? = some l) (hband : l'.band = l.band) (hactive : l'.active = l.active)
    (hl' : LaneInv s l') : RunningInv (s.setLane k l') where
  rows := h.rows
  cols := h.cols
  workers := h.workers
  stages := h.stages
  plan := by
    obtain ⟨hk, rfl⟩ := List.getElem?_eq_some_iff.mp hl
    have hsame : (l'.band, l'.active) = (s.lanes.map fun l => (l.band, l.active))[k]'(by simpa) := by
      rw [List.getElem_map, hband, hactive]
    rw [State.setLane_lanes, List.map_set, hsame, List.set_getElem_self]
    exact h.plan
  lanes x hx := by
    have hinv : LaneInv s x := by
      obtain hold | rfl := List.mem_or_eq_of_mem_set hx
      · exact h.lanes x hold
      · exact hl'
    exact ⟨hinv.fits, hinv.inactive, hinv.finished⟩

theorem Inv.setLane {s : State} (h : Inv s) {k : Nat} {l l' : Lane} (hl : s.lanes[k]? = some l)
    (hband : l'.band = l.band) (hactive : l'.active = l.active) (hl' : LaneInv s l') :
    Inv (s.setLane k l') :=
  { h with running := fun hbusy => (h.running hbusy).setLane hl hband hactive hl' }

theorem laneTurn_keeps_inv {k n : Nat} {s t : State} (h : Inv s) (hturn : laneTurn k n s = .next t) :
    Inv t := by
  obtain rfl | ⟨l, hl, hphase, hactive, -, htodo, rfl⟩ |
    ⟨l, w, u, m, hl, hphase, hactive, hdone, hw, hwork, rfl⟩ := laneTurn_cases hturn
  · exact h
  · refine h.setLane hl rfl rfl ⟨?_, ?_, fun _ => htodo⟩
    · simp [htodo]
    · simp [hactive]
  · have hbusy := h.busy_of_phase hphase
    have hmem := List.mem_of_getElem? hl
    have hsame := sameControl_runWork hwork
    have hu : Inv u := h.runWork hbusy hmem (List.mem_of_getElem? hw) hwork
    have hlu : u.lanes[k]? = some l := hsame.lanes ▸ hl
    have hlane := (hu.running (hsame.busy.trans hbusy)).lanes l (List.mem_of_getElem? hlu)
    refine hu.setLane hlu rfl rfl ⟨fun x hx => hlane.fits x (List.mem_of_mem_eraseIdx hx), ?_, ?_⟩
    · simp [hactive]
    · simp [hdone]

/-! ## Every turn -/

theorem takeTurn_keeps_inv {turn : Turn} {s t : State} (h : Inv s) (hturn : takeTurn turn s = .next t) :
    Inv t := by
  cases turn with
  | host => exact hostTurn_keeps_inv h hturn
  | sequencer => exact sequencerTurn_keeps_inv h hturn
  | lane k n => exact laneTurn_keeps_inv h hturn
  | reset => cases hturn; exact h.hardReset

/-- Settles O30: using up a turn leaves what the invariant speaks of, and every agent's turn keeps it. -/
theorem stepKeepsInvariant : Obligations.StepKeepsInvariant := by
  unfold Obligations.StepKeepsInvariant
  intro s t h hstep
  exact takeTurn_keeps_inv (h.congr (sameControl_turnTaken s) s.turnTaken_bufs) hstep

theorem paramsOk_buildParams : paramsOk buildParams = true := by
  unfold buildParams
  split
  case isTrue hraw => exact hraw
  case isFalse => decide

/-- Settles O29: a legal build resets to the invariant, and the machine's own build is legal; RUN's
data flow is about stages A and B, and after reset the phase is IDLE. -/
theorem invariantAtReset : Obligations.InvariantAtReset := by
  unfold Obligations.InvariantAtReset
  refine ⟨fun _ => inv_resetWith, inv_resetWith paramsOk_buildParams, ?_, ?_⟩
  all_goals intro hphase; cases hphase

end Sys2Proof.Machine

/-! PROOFS. What the register window answers to aligned 32-bit reads and writes (O36, O37). -/

namespace Sys2Proof.Machine

/-- An aligned 32-bit read of the register window returns the register's value and changes nothing
else (R20, R42). -/
theorem hostRead_reg (s : State) {off : Nat} (hoff : off < 0x100) (halign : off % 4 = 0) :
    s.hostRead (.reg off) 32 = .next (s.returned (s.readReg off)) :=
  if_pos ((regAccessOk_iff 32 off).mpr ⟨rfl, halign, hoff⟩)

/-- An aligned 32-bit write to the register window is the register's write (R20, R43). -/
theorem hostWrite_reg (s : State) {off : Nat} (hoff : off < 0x100) (halign : off % 4 = 0) (v : Word) :
    s.hostWrite (.reg off) 32 v.toNat = s.writeReg off v := by
  have hok := (regAccessOk_iff 32 off).mpr ⟨rfl, halign, hoff⟩
  refine (if_pos hok).trans ?_
  rw [BitVec.ofNat_toNat, BitVec.setWidth_eq]

theorem readReg_cmd (s : State) : s.readReg 0x00 = 0 := rfl
theorem readReg_status (s : State) : s.readReg 0x04 = s.status.word := rfl
theorem readReg_rows (s : State) : s.readReg 0x08 = s.rows.setWidth 32 := rfl
theorem readReg_cols (s : State) : s.readReg 0x0C = s.cols.setWidth 32 := rfl
theorem readReg_nworkers (s : State) : s.readReg 0x10 = s.nworkers.setWidth 32 := rfl

/-- The offsets from 0x18 on are reserved and read 0 (R27). -/
theorem readReg_reserved (s : State) {off : Nat} (h : 0x18 ≤ off) : s.readReg off = 0 := by
  rw [State.readReg, if_neg (show off ≠ 0x04 by omega), if_neg (show off ≠ 0x08 by omega),
    if_neg (show off ≠ 0x0C by omega), if_neg (show off ≠ 0x10 by omega),
    if_neg (show off ≠ 0x14 by omega)]

/-- A field of 16 bits reads as its number (R23 to R26). -/
theorem toNat_setWidth_half (x : Half) : (x.setWidth 32).toNat = x.toNat :=
  BitVec.toNat_setWidth_of_le (by decide)

/-- Settles O36: the read returns `readReg`, taken register by register. -/
theorem registerReads : Obligations.RegisterReads := by
  unfold Obligations.RegisterReads
  intro s off ts rest hoff halign
  refine ⟨s.readReg off, ?_, ?_, ?_, ?_, ?_, ?_, ?_, readReg_reserved s⟩
  · exact hostRead_reg { s with sched := ts, hostOps := rest } hoff halign
  · rintro rfl; exact readReg_cmd s
  · rintro rfl; rw [readReg_status]; exact s.status.word_fields
  · rintro rfl; rw [readReg_rows, toNat_setWidth_half]
  · rintro rfl; rw [readReg_cols, toNat_setWidth_half]
  · rintro rfl; rw [readReg_nworkers, toNat_setWidth_half]
  · rintro rfl hnmax
    rw [readReg_hwpar, toNat_setWidth_half, BitVec.toNat_ofNat]
    exact Nat.mod_eq_of_lt (by omega)

/-- A host write of STATUS clears OVR if bit 3 of the number written is set, and nothing else (R22). -/
theorem Status.hostWrite_eq (t : Status) (v : Word) :
    t.hostWrite v = { t with ovr := if v.toNat / 8 % 2 = 1 then false else t.ovr } := by
  have hbit : v.getLsbD 3 = decide (v.toNat / 8 % 2 = 1) := by
    rw [BitVec.getLsbD, Nat.testBit_eq_decide_div_mod_eq]
  rw [Status.hostWrite, hbit]
  by_cases hset : v.toNat / 8 % 2 = 1 <;> simp [hset]

/-- What a write to the register window at an offset other than CMD changes, field by field (R22 to
R27). -/
theorem writeReg_eq (s : State) {off : Nat} (v : Word) (hcmd : off ≠ offCMD) :
    s.writeReg off v = .next { s with
      status := { s.status with
        ovr := if off = offSTATUS ∧ v.toNat / 8 % 2 = 1 then false else s.status.ovr }
      rows := if off = offROWS then v.extractLsb' 0 16 else s.rows
      cols := if off = offCOLS then v.extractLsb' 0 16 else s.cols
      nworkers := if off = offNWORKERS then v.extractLsb' 0 16 else s.nworkers } := by
  have hlow : v.setWidth 16 = v.extractLsb' 0 16 := BitVec.setWidth_eq_extractLsb' (by decide)
  rw [State.writeReg, if_neg hcmd, hlow]
  by_cases hstatus : off = offSTATUS
  · subst hstatus; simp [Status.hostWrite_eq]
  by_cases hrows : off = offROWS
  · subst hrows; simp
  by_cases hcols : off = offCOLS
  · subst hcols; simp
  by_cases hworkers : off = offNWORKERS
  · subst hworkers; simp
  · simp [hstatus, hrows, hcols, hworkers]

/-- Settles O37: the write is `writeReg`, and away from CMD that changes only the named register. -/
theorem registerWrites : Obligations.RegisterWrites := by
  unfold Obligations.RegisterWrites
  intro s off v ts rest hpos hoff halign
  exact (hostWrite_reg { s with sched := ts, hostOps := rest } hoff halign v).trans
    (writeReg_eq _ v hpos.ne')

end Sys2Proof.Machine

/-! PROOFS. Which bytes a work item reads, and what it leaves of every other byte (O18, O19). -/

namespace Sys2Proof.Machine

/-! ## The bytes a computation reads -/

/-- The computation reads exactly the bytes `reads` from the buffers of `s`: it faults only on one of
them that is `uninit`, and where it answers every one of them is written (R46). -/
def ReadsBytes (s : State) (reads : BufId → Nat → Prop) {α : Type} : Except Fault α → Prop
  | .ok _ => ∀ b off, reads b off → s.bufs.read b off ≠ none
  | .error f => ∃ b off, f = .uninitRead b off ∧ reads b off ∧ s.bufs.read b off = none

section
variable {α β : Type} {s : State} {reads reads' : BufId → Nat → Prop}

theorem ReadsBytes.of_iff {x : Except Fault α} (h : ReadsBytes s reads x)
    (hiff : ∀ b off, reads b off ↔ reads' b off) : ReadsBytes s reads' x := by
  have hsame : reads = reads' := funext₂ fun b off => propext (hiff b off)
  exact hsame ▸ h

theorem ReadsBytes.ok (s : State) (a : α) : ReadsBytes s (fun _ _ => False) (.ok a) :=
  fun _ _ => False.elim

theorem ReadsBytes.bind {x : Except Fault α} {f : α → Except Fault β} (hx : ReadsBytes s reads x)
    (hf : ∀ a, ReadsBytes s reads' (f a)) :
    ReadsBytes s (fun b off => reads b off ∨ reads' b off) (x >>= f) := by
  cases x with
  | error e =>
    obtain ⟨b, off, he, hread, hnone⟩ := hx
    exact ⟨b, off, he, .inl hread, hnone⟩
  | ok a =>
    have hfa := hf a
    change ReadsBytes s _ (f a)
    cases hres : f a with
    | error e =>
      obtain ⟨b, off, he, hread, hnone⟩ := hres ▸ hfa
      exact ⟨b, off, he, .inr hread, hnone⟩
    | ok c =>
      rw [hres] at hfa
      exact fun b off hread => hread.elim (hx b off) (hfa b off)

/-- What is computed from the bytes read reads nothing more. -/
theorem ReadsBytes.bind_pure {x : Except Fault α} (hx : ReadsBytes s reads x) (g : α → β) :
    ReadsBytes s reads (x >>= fun a => pure (g a)) :=
  (hx.bind fun a => .ok s (g a)).of_iff fun _ _ => iff_of_eq (or_false _)

/-- A computation faults exactly when a byte it reads is `uninit`. -/
theorem ReadsBytes.fault_iff {x : Except Fault α} (h : ReadsBytes s reads x) :
    (∃ f, x = .error f) ↔ ∃ b off, reads b off ∧ s.bufs.read b off = none := by
  cases x with
  | error e =>
    obtain ⟨b, off, -, hread, hnone⟩ := h
    exact ⟨fun _ => ⟨b, off, hread, hnone⟩, fun _ => ⟨e, rfl⟩⟩
  | ok a =>
    constructor
    · rintro ⟨f, hf⟩; cases hf
    · rintro ⟨b, off, hread, hnone⟩; exact absurd hnone (h b off hread)

end

/-! ## What a work item reads -/

theorem readsBytes_px (s : State) (b : BufId) (i j k : Nat) :
    ReadsBytes s (fun b' off => b' = b ∧ off = pixelOffset s.lcols b i j k) (s.px b i j k) := by
  rw [State.px, fetch_eq]
  split
  case isTrue hnone => exact ⟨b, _, rfl, ⟨rfl, rfl⟩, hnone⟩
  case isFalse hsome => rintro _ _ ⟨rfl, rfl⟩; exact hsome

/-- GRAY and SEPIA read the three channels of their pixel (R80, R83). -/
theorem readsBytes_srcPixel (s : State) (i j : Nat) (g : Nat → Nat → Nat → State) :
    ReadsBytes s (fun b off => b = .src ∧ ∃ ch, ch < 3 ∧ off = (i * s.lcols + j) * 3 + ch)
      (do let c0 ← s.px .src i j 0
          let c1 ← s.px .src i j 1
          let c2 ← s.px .src i j 2
          return g c0 c1 c2) := by
  have hreads := (readsBytes_px s .src i j 0).bind fun c0 => (readsBytes_px s .src i j 1).bind fun c1 =>
    (readsBytes_px s .src i j 2).bind_pure (g c0 c1)
  refine hreads.of_iff fun b off => ?_
  simp only [pixelOffset, channels, ← and_or_left]
  refine and_congr_right fun _ => ⟨?_, ?_⟩
  · rintro (h | h | h) <;> exact ⟨_, by decide, h⟩
  · rintro ⟨ch, hch, rfl⟩; omega

/-- The byte of GRAY that a window position of pixel `(i, j)` reads, if its tap is in bounds (R86). -/
def tapReads (s : State) (i j : Nat) (pos : Nat × Nat) (b : BufId) (off : Nat) : Prop :=
  (1 ≤ i + pos.1 ∧ i + pos.1 < s.lrows + 1 ∧ 1 ≤ j + pos.2 ∧ j + pos.2 < s.lcols + 1) ∧
    b = .gray ∧ off = (i + pos.1 - 1) * s.lcols + (j + pos.2 - 1)

theorem readsBytes_tapValue (s : State) (i j : Nat) (pos : Nat × Nat) :
    ReadsBytes s (tapReads s i j pos) (tapValue s i j pos) := by
  unfold tapValue
  split
  case isTrue hin =>
    refine (readsBytes_px s .gray _ _ 0).of_iff fun b off => ?_
    simp [tapReads, hin, pixelOffset, channels]
  case isFalse hout =>
    exact (ReadsBytes.ok s 0).of_iff fun b off => iff_of_false id fun h => hout h.1

theorem readsBytes_tapValues (s : State) (i j : Nat) (ps : List (Nat × Nat)) :
    ReadsBytes s (fun b off => ∃ pos ∈ ps, tapReads s i j pos b off) (tapValues s i j ps) := by
  induction ps with
  | nil => exact (ReadsBytes.ok s []).of_iff fun b off => by simp
  | cons p ps ih =>
    have hreads := (readsBytes_tapValue s i j p).bind fun v => ih.bind_pure (v :: ·)
    exact hreads.of_iff fun b off => by simp

theorem mem_windowPositions (r c : Nat) : (r, c) ∈ windowPositions ↔ r < 3 ∧ c < 3 := by
  simp only [windowPositions, List.mem_cons, Prod.mk.injEq, List.not_mem_nil, or_false]
  omega

/-- The window positions in bounds are the pixels at most one row and one column away (R86). -/
theorem windowReads_iff (s : State) (i j : Nat) (b : BufId) (off : Nat) :
    (∃ pos ∈ windowPositions, tapReads s i j pos b off) ↔ itemReads s (.sobel i j) b off := by
  constructor
  · rintro ⟨⟨r, c⟩, hpos, hin, rfl, rfl⟩
    rw [mem_windowPositions] at hpos
    dsimp only at hin
    exact ⟨rfl, i + r - 1, j + c - 1, by omega, by omega, by omega, by omega, by omega, by omega, rfl⟩
  · rintro ⟨rfl, i', j', hi, hj, hi₁, hi₂, hj₁, hj₂, rfl⟩
    have hrow : i + (i' + 1 - i) = i' + 1 := by omega
    have hcol : j + (j' + 1 - j) = j' + 1 := by omega
    refine ⟨(i' + 1 - i, j' + 1 - j), (mem_windowPositions _ _).mpr ⟨by omega, by omega⟩, ?_, rfl, ?_⟩
    · dsimp only; omega
    · simp only [hrow, hcol, Nat.add_sub_cancel]

/-- A work item reads exactly the bytes `itemReads` lists. -/
theorem readsBytes_runWork (w : Work) (s : State) : ReadsBytes s (itemReads s w) (runWork w s) := by
  cases w with
  | gray i j => exact readsBytes_srcPixel s i j _
  | sepia i j => exact readsBytes_srcPixel s i j _
  | neg i j ch => exact (readsBytes_px s .src i j ch).bind_pure _
  | sobel i j =>
    exact ((readsBytes_tapValues s i j windowPositions).bind_pure _).of_iff (windowReads_iff s i j)
  | thrinv i j =>
    refine ((readsBytes_px s .tin i j 0).bind_pure _).of_iff fun b off => ?_
    simp [itemReads, pixelOffset, channels]

/-- Settles O18: the loop bodies read the bytes of `itemReads`, one after another, before they store. -/
theorem workItemFaultsOnUninit : Obligations.WorkItemFaultsOnUninit := by
  unfold Obligations.WorkItemFaultsOnUninit
  intro w s
  have hreads := readsBytes_runWork w s
  refine ⟨hreads.fault_iff, fun f hf => ?_⟩
  rw [hf] at hreads
  exact hreads

/-- Settles O19: an item that runs makes its stores and nothing else, and the bytes it stores are
those of `itemWrites`. -/
theorem workItemChangesOnlyItsBytes : Obligations.WorkItemChangesOnlyItsBytes := by
  unfold Obligations.WorkItemChangesOnlyItsBytes
  intro w s t h
  obtain rfl := runWork_ok w s t h
  refine ⟨rfl, fun b off hwrite => ?_, fun b off hother => ?_⟩
  · obtain ⟨v, hstore⟩ := (itemWrites_iff s s.bufs w b off).mp hwrite
    rw [read_storeAll_item hstore]
    exact Option.some_ne_none _
  · exact read_storeAll_other _ _ _ _ fun v hstore =>
      hother ((itemWrites_iff s s.bufs w b off).mpr ⟨v, hstore⟩)

end Sys2Proof.Machine

/-! PROOFS. When an access of the host has a meaning, when it races with the running command, and what
it then answers (O38, O39, O40, O42). -/

namespace Sys2Proof.Machine

/-! ## The form of an access -/

/-- The access has a meaning: 32 bits at a multiple of 4 in the register window, or 8 bits below the
capacity of a buffer (R41). -/
def AccessOk (p : Params) (place : Place) (bits : Nat) : Prop :=
  (∃ off, locate p place = some (.reg off) ∧ bits = 32 ∧ off % 4 = 0 ∧ off < 0x100) ∨
    (∃ b off, locate p place = some (.buf b off) ∧ bits = 8 ∧
      off < p.maxRows * p.maxCols * channels b)

theorem accessOk_reg_iff {p : Params} {place : Place} {bits off : Nat}
    (h : locate p place = some (.reg off)) : AccessOk p place bits ↔ regAccessOk bits off = true := by
  simp [AccessOk, h, regAccessOk_iff]

theorem accessOk_buf_iff {p : Params} {place : Place} {b : BufId} {bits off : Nat}
    (h : locate p place = some (.buf b off)) :
    AccessOk p place bits ↔ bufAccessOk p b bits off = true := by
  simp [AccessOk, h, bufAccessOk_iff]

theorem not_accessOk {p : Params} {place : Place} {bits : Nat}
    (hreg : ∀ off, locate p place ≠ some (.reg off))
    (hbuf : ∀ b off, locate p place ≠ some (.buf b off)) : ¬ AccessOk p place bits := by
  rintro (⟨off, hloc, -⟩ | ⟨b, off, hloc, -⟩)
  · exact hreg off hloc
  · exact hbuf b off hloc

theorem hostRead_badAccess_iff (s : State) (place : Place) (bits : Nat) :
    s.hostRead place bits = .fault .hostBadAccess ↔ ¬ AccessOk s.params place bits := by
  unfold State.hostRead
  split
  case h_1 off hloc => rw [accessOk_reg_iff hloc]; split <;> simp [*]
  case h_2 b off hloc =>
    rw [accessOk_buf_iff hloc]
    split
    case isFalse hok => simp [hok]
    case isTrue hok =>
      split
      case isTrue => simp [hok]
      case isFalse =>
        split
        case h_1 => simp [hok]
        case h_2 f hf => obtain ⟨-, rfl⟩ := fetch_error.mp hf; simp [hok]
  case h_3 hreg hbuf => simp [not_accessOk hreg hbuf]

theorem exec_ne_fault (i : Instr) (s : State) (f : Fault) : exec i s ≠ .fault f := by
  rw [exec_cases]
  split
  · exact nofun
  · split <;> exact nofun

theorem writeCmd_ne_fault (s : State) (w : Word) (f : Fault) : s.writeCmd w ≠ .fault f := by
  unfold State.writeCmd
  split
  case isTrue => exact nofun
  case isFalse =>
    split
    case h_1 i _ => exact exec_ne_fault i s f
    case h_2 => exact nofun

/-- A register write never faults (R20 to R27, R67). -/
theorem writeReg_ne_fault (s : State) (off : Nat) (v : Word) (f : Fault) :
    s.writeReg off v ≠ .fault f := by
  unfold State.writeReg
  split_ifs
  · exact writeCmd_ne_fault s v f
  all_goals exact nofun

theorem hostWrite_badAccess_iff (s : State) (place : Place) (bits value : Nat) :
    s.hostWrite place bits value = .fault .hostBadAccess ↔ ¬ AccessOk s.params place bits := by
  unfold State.hostWrite
  split
  case h_1 off hloc => rw [accessOk_reg_iff hloc]; split <;> simp [writeReg_ne_fault, *]
  case h_2 b off hloc =>
    rw [accessOk_buf_iff hloc]
    split
    case isFalse hok => simp [hok]
    case isTrue hok => cases s.hostRaces true b off <;> simp [hok]
  case h_3 hreg hbuf => simp [not_accessOk hreg hbuf]

/-- Settles O38: a read and a write are checked for their form first, and nothing after that check
answers `HostBadAccess`. -/
theorem onlyAdmittedAccesses : Obligations.OnlyAdmittedAccesses := by
  unfold Obligations.OnlyAdmittedAccesses
  rintro s op place bits value rest (rfl | rfl)
  · exact hostRead_badAccess_iff { s with hostOps := rest } place bits
  · exact hostWrite_badAccess_iff { s with hostOps := rest } place bits value

/-! ## What a read returns -/

/-- A host read of `bits` bits at `place` returns `v`: a register's value, or a written byte,
zero-extended, where R51 forbids no read (R42). -/
def State.ReadReturns (s : State) (place : Place) (bits : Nat) (v : Word) : Prop :=
  (∃ off, locate s.params place = some (.reg off) ∧ regAccessOk bits off = true ∧ v = s.readReg off) ∨
    (∃ b off x, locate s.params place = some (.buf b off) ∧ bufAccessOk s.params b bits off = true ∧
      s.hostRaces false b off = false ∧ s.bufs.read b off = some x ∧ v = x.setWidth 32)

/-- A host read that answers records the value it returns, and nothing else changes (R44). -/
theorem hostRead_next_iff (s t : State) (place : Place) (bits : Nat) :
    s.hostRead place bits = .next t ↔ ∃ v, s.ReadReturns place bits v ∧ t = s.returned v := by
  constructor
  · intro h
    obtain ⟨off, hloc, hok, rfl⟩ | ⟨b, off, n, hloc, hok, hrace, hfetch, rfl⟩ := hostRead_cases h
    · exact ⟨_, .inl ⟨off, hloc, hok, rfl⟩, rfl⟩
    · obtain ⟨x, hx, rfl⟩ := fetch_ok.mp hfetch
      exact ⟨_, .inr ⟨b, off, x, hloc, hok, hrace, hx, rfl⟩, by rw [BitVec.ofNat_toNat]⟩
  · rintro ⟨v, ⟨off, hloc, hok, rfl⟩ | ⟨b, off, x, hloc, hok, hrace, hx, rfl⟩, rfl⟩
    · simp [State.hostRead, hloc, hok]
    · simp [State.hostRead, State.fetch, hloc, hok, hrace, hx]

/-- Settles O42: what a read returns does not depend on the host's own lists, which is all that the
first read changes. -/
theorem hostReadsHaveNoSideEffects : Obligations.HostReadsHaveNoSideEffects := by
  unfold Obligations.HostReadsHaveNoSideEffects
  intro s u place bits rest h
  obtain ⟨v, hv, rfl⟩ :=
    (hostRead_next_iff { s with hostOps := .read place bits :: rest } u place bits).mp h
  refine ⟨v, rfl, ?_⟩
  exact (hostRead_next_iff { s with hostOps := rest, hostReads := v :: s.hostReads } _ place bits).mpr
    ⟨v, hv, rfl⟩

/-! ## Accesses to a buffer byte below capacity -/

section
variable {s : State} {b : BufId} {off : Nat} (hoff : off < s.params.maxRows * s.params.maxCols * channels b)
include hoff

theorem bufAccessOk_byte : bufAccessOk s.params b 8 off = true :=
  (bufAccessOk_iff _ _ _ _).mpr ⟨rfl, hoff⟩

/-- A read of a buffer byte: the conflict, then the byte (R42, R46, R51; log 10). -/
theorem hostRead_byte : s.hostRead (.buf b off) 8 =
    if s.hostRaces false b off = true then .fault (.hostRace b off)
    else (s.bufs.read b off).elim (.fault (.uninitRead b off))
      fun x => .next (s.returned (x.setWidth 32)) := by
  refine (if_pos (bufAccessOk_byte hoff)).trans (if_congr Iff.rfl rfl ?_)
  unfold State.fetch
  cases s.bufs.read b off with
  | none => rfl
  | some x => simp

/-- A write of a buffer byte: the conflict, else the byte is stored (R43, R51). -/
theorem hostWrite_byte (value : Nat) : s.hostWrite (.buf b off) 8 value =
    if s.hostRaces true b off = true then .fault (.hostRace b off)
    else .next { s with bufs := s.bufs.write b off (BitVec.ofNat 8 value) } :=
  if_pos (bufAccessOk_byte hoff)

theorem hostRead_race_iff :
    s.hostRead (.buf b off) 8 = .fault (.hostRace b off) ↔ s.hostRaces false b off = true := by
  rw [hostRead_byte hoff]
  split
  case isTrue hrace => simp [hrace]
  case isFalse hrace => cases s.bufs.read b off <;> simp [hrace]

theorem hostWrite_race_iff (value : Nat) :
    s.hostWrite (.buf b off) 8 value = .fault (.hostRace b off) ↔ s.hostRaces true b off = true := by
  rw [hostWrite_byte hoff]
  split <;> simp [*]

end

/-- Settles O39: without a conflict a read comes down to the byte's mark and a write to
`Buffers.write`. -/
theorem hostByteAccesses : Obligations.HostByteAccesses := by
  unfold Obligations.HostByteAccesses
  intro s b off v ts rest hoff himage
  have hread := hostRead_byte (s := { s with sched := ts, hostOps := rest }) hoff
  rw [if_neg fun hrace => himage (by simpa using (hostRaces_iff _ _ _ _).mp hrace)] at hread
  refine ⟨fun x hx => ?_, fun hnone => ?_, fun hinput => ?_⟩
  · exact hread.trans (by simp [hx, State.returned])
  · exact hread.trans (by simp [hnone])
  · have hfree : ¬ State.hostRaces { s with sched := ts, hostOps := rest } true b off = true := by
      rw [hostRaces_iff]
      rintro ⟨hbusy, ⟨-, hmem⟩ | hwritten⟩
      · exact hinput ⟨hbusy, hmem⟩
      · exact himage ⟨hbusy, hwritten⟩
    have hwrite := (hostWrite_byte (s := { s with sched := ts, hostOps := rest }) hoff v.toNat).trans
      (if_neg hfree)
    refine ⟨_, hwrite, rfl, ?_, fun b' off' hother => ?_⟩
    · simp
    · rw [Buffers.read_write, if_neg (by tauto)]

/-- Settles O40: an access below capacity faults `HostRace` exactly when `hostRaces` says so, which is
R51; R63's tables are `cmdReads` and `cmdWrites` themselves. -/
theorem conflictingAccessesRace : Obligations.ConflictingAccessesRace := by
  unfold Obligations.ConflictingAccessesRace
  refine ⟨fun s b off value ts rest hbusy hoff => ⟨?_, ?_⟩, ?_, ?_⟩
  · refine (hostWrite_race_iff (s := { s with sched := ts, hostOps := rest }) hoff value).trans ?_
    rw [hostRaces_iff]
    simp [hbusy]
  · refine (hostRead_race_iff (s := { s with sched := ts, hostOps := rest }) hoff).trans ?_
    rw [hostRaces_iff]
    simp [hbusy]
  · exact ⟨rfl, rfl, rfl, rfl, rfl, rfl⟩
  · exact ⟨rfl, rfl, rfl, rfl, rfl, rfl⟩

end Sys2Proof.Machine

/-! PROOFS. The windows of the address map do not meet, so a bus address has one location (O44). -/

namespace Sys2Proof.Machine

/-- The bus address lies in the window of buffer `b` (R40). -/
def InBufWindow (p : Params) (b : BufId) (addr : Nat) : Prop :=
  bufStart p b ≤ addr ∧ addr < bufStart p b + capacity p b

/-- The search finds the buffer whose window holds the address, if no other listed one does. -/
theorem locateBuf_of_unique {p : Params} {addr : Nat} {b : BufId} {bs : List BufId} (hmem : b ∈ bs)
    (hin : InBufWindow p b addr) (hunique : ∀ b', InBufWindow p b' addr → b' = b) :
    locateBuf p addr bs = some (.buf b (addr - bufStart p b)) := by
  induction bs with
  | nil => cases hmem
  | cons b' bs ih =>
    rw [locateBuf]
    split
    case isTrue hin' => rw [hunique b' hin']
    case isFalse hout =>
      obtain rfl | hrest := List.mem_cons.mp hmem
      · exact absurd hin hout
      · exact ih hrest

theorem locateBuf_of_none {p : Params} {addr : Nat} (bs : List BufId)
    (hout : ∀ b, ¬ InBufWindow p b addr) : locateBuf p addr bs = none := by
  induction bs with
  | nil => rfl
  | cons b bs ih => exact (if_neg (hout b)).trans ih

theorem bufIds_bufNumber (b : BufId) : bufIds[bufNumber b]? = some b := by cases b <;> rfl

theorem mem_bufIds (b : BufId) : b ∈ bufIds := List.mem_of_getElem? (bufIds_bufNumber b)

theorem bufNumber_injective : Function.Injective bufNumber := fun a b h =>
  Option.some.inj (by rw [← bufIds_bufNumber a, ← bufIds_bufNumber b, h])

/-- A buffer's window is no longer than the stride (R31, R40). -/
theorem capacity_le_bufStride {p : Params} (hp : paramsOk p = true) (b : BufId) :
    capacity p b ≤ p.bufStride := by
  obtain ⟨-, -, -, hstride, -⟩ := (paramsOk_iff p).mp hp
  have hchannels : channels b ≤ 3 := by cases b <;> decide
  calc p.maxRows * p.maxCols * channels b ≤ p.maxRows * p.maxCols * 3 := Nat.mul_le_mul_left _ hchannels
    _ = 3 * p.maxRows * p.maxCols := by ring
    _ ≤ p.bufStride := hstride

/-- The number of the buffer in whose window an address lies is its distance in strides (R40). -/
theorem bufNumber_of_inBufWindow {p : Params} (hp : paramsOk p = true) {b : BufId} {addr : Nat}
    (h : InBufWindow p b addr) : (addr - p.bufBase) / p.bufStride = bufNumber b := by
  obtain ⟨hlo, hhi⟩ := h
  have hlen := capacity_le_bufStride hp b
  unfold bufStart at hlo hhi
  refine Nat.div_eq_of_lt_le (by omega) ?_
  rw [Nat.succ_mul]
  omega

/-- No two buffer windows hold the same address (R40). -/
theorem InBufWindow.unique {p : Params} (hp : paramsOk p = true) {b b' : BufId} {addr : Nat}
    (h : InBufWindow p b addr) (h' : InBufWindow p b' addr) : b' = b :=
  bufNumber_injective ((bufNumber_of_inBufWindow hp h').symm.trans (bufNumber_of_inBufWindow hp h))

/-- The register window holds no address of a buffer window (R40). -/
theorem InBufWindow.not_reg {p : Params} (hp : paramsOk p = true) {b : BufId} {addr : Nat}
    (h : InBufWindow p b addr) : ¬ (p.regBase ≤ addr ∧ addr < p.regBase + 0x100) := by
  obtain ⟨-, -, -, -, hapart⟩ := (paramsOk_iff p).mp hp
  obtain ⟨hlo, hhi⟩ := h
  have hb := hapart b
  omega

/-- Settles O44: the register window is looked up first and meets no buffer window, and the buffer
windows do not meet each other. -/
theorem busAddressesResolve : Obligations.BusAddressesResolve := by
  unfold Obligations.BusAddressesResolve
  intro p hp
  refine ⟨fun off hoff => ?_, fun b off hoff => ?_, fun addr hreg hbuf => ?_⟩
  · rw [locate, if_pos ⟨Nat.le_add_right _ _, Nat.add_lt_add_left hoff _⟩, Nat.add_sub_cancel_left]
  · have hin : InBufWindow p b (bufStart p b + off) :=
      ⟨Nat.le_add_right _ _, Nat.add_lt_add_left hoff _⟩
    change locate p (.bus (bufStart p b + off)) = _
    rw [locate, if_neg (hin.not_reg hp), locateBuf_of_unique (mem_bufIds b) hin fun b' => hin.unique hp,
      Nat.add_sub_cancel_left]
  · rw [locate, if_neg hreg, locateBuf_of_none _ hbuf]

end Sys2Proof.Machine

/-! PROOFS. The decoder and the encoder of CMD words agree, and what the step of a CMD write and of
`wait` does (O1 to O4, O43). -/

namespace Sys2Proof

/-! ## The decoder and the encoder (R59 to R62) -/

/-- What PerInstr.lean says of each command, of every command. -/
theorem wordForm (i : Instr) : Laws.WordForm.Statement i := by
  cases i with
  | gray => exact Laws.WordForm.gray
  | sepia => exact Laws.WordForm.sepia
  | neg => exact Laws.WordForm.neg
  | sobel => exact Laws.WordForm.sobel
  | thrinv => exact Laws.WordForm.thrinv
  | run => exact Laws.WordForm.run

/-- RSVD and OP make up the whole word (R59). -/
theorem rsvd_append_op (w : Word) : (CmdWord.rsvd w ++ CmdWord.op w : BitVec 32) = w :=
  (BitVec.extractLsb'_append_extractLsb'_eq_extractLsb' rfl).trans BitVec.extractLsb'_eq_self

/-- A word selects command `i` through its two fields (R59, R61). -/
theorem decode_eq_ok_iff (w : Word) (i : Instr) :
    decode w = .ok i ↔ CmdWord.rsvd w = 0 ∧ decodeOp (CmdWord.op w) = some i := by
  unfold decode
  split
  case isTrue hrsvd =>
    split
    case h_1 j hj => simp [hrsvd, hj]
    case h_2 hnone => simp [hnone]
  case isFalse hrsvd => exact ⟨nofun, fun ⟨hzero, _⟩ => absurd hzero hrsvd⟩

theorem decode_eq_error_iff (w : Word) :
    decode w = .error .illegalCommand ↔ ∀ i, decode w ≠ .ok i := by
  rcases decode w with ⟨⟨⟩⟩ | i <;> simp

/-- The opcode map sends no OP to a command but the command's own. -/
theorem opcode_of_decodeOp {op : BitVec 4} {i : Instr} (h : decodeOp op = some i) : opcode i = op := by
  revert op
  cases i <;> decide

theorem decodeOp_isSome_iff (op : BitVec 4) :
    (∃ i, decodeOp op = some i) ↔ 1 ≤ op.toNat ∧ op.toNat ≤ 6 := by
  rw [← Option.isSome_iff_exists]
  revert op
  decide

theorem decode_encode (i : Instr) : decode (encode i) = .ok i := by
  obtain ⟨-, hrsvd, -, hop⟩ := wordForm i
  exact (decode_eq_ok_iff _ _).mpr ⟨hrsvd, hop⟩

theorem encode_of_decode {w : Word} {i : Instr} (h : decode w = .ok i) : encode i = w := by
  obtain ⟨hrsvd, hop⟩ := (decode_eq_ok_iff w i).mp h
  calc encode i = CmdWord.rsvd w ++ CmdWord.op w := by rw [hrsvd, ← opcode_of_decodeOp hop]; rfl
    _ = w := rsvd_append_op w

/-- R61's condition is all a word needs to select a command. -/
theorem decode_isOk_iff (w : Word) : (∃ i, decode w = .ok i) ↔
    CmdWord.rsvd w = 0 ∧ 1 ≤ (CmdWord.op w).toNat ∧ (CmdWord.op w).toNat ≤ 6 := by
  simp only [decode_eq_ok_iff, exists_and_left, decodeOp_isSome_iff]

/-- Every word R61 does not name is rejected by name (R62). -/
theorem decode_illegal {w : Word}
    (h : ¬ (CmdWord.rsvd w = 0 ∧ 1 ≤ (CmdWord.op w).toNat ∧ (CmdWord.op w).toNat ≤ 6)) :
    decode w = .error .illegalCommand :=
  (decode_eq_error_iff w).mpr fun i hi => h ((decode_isOk_iff w).mp ⟨i, hi⟩)

/-- Settles O1: a word is its RSVD and OP fields, and the opcode map pairs the OP values 1 to 6 with the
commands. -/
theorem decodeAgreesWithEncode : Obligations.DecodeAgreesWithEncode := by
  unfold Obligations.DecodeAgreesWithEncode
  refine ⟨fun i _ => decode_encode i, fun w i => encode_of_decode, fun w => ?_, ?_⟩
  · split
    case isTrue hselects => exact (decode_isOk_iff w).mpr hselects
    case isFalse hillegal => exact decode_illegal hillegal
  · decide

/-! ## The words of the opcode table -/

/-- The bytes a bus shows for a word make up that word (R38). -/
theorem decodeBytes_busBytes (w : Word) : decodeBytes (busBytes w) = decode w := by
  refine congrArg decode ?_
  rw [ofBusBytes, BitVec.extractLsb'_append_extractLsb'_eq_extractLsb' (show 24 = 16 + 8 from rfl),
    BitVec.extractLsb'_append_extractLsb'_eq_extractLsb' (show 16 = 8 + 8 from rfl),
    BitVec.extractLsb'_append_extractLsb'_eq_extractLsb' (show 8 = 0 + 8 from rfl)]
  exact BitVec.extractLsb'_eq_self

/-- A 32-bit table word is decoded as a CMD word. -/
theorem decodeTableWord_toNat (w : Word) : decodeTableWord 32 w.toNat = (decode w).toOption := by
  have hword : BitVec.ofNat 32 (w.toNat % 2 ^ 32) = w := by
    rw [Nat.mod_eq_of_lt w.isLt, BitVec.ofNat_toNat, BitVec.setWidth_eq]
  rw [decodeTableWord, if_pos le_rfl, hword, decodeBytes_busBytes]
  cases decode w <;> rfl

/-- Settles O2: a table word is looked up by `decode`; the first six are the commands' own words, the
others break R61's condition. -/
theorem writtenOutWordsDecode : Obligations.WrittenOutWordsDecode := by
  unfold Obligations.WrittenOutWordsDecode
  have hlegal (i : Instr) : decodeTableWord 32 (encode i).toNat = some i := by
    rw [decodeTableWord_toNat, decode_encode, Except.toOption]
  have hillegal {w : Word} (hw : decode w = .error .illegalCommand) :
      decodeTableWord 32 w.toNat = none := by
    rw [decodeTableWord_toNat, hw, Except.toOption]
  refine ⟨hlegal .gray, hlegal .sepia, hlegal .neg, hlegal .sobel, hlegal .thrinv, hlegal .run, ?_, ?_, ?_⟩
  · exact hillegal (w := 0x00000000#32) (decode_illegal (by decide))
  · exact hillegal (w := 0x00000007#32) (decode_illegal (by decide))
  · exact hillegal (w := 0x00000101#32) (decode_illegal (by decide))

end Sys2Proof

namespace Sys2Proof.Machine

/-! ## The step of a CMD write (R62, R67) -/

/-- While BUSY = 1 the word is not looked at (R67). -/
theorem writeCmd_of_busy (s : State) (hbusy : s.status.busy = true) (w : Word) :
    s.writeCmd w = .next s.overrun := if_pos hbusy

/-- A command's word is `exec` of the command, dropped or not (R67). -/
theorem writeCmd_of_decode {w : Word} {i : Instr} (hw : decode w = .ok i) (s : State) :
    s.writeCmd w = exec i s := by
  by_cases hbusy : s.status.busy = true
  · rw [writeCmd_of_busy s hbusy, exec_cases, if_pos hbusy]
  · rw [State.writeCmd, if_neg hbusy, hw]

/-- A rejection taken while BUSY = 0 leaves OVR and sets every other field of STATUS (R67, R68). -/
theorem clearResult_reject_of_idle {s : State} (hidle : s.status.busy = false) (code : BitVec 4) :
    s.clearResult.reject code = { s with
      status := { busy := false, done := true, err := true, ovr := s.status.ovr, errcode := code } } := by
  rw [← hidle]
  rfl

/-- An illegal word written while BUSY = 0 is rejected with code 4 (R62). -/
theorem writeCmd_of_illegal {w : Word} (hw : decode w = .error .illegalCommand) (s : State)
    (hidle : s.status.busy = false) : s.writeCmd w = .next { s with
      status := { busy := false, done := true, err := true, ovr := s.status.ovr, errcode := 4 } } := by
  have hbusy : ¬ s.status.busy = true := by simp [hidle]
  rw [State.writeCmd, if_neg hbusy, hw, ← clearResult_reject_of_idle hidle]
  change Host.Outcome.next s.issueIllegal = _
  rw [State.issueIllegal, if_neg hbusy]

/-- A host write sees of its place only where the address map puts it (R40). -/
theorem hostWrite_congr_locate {s : State} {place place' : Place}
    (h : locate s.params place = locate s.params place') (bits value : Nat) :
    s.hostWrite place bits value = s.hostWrite place' bits value := by
  rw [State.hostWrite, State.hostWrite, h]

theorem locate_bus_regBase (p : Params) : locate p (.bus p.regBase) = some (.reg offCMD) := by
  simp [locate]

/-- The step of a host write to CMD is `writeCmd` behind the access. -/
theorem step_write_cmd (s : State) (w : Word) (ts : List Turn) (rest : List HostOp) :
    step { s with sched := .host :: ts, hostOps := .write (.reg offCMD) 32 w.toNat :: rest } =
      State.writeCmd { s with sched := ts, hostOps := rest } w :=
  hostWrite_reg (off := offCMD) { s with sched := ts, hostOps := rest } (by decide) rfl w

/-- The bus address REG_BASE names CMD (R20, R40). -/
theorem step_write_regBase (s : State) (w : Word) (ts : List Turn) (rest : List HostOp) :
    step { s with sched := .host :: ts, hostOps := .write (.bus s.params.regBase) 32 w.toNat :: rest } =
      State.writeCmd { s with sched := ts, hostOps := rest } w :=
  (hostWrite_congr_locate (s := { s with sched := ts, hostOps := rest })
    (place' := .reg offCMD) (locate_bus_regBase s.params) 32 w.toNat).trans (step_write_cmd s w ts rest)

/-- `withFetchWord` gives the host the next turn, with the write of the word to CMD. -/
theorem withFetchWord_eq (s : State) (w : Word) :
    s.withFetchWord 32 w.toNat =
      { s with sched := .host :: s.sched, hostOps := .write (.reg offCMD) 32 w.toNat :: s.hostOps } := by
  rw [State.withFetchWord, cmdWordWrite, Nat.mod_eq_of_lt w.isLt]

/-- Settles O3: each of the three is a host write of the word to CMD. -/
theorem stepRunsTheDecodedCommand : Obligations.StepRunsTheDecodedCommand := by
  unfold Obligations.StepRunsTheDecodedCommand
  intro s w i ts rest hw
  refine ⟨?_, ?_, ?_⟩
  · rw [step_write_cmd, writeCmd_of_decode hw]
  · rw [step_write_regBase, writeCmd_of_decode hw]
  · rw [withFetchWord_eq, step_write_cmd, writeCmd_of_decode hw]

/-- Settles O4: an illegal word does not decode, so the write is the rejection with code 4; while
busy the word is not looked at. -/
theorem illegalWordIsRejected : Obligations.IllegalWordIsRejected := by
  unfold Obligations.IllegalWordIsRejected
  refine fun s w ts rest => ⟨fun hidle hillegal => ?_, fun hbusy => ?_⟩
  · have hw : decode w = .error .illegalCommand := by
      refine decode_illegal fun ⟨hrsvd, hlow, hhigh⟩ => ?_
      obtain hne | hzero | hseven := hillegal
      · exact hne hrsvd
      · exact absurd hzero (Nat.ne_of_gt hlow)
      · exact absurd hhigh (Nat.not_le_of_gt hseven)
    exact (step_write_cmd s w ts rest).trans
      (writeCmd_of_illegal hw { s with sched := ts, hostOps := rest } hidle)
  · exact (step_write_cmd s w ts rest).trans
      (writeCmd_of_busy { s with sched := ts, hostOps := rest } hbusy w)

/-! ## `wait` (R65) -/

/-- Bit 0 of the value a STATUS read returns is BUSY (R22). -/
theorem readReg_status_bit0 (s : State) : (s.readReg offSTATUS).getLsbD 0 = s.status.busy := by
  obtain ⟨hbusy, -⟩ := s.status.word_fields
  rw [readReg_status, hbusy]

/-- A turn of the host at `wait` records STATUS, and the wait stays pending while BUSY = 1 (R65). -/
theorem hostTurn_wait (s : State) (rest : List HostOp) :
    hostTurn { s with hostOps := .wait :: rest } = .next { s.returned (s.readReg offSTATUS) with
      hostOps := if s.status.busy = true then .wait :: rest else rest } := by
  refine (if_congr (Bool.eq_iff_iff.mp (readReg_status_bit0 s)) rfl rfl).trans ?_
  split <;> rfl

/-- Settles O43: bit 0 of the STATUS read is BUSY, on which `wait` stays pending or passes. -/
theorem waitPollsStatus : Obligations.WaitPollsStatus := by
  unfold Obligations.WaitPollsStatus
  exact fun s ts rest => hostTurn_wait { s with sched := ts } rest

end Sys2Proof.Machine

/-! PROOFS. `bands(rows, N)` is an exact, ordered partition of the rows (O21). -/

namespace Sys2Proof.Machine

section
variable {rows n k : Nat}

/-! ## Band `k` of the partition (R72) -/

theorem bandOf_start (rows n k : Nat) : (bandOf rows n k).start = k * (rows / n) := by
  unfold bandOf; split <;> rfl

/-- Every band but the last stops after as many rows as the others have. -/
theorem bandOf_stop_of_ne (h : k + 1 ≠ n) : (bandOf rows n k).stop = (k + 1) * (rows / n) := by
  rw [bandOf, if_neg h]

/-- The last band absorbs the remainder. -/
theorem bandOf_stop_last (h : k + 1 = n) : (bandOf rows n k).stop = rows := by
  rw [bandOf, if_pos h]

theorem bands_getElem? (h : k < n) : (bands rows n)[k]? = some (bandOf rows n k) := by
  simp [bands, h]

theorem bands_getElem?_eq_some {b : Band} (h : (bands rows n)[k]? = some b) :
    k < n ∧ b = bandOf rows n k := by
  have hk : k < n := by simpa using (List.getElem?_eq_some_iff.mp h).1
  rw [bands_getElem? hk] at h
  exact ⟨hk, (Option.some.inj h).symm⟩

theorem mem_bands {b : Band} : b ∈ bands rows n ↔ ∃ k, k < n ∧ b = bandOf rows n k := by
  simp [bands, eq_comm]

/-- A band ends before any later one starts, or where it starts. -/
theorem bandOf_stop_le_start {k' : Nat} (hlt : k < k') (hk' : k' < n) :
    (bandOf rows n k).stop ≤ (bandOf rows n k').start := by
  rw [bandOf_stop_of_ne (by omega), bandOf_start]
  exact Nat.mul_le_mul_right _ hlt

/-- Every row lies in a band: in that of its quotient, or in the last one. -/
theorem exists_bandOf_of_lt {i : Nat} (hn : 1 ≤ n) (hi : i < rows) :
    ∃ k, k < n ∧ (bandOf rows n k).start ≤ i ∧ i < (bandOf rows n k).stop := by
  by_cases hlast : (n - 1) * (rows / n) ≤ i
  · refine ⟨n - 1, by omega, by rwa [bandOf_start], ?_⟩
    rwa [bandOf_stop_last (by omega)]
  · have hpos : 0 < rows / n := Nat.pos_of_ne_zero fun hzero => hlast (by simp [hzero])
    have hk : i / (rows / n) < n - 1 := (Nat.div_lt_iff_lt_mul hpos).mpr (by omega)
    refine ⟨i / (rows / n), by omega, ?_, ?_⟩
    · rw [bandOf_start]
      exact Nat.div_mul_le_self _ _
    · rw [bandOf_stop_of_ne (by omega)]
      exact (Nat.div_lt_iff_lt_mul hpos).mp (Nat.lt_succ_self _)

/-- No row lies in two bands. -/
theorem bandOf_unique {k' i : Nat} (hk : k < n) (hk' : k' < n)
    (h : (bandOf rows n k).start ≤ i ∧ i < (bandOf rows n k).stop)
    (h' : (bandOf rows n k').start ≤ i ∧ i < (bandOf rows n k').stop) : k' = k := by
  obtain hlt | heq | hgt := Nat.lt_trichotomy k' k
  · have := bandOf_stop_le_start (rows := rows) hlt hk
    omega
  · exact heq
  · have := bandOf_stop_le_start (rows := rows) hgt hk'
    omega

/-- Each band has at least `rows // N` rows. -/
theorem div_le_bandOf_size (rows n k : Nat) :
    rows / n ≤ (bandOf rows n k).stop - (bandOf rows n k).start := by
  have hsucc : (k + 1) * (rows / n) = k * (rows / n) + rows / n := Nat.succ_mul _ _
  by_cases hlast : k + 1 = n
  · have hrows : (k + 1) * (rows / n) ≤ rows := hlast ▸ Nat.mul_div_le rows n
    rw [bandOf_stop_last hlast, bandOf_start]
    omega
  · rw [bandOf_stop_of_ne hlast, bandOf_start]
    omega

/-- The sizes sum to `rows`: all bands but the last have `rows // N` rows, the last has the rest. -/
theorem bands_sizes_sum (hn : 1 ≤ n) :
    ((bands rows n).map fun b => b.stop - b.start).sum = rows := by
  obtain ⟨m, rfl⟩ := Nat.exists_eq_add_of_le' hn
  have hrows : m * (rows / (m + 1)) ≤ rows :=
    (Nat.mul_le_mul_right _ (Nat.le_succ m)).trans (Nat.mul_div_le rows (m + 1))
  have hsize : ∀ k ∈ List.range m,
      (bandOf rows (m + 1) k).stop - (bandOf rows (m + 1) k).start = rows / (m + 1) := by
    intro k hk
    rw [bandOf_stop_of_ne (by simp at hk; omega), bandOf_start, Nat.succ_mul, Nat.add_sub_cancel_left]
  have hlast : (bandOf rows (m + 1) m).stop - (bandOf rows (m + 1) m).start =
      rows - m * (rows / (m + 1)) := by
    rw [bandOf_stop_last rfl, bandOf_start]
  calc ((bands rows (m + 1)).map fun b => b.stop - b.start).sum
      = ((List.range m).map fun _ => rows / (m + 1)).sum + (rows - m * (rows / (m + 1))) := by
        simp [bands, List.range_succ, Function.comp_def, hlast, List.map_congr_left hsize]
    _ = m * (rows / (m + 1)) + (rows - m * (rows / (m + 1))) := by simp
    _ = rows := Nat.add_sub_cancel' hrows

end

/-- Settles O21: band `k` starts at `k * (rows // N)` and all but the last end where the next starts;
with `rows < N` that quotient is 0. -/
theorem bandsPartitionTheRows : Obligations.BandsPartitionTheRows := by
  unfold Obligations.BandsPartitionTheRows
  intro rows n hn
  have hlast : n - 1 + 1 = n := Nat.sub_add_cancel hn
  refine ⟨bands_length rows n, fun b => bands_mem, ⟨?_, ?_⟩, fun k hk => ?_, fun i hi => ?_,
    bands_sizes_sum hn, fun hfew => ⟨fun k hk => ?_, ?_⟩, fun hmany => ⟨Nat.div_pos hmany hn, ?_⟩⟩
  · simp [bands_getElem? (show 0 < n from hn), bandOf_start]
  · simp [bands_getElem? (show n - 1 < n by omega), bandOf_stop_last hlast]
  · rw [bands_getElem? (by omega), bands_getElem? hk]
    simp [bandOf_stop_of_ne hk.ne, bandOf_start]
  · obtain ⟨k, hk, hrow⟩ := exists_bandOf_of_lt hn hi
    refine ⟨k, _, bands_getElem? hk, hrow.1, hrow.2, fun k' b' hb' hstart hstop => ?_⟩
    obtain ⟨hk', rfl⟩ := bands_getElem?_eq_some hb'
    exact bandOf_unique hk hk' hrow ⟨hstart, hstop⟩
  · rw [bands_getElem? (by omega), bandOf, if_neg hk.ne, Nat.div_eq_of_lt hfew]
    simp
  · rw [bands_getElem? (by omega), bandOf, if_pos hlast, Nat.div_eq_of_lt hfew]
    simp
  · intro b hb
    obtain ⟨k, -, rfl⟩ := mem_bands.mp hb
    exact div_le_bandOf_size rows n k

end Sys2Proof.Machine

/-! PROOFS. The rejections of a CMD write (O6, O7), and that no turn of any agent faults OutOfRange
(O23). -/

namespace Sys2Proof.Machine

/-! ## Rejections (R67, R68, R102) -/

/-- A command issued while BUSY = 0 with bad dimensions is rejected with code 1 (R67). -/
theorem exec_of_dimensionsBad {s : State} (i : Instr) (hidle : s.status.busy = false)
    (hbad : dimensionsBad s.params s.rows.toNat s.cols.toNat = true) :
    exec i s = .next { s with
      status := { busy := false, done := true, err := true, ovr := s.status.ovr, errcode := 1 } } := by
  rw [exec_cases, if_neg (by simp [hidle]), if_pos hbad, clearResult_reject_of_idle hidle]

/-- With good dimensions it is accepted, and its first stage starts (R67, R69). -/
theorem exec_of_dimensionsOk {s : State} (i : Instr) (hidle : s.status.busy = false)
    (hok : ¬ dimensionsBad s.params s.rows.toNat s.cols.toNat = true) :
    exec i s = .next (s.started i) := by
  rw [exec_cases, if_neg (by simp [hidle]), if_neg hok]
  rfl

/-- Settles O6: the four bounds are `dimensionsBad`, which is checked before acceptance. -/
theorem badDimensionsAreRejected : Obligations.BadDimensionsAreRejected := by
  unfold Obligations.BadDimensionsAreRejected
  exact fun i s hidle hbad => exec_of_dimensionsBad i hidle ((dimensionsBad_iff _ _ _).mpr hbad)

/-- A CMD write taken while BUSY = 0 that leaves ERR set was a rejection with code 1 or 4. -/
theorem writeCmd_rejected {s t : State} {w : Word} (hidle : s.status.busy = false)
    (h : s.writeCmd w = .next t) (herr : t.status.err = true) :
    ∃ code : BitVec 4, (code = 1 ∨ code = 4) ∧ t = { s with
      status := { busy := false, done := true, err := true, ovr := s.status.ovr, errcode := code } } := by
  obtain ⟨hbusy, -⟩ | ⟨-, i, -, hexec⟩ | ⟨-, -, rfl⟩ := writeCmd_cases h
  · rw [hidle] at hbusy; cases hbusy
  · by_cases hbad : dimensionsBad s.params s.rows.toNat s.cols.toNat = true
    · rw [exec_of_dimensionsBad i hidle hbad] at hexec
      cases hexec
      exact ⟨1, .inl rfl, rfl⟩
    · rw [exec_of_dimensionsOk i hidle hbad] at hexec
      cases hexec
      cases herr
  · exact ⟨4, .inr rfl, clearResult_reject_of_idle hidle _⟩

/-- Settles O7: of the outcomes of a CMD write only the two rejections set ERR. -/
theorem rejectionChangesStatusAlone : Obligations.RejectionChangesStatusAlone := by
  unfold Obligations.RejectionChangesStatusAlone
  intro s t w ts rest hidle h herr
  have hwrite := (step_write_cmd s w ts rest).symm.trans h
  exact writeCmd_rejected (s := { s with sched := ts, hostOps := rest }) hidle hwrite herr

/-! ## No turn faults OutOfRange (R73, R100) -/

/-- A lane's item faults only on an `uninit` byte (R46). -/
theorem runWork_fault {w : Work} {s : State} {f : Fault} (h : runWork w s = .error f) :
    ∃ b off, f = .uninitRead b off := by
  have hreads := readsBytes_runWork w s
  rw [h] at hreads
  obtain ⟨b, off, hf, -⟩ := hreads
  exact ⟨b, off, hf⟩

theorem laneTurn_ne_outOfRange (k n : Nat) (s : State) : laneTurn k n s ≠ .fault .outOfRange := by
  unfold laneTurn
  split
  case h_1 => exact nofun
  case h_2 l _ =>
    split
    case isTrue => exact nofun
    case isFalse =>
      unfold State.laneWork
      split
      case h_1 => exact nofun
      case h_2 w _ =>
        split
        case h_1 f hf =>
          obtain ⟨b, off, rfl⟩ := runWork_fault hf
          exact nofun
        case h_2 => exact nofun

/-- The stages start on the bands of the partition, so a sequencer's turn never faults (R73). -/
theorem sequencerTurn_ne_fault (s : State) (f : Fault) : sequencerTurn s ≠ .fault f := by
  rw [sequencerTurn_cases]
  split_ifs <;> exact nofun

theorem hostRead_ne_outOfRange (s : State) (place : Place) (bits : Nat) :
    s.hostRead place bits ≠ .fault .outOfRange := by
  unfold State.hostRead
  split
  case h_1 => split <;> exact nofun
  case h_2 b off _ =>
    split
    case isFalse => exact nofun
    case isTrue =>
      split
      case isTrue => exact nofun
      case isFalse =>
        split
        case h_1 => exact nofun
        case h_2 f hf => obtain ⟨-, rfl⟩ := fetch_error.mp hf; exact nofun
  case h_3 => exact nofun

theorem hostWrite_ne_outOfRange (s : State) (place : Place) (bits value : Nat) :
    s.hostWrite place bits value ≠ .fault .outOfRange := by
  unfold State.hostWrite
  split
  case h_1 =>
    split
    case isTrue => exact writeReg_ne_fault _ _ _ _
    case isFalse => exact nofun
  case h_2 => split_ifs <;> exact nofun
  case h_3 => exact nofun

theorem hostTurn_ne_outOfRange (s : State) : hostTurn s ≠ .fault .outOfRange := by
  unfold hostTurn
  split
  case h_1 => exact nofun
  case h_2 => exact hostRead_ne_outOfRange _ _ _
  case h_3 => exact hostWrite_ne_outOfRange _ _ _ _
  case h_4 => dsimp only; split <;> exact nofun

/-- Settles O23: a stage starts in the sequencer's turn and in the host's CMD write, both on bands
inside the image; the other faults of an agent's turn are those of R46, R41 and R51. -/
theorem noStepLeavesTheImage : Obligations.NoStepLeavesTheImage := by
  unfold Obligations.NoStepLeavesTheImage
  intro s
  change takeTurn s.nextTurn s.turnTaken ≠ _
  cases s.nextTurn with
  | host => exact hostTurn_ne_outOfRange _
  | sequencer => exact sequencerTurn_ne_fault _ _
  | lane k n => exact laneTurn_ne_outOfRange k n _
  | reset => exact nofun

end Sys2Proof.Machine

/-! PROOFS. A lane's turn stays in its band (O20, O22), and a command ends only by completing (O25). -/

namespace Sys2Proof.Machine

/-! ## What an item stores lies in its band (R63, R74) -/

/-- The buffer a work item writes (R80, R83, R85, R91, R93). -/
def workOutput : Work → BufId
  | .gray _ _ => .gray
  | .sepia _ _ => .sepia
  | .neg _ _ _ => .neg
  | .sobel _ _ => .edge
  | .thrinv _ _ => .tout

/-- The work item that writes channel `k` of pixel `(i, j)` of a buffer; SRC and TIN are written by none. -/
def workAt (i j k : Nat) : BufId → Option Work
  | .gray => some (.gray i j)
  | .sepia => some (.sepia i j)
  | .neg => some (.neg i j k)
  | .edge => some (.sobel i j)
  | .tout => some (.thrinv i j)
  | .src => none
  | .tin => none

theorem workOutput_of_workAt {i j k : Nat} {b : BufId} {w : Work} (h : workAt i j k b = some w) :
    b = workOutput w := by
  cases b <;> cases h <;> rfl

/-- A store of an item that fits a band goes to a channel of a pixel in the band's rows, which no other
item writes (R36, R74). -/
theorem itemStores_pixel {m : Buffers} {rows cols : Nat} {ph : Phase} {op : Instr} {band : Band}
    {w : Work} {b : BufId} {off v : Nat} (hfits : workFits ph op cols band w)
    (h : (b, off, v) ∈ itemStores m rows cols w) :
    ∃ i j k, off = pixelOffset cols b i j k ∧ workAt i j k b = some w ∧
      (band.start ≤ i ∧ i < band.stop) ∧ j < cols ∧ k < channels b := by
  cases w with
  | sepia i j =>
    obtain ⟨-, hstart, hstop, hj⟩ := hfits
    simp only [itemStores, List.mem_cons, Prod.mk.injEq, List.not_mem_nil, or_false] at h
    obtain ⟨rfl, rfl, -⟩ | ⟨rfl, rfl, -⟩ | ⟨rfl, rfl, -⟩ := h
    · exact ⟨i, j, 0, rfl, rfl, ⟨hstart, hstop⟩, hj, by decide⟩
    · exact ⟨i, j, 1, rfl, rfl, ⟨hstart, hstop⟩, hj, by decide⟩
    · exact ⟨i, j, 2, rfl, rfl, ⟨hstart, hstop⟩, hj, by decide⟩
  | neg i j ch =>
    obtain ⟨-, hstart, hstop, hj, hch⟩ := hfits
    simp only [itemStores, List.mem_singleton, Prod.mk.injEq] at h
    obtain ⟨rfl, rfl, -⟩ := h
    exact ⟨i, j, ch, rfl, rfl, ⟨hstart, hstop⟩, hj, hch⟩
  | _ i j =>
    obtain ⟨-, hstart, hstop, hj⟩ := hfits
    simp only [itemStores, List.mem_singleton, Prod.mk.injEq] at h
    obtain ⟨rfl, rfl, -⟩ := h
    exact ⟨i, j, 0, (Nat.mul_one _).symm, rfl, ⟨hstart, hstop⟩, hj, by decide⟩

/-- A byte of a pixel lies behind all rows before the pixel's (R36). -/
theorem rowStart_le_pixelOffset {row i : Nat} (hi : row ≤ i) (cols : Nat) (b : BufId) (j k : Nat) :
    row * cols * channels b ≤ pixelOffset cols b i j k := by
  have hpixel : row * cols ≤ i * cols + j := Nat.le_add_right_of_le (Nat.mul_le_mul_right _ hi)
  exact Nat.le_add_right_of_le (Nat.mul_le_mul_right _ hpixel)

/-- An item that fits a band writes its buffer between the band's first and last row (R74). -/
theorem itemWrites_in_band {s : State} {ph : Phase} {op : Instr} {band : Band} {w : Work} {b : BufId}
    {off : Nat} (hfits : workFits ph op s.lcols band w) (h : itemWrites s w b off) :
    b = workOutput w ∧ band.start * s.lcols * channels b ≤ off ∧ off < band.stop * s.lcols * channels b := by
  obtain ⟨v, hstore⟩ := (itemWrites_iff s s.bufs w b off).mp h
  obtain ⟨i, j, k, rfl, hat, ⟨hstart, hstop⟩, hj, hk⟩ := itemStores_pixel hfits hstore
  exact ⟨workOutput_of_workAt hat, rowStart_le_pixelOffset hstart _ _ _ _,
    pixelOffset_lt_imageBytes hstop hj hk⟩

/-- An item of a command's stage writes a buffer of the command (R63). -/
theorem workOutput_mem_cmdWrites {ph : Phase} {op : Instr} {cols : Nat} {b : Band} {w : Work}
    (hstages : op = .run ↔ ph = .stageA ∨ ph = .stageB) (hfits : workFits ph op cols b w) :
    workOutput w ∈ cmdWrites op := by
  cases w with
  | thrinv i j =>
    obtain ⟨⟨-, rfl⟩, -⟩ := hfits
    simp [workOutput, cmdWrites]
  | sobel i j =>
    obtain ⟨⟨-, rfl⟩ | hstage, -⟩ := hfits
    · simp [workOutput, cmdWrites]
    · rw [hstages.mpr (.inr hstage)]; simp [workOutput, cmdWrites]
  | _ =>
    obtain ⟨⟨-, rfl⟩ | hstage, -⟩ := hfits
    · simp [workOutput, cmdWrites]
    · rw [hstages.mpr (.inl hstage)]; simp [workOutput, cmdWrites]

/-! ## A lane's turn -/

theorem Inv.phase_ne_idle {s : State} (h : Inv s) (hbusy : s.status.busy = true) : s.phase ≠ .idle := by
  rw [Ne, h.idle, hbusy]
  decide

/-- A lane's item changes only bytes that the item writes. -/
theorem runWork_changes {w : Work} {s t : State} (h : runWork w s = .ok t) {b : BufId} {off : Nat}
    (hchanged : t.bufs.read b off ≠ s.bufs.read b off) : itemWrites s w b off := by
  rw [runWork_ok w s t h] at hchanged
  rw [itemWrites_iff s s.bufs]
  by_contra hnone
  exact hchanged (read_storeAll_other _ _ _ _ fun v hv => hnone ⟨v, hv⟩)

/-- A lane's turn changes nothing but buffer bytes and the lane (R19, R74). -/
theorem laneTurn_frame {k n : Nat} {s u : State} (h : laneTurn k n s = .next u) :
    u = { s with bufs := u.bufs, lanes := u.lanes } ∧ ∀ k', k' ≠ k → u.lanes[k']? = s.lanes[k']? := by
  obtain rfl | ⟨l, -, -, -, -, -, rfl⟩ | ⟨l, w, t, m, -, -, -, -, -, hwork, rfl⟩ := laneTurn_cases h
  · exact ⟨rfl, fun _ _ => rfl⟩
  · exact ⟨rfl, fun k' hk' => List.getElem?_set_ne hk'.symm⟩
  · obtain rfl := runWork_ok w s t hwork
    exact ⟨rfl, fun k' hk' => List.getElem?_set_ne hk'.symm⟩

/-- A byte that a lane's turn changes is one of an item the lane had left. -/
theorem laneTurn_changes {k n : Nat} {s u : State} (h : laneTurn k n s = .next u) {b : BufId} {off : Nat}
    (hchanged : u.bufs.read b off ≠ s.bufs.read b off) :
    s.phase ≠ .idle ∧ ∃ l w, s.lanes[k]? = some l ∧ w ∈ l.todo ∧ itemWrites s w b off := by
  obtain rfl | ⟨l, -, -, -, -, -, rfl⟩ | ⟨l, w, t, m, hl, hphase, -, -, hw, hwork, rfl⟩ :=
    laneTurn_cases h
  · exact absurd rfl hchanged
  · exact absurd rfl hchanged
  · exact ⟨hphase, l, w, hl, List.mem_of_getElem? hw, runWork_changes hwork hchanged⟩

/-- Settles O20: the bytes a turn changes are those of an item of the lane, which under the invariant
fits the lane's band and the running command. -/
theorem laneStaysInItsBand : Obligations.LaneStaysInItsBand := by
  unfold Obligations.LaneStaysInItsBand
  intro k n s u hinv h
  obtain ⟨hframe, hlanes⟩ := laneTurn_frame h
  refine ⟨hframe, hlanes, fun b off hchanged => ?_⟩
  obtain ⟨hphase, l, w, hl, hw, hwrite⟩ := laneTurn_changes h hchanged
  have hrunning := hinv.running (hinv.busy_of_phase hphase)
  have hfits := (hrunning.lanes l (List.mem_of_getElem? hl)).fits w hw
  obtain ⟨rfl, hband⟩ := itemWrites_in_band hfits hwrite
  exact ⟨workOutput_mem_cmdWrites hrunning.stages hfits, l, hl, hband⟩

/-- No item fits an empty band. -/
theorem not_workFits_of_empty {ph : Phase} {op : Instr} {cols : Nat} {b : Band} (w : Work)
    (hempty : b.start = b.stop) : ¬ workFits ph op cols b w := by
  intro hfits
  cases w <;> obtain ⟨-, hstart, hstop, -⟩ := hfits <;> omega

/-- A used lane with no work left sets its `laneDone` (R74). -/
theorem laneTurn_of_todo_nil {k : Nat} {s : State} {l : Lane} (n : Nat) (hphase : s.phase ≠ .idle)
    (hl : s.lanes[k]? = some l) (hactive : l.active = true) (hdone : l.done = false)
    (htodo : l.todo = []) : laneTurn k n s = .next (s.setLane k { l with done := true }) := by
  simp [laneTurn, State.laneWork, hl, hphase, hactive, hdone, htodo]

/-- Settles O22: an empty band has no work, so the lane's turn is `laneDone` alone. -/
theorem emptyBandTouchesNoMemory : Obligations.EmptyBandTouchesNoMemory := by
  unfold Obligations.EmptyBandTouchesNoMemory
  intro k n s l hinv hbusy hl hactive hdone hempty
  have hfits := ((hinv.running hbusy).lanes l (List.mem_of_getElem? hl)).fits
  have htodo : l.todo = [] := List.eq_nil_iff_forall_not_mem.mpr fun w hw =>
    not_workFits_of_empty w hempty (hfits w hw)
  exact laneTurn_of_todo_nil n (hinv.phase_ne_idle hbusy) hl hactive hdone htodo

/-! ## Completion (R70) -/

theorem stageComplete_iff (s : State) :
    s.stageComplete = true ↔ ∀ l ∈ s.lanes, l.active = true → l.done = true := by
  simp only [State.stageComplete, List.all_eq_true, Bool.or_eq_true, Bool.not_eq_true']
  refine forall₂_congr fun l _ => ?_
  cases l.active <;> simp

/-- Completing a running command leaves DONE and OVR as the only bits of STATUS that can be set. -/
theorem Inv.complete_eq {s : State} (h : Inv s) (hbusy : s.status.busy = true) :
    s.complete = { s with
      phase := .idle
      status := { busy := false, done := true, err := false, ovr := s.status.ovr, errcode := 0 } } := by
  have herr : s.status.err = false := by
    by_contra herr
    obtain ⟨-, hidle⟩ := h.errDone (by simpa using herr)
    rw [hbusy] at hidle; cases hidle
  rw [State.complete, Status.completed, herr, h.noErrCode herr]

/-- Where the last stage of a running command is complete, the sequencer completes the command. -/
theorem sequencerTurn_of_lastStage {s : State} (hphase : s.phase ≠ .idle) (hlast : s.phase ≠ .stageA)
    (hcomplete : s.stageComplete = true) : sequencerTurn s = .next s.complete := by
  rw [sequencerTurn_cases, if_neg (by simp [hcomplete, hphase]), if_neg hlast]

/-- A sequencer's turn that ends a command is its completion. -/
theorem sequencerTurn_ends {s t : State} (hbusy : s.status.busy = true) (h : sequencerTurn s = .next t)
    (hidle : t.status.busy = false) : s.stageComplete = true ∧ s.phase ≠ .stageA ∧ t = s.complete := by
  rw [sequencerTurn_cases] at h
  split_ifs at h with hwait hstageA <;> cases h
  · rw [hbusy] at hidle; cases hidle
  · change s.status.busy = false at hidle
    rw [hbusy] at hidle; cases hidle
  · exact ⟨by simpa using (not_or.mp hwait).1, hstageA, rfl⟩

/-- A lane's turn leaves STATUS. -/
theorem laneTurn_status {k n : Nat} {s t : State} (h : laneTurn k n s = .next t) :
    t.status = s.status := by
  obtain ⟨hframe, -⟩ := laneTurn_frame h
  rw [hframe]

/-- A turn that ends a command is a reset or the sequencer's completion (R70, R113). -/
theorem takeTurn_ends {turn : Turn} {s t : State} (hbusy : s.status.busy = true)
    (h : takeTurn turn s = .next t) (hidle : t.status.busy = false) :
    turn = .reset ∨ s.stageComplete = true ∧ s.phase ≠ .stageA ∧ t = s.complete := by
  cases turn with
  | host => rw [(hostTurn_sameControl_of_busy hbusy h).busy, hbusy] at hidle; cases hidle
  | sequencer => exact .inr (sequencerTurn_ends hbusy h hidle)
  | lane k n => rw [laneTurn_status h, hbusy] at hidle; cases hidle
  | reset => exact .inl rfl

/-- Settles O25: of the turns only the sequencer's completion and a reset clear BUSY, and a done lane
has no work left under the invariant. -/
theorem completionIsTheOnlyEnd : Obligations.CompletionIsTheOnlyEnd := by
  unfold Obligations.CompletionIsTheOnlyEnd
  intro s hinv hbusy
  refine ⟨fun hlast hdone => ?_, fun t hstep hidle => ?_⟩
  · rw [← hinv.complete_eq hbusy]
    exact sequencerTurn_of_lastStage (hinv.phase_ne_idle hbusy) hlast ((stageComplete_iff s).mpr hdone)
  · have hinv' : Inv s.turnTaken := hinv.congr (sameControl_turnTaken s) s.turnTaken_bufs
    have hbusy' : s.turnTaken.status.busy = true := s.turnTaken_status ▸ hbusy
    obtain hreset | ⟨hcomplete, hlast, rfl⟩ := takeTurn_ends hbusy' hstep hidle
    · exact .inl hreset
    · rw [stageComplete_iff, State.turnTaken_lanes] at hcomplete
      refine .inr ⟨fun l hl hactive => ?_, s.turnTaken_phase ▸ hlast, ?_⟩
      · have hdone := hcomplete l hl hactive
        exact ⟨hdone, ((hinv.running hbusy).lanes l hl).finished hdone⟩
      · rw [hinv'.complete_eq hbusy', State.turnTaken_status]

end Sys2Proof.Machine

/-! PROOFS. What a stage leaves in the buffers depends on the buffers it starts from and on the image's
size alone, however the rows are shared out and the turns fall (O16). -/

namespace Sys2Proof.Machine

/-! ## The items of a stage and the bytes they store -/

/-- A stage of a command on an image: RUN has two, the other commands one (R29, R94). -/
structure Stage where
  phase : Phase
  op : Instr
  rows : Nat
  cols : Nat

/-- The items of the stage, over the whole image (R74). -/
def Stage.Item (g : Stage) (w : Work) : Prop :=
  workFits g.phase g.op g.cols { start := 0, stop := g.rows } w

/-- What the items of the stage store, computed from the buffers `m`. -/
def Stage.Stores (g : Stage) (m : Buffers) (w : Work) (b : BufId) (off v : Nat) : Prop :=
  g.Item w ∧ (b, off, v) ∈ itemStores m g.rows g.cols w

/-- The buffer a work item reads (R80, R83, R85, R91, R93). -/
def workInput : Work → BufId
  | .gray _ _ => .src
  | .sepia _ _ => .src
  | .neg _ _ _ => .src
  | .sobel _ _ => .gray
  | .thrinv _ _ => .tin

/-- What an item stores depends on the bytes of its input buffer alone. -/
theorem itemStores_congr {m m' : Buffers} {w : Work}
    (h : ∀ off, m.read (workInput w) off = m'.read (workInput w) off) (rows cols : Nat) :
    itemStores m rows cols w = itemStores m' rows cols w := by
  have hbyte (off : Nat) : m.byteAt (workInput w) off = m'.byteAt (workInput w) off := by
    rw [Buffers.byteAt, Buffers.byteAt, h]
  cases w <;> simp only [workInput] at hbyte
  case sobel i j =>
    have htap : tapByte m rows cols i j = tapByte m' rows cols i j := by
      funext pos
      rw [tapByte, tapByte, hbyte]
    rw [itemStores, itemStores, htap]
  all_goals simp only [itemStores, hbyte]

/-- No item of a stage writes the buffer that an item of the stage reads: GRAY is written in RUN's first
stage and read in its second (R63, R94). -/
theorem Stage.workOutput_ne_workInput {g : Stage} {w w' : Work} (hw : g.Item w) (hw' : g.Item w') :
    workOutput w' ≠ workInput w := by
  intro heq
  cases w <;> cases w' <;> cases heq
  obtain ⟨hsobel, -⟩ := hw
  obtain ⟨hgray, -⟩ := hw'
  obtain ⟨hphase, hop⟩ | hphase := hsobel <;> obtain ⟨hphase', hop'⟩ | hphase' := hgray
  · exact absurd (hop.symm.trans hop') (by decide)
  all_goals exact absurd (hphase.symm.trans hphase') (by decide)

/-- Quotient and remainder are unique. -/
theorem mul_add_inj {n q r q' r' : Nat} (hr : r < n) (hr' : r' < n) (h : q * n + r = q' * n + r') :
    q = q' ∧ r = r' := by
  have hdiv {q r : Nat} (hr : r < n) : (q * n + r) / n = q := by
    rw [Nat.mul_comm, Nat.mul_add_div (Nat.zero_lt_of_lt hr), Nat.div_eq_of_lt hr, Nat.add_zero]
  obtain rfl : q = q' := (hdiv hr).symm.trans (h ▸ hdiv hr')
  exact ⟨rfl, Nat.add_left_cancel h⟩

/-- The place of a byte determines its pixel and channel (R36). -/
theorem pixelOffset_inj {cols : Nat} {b : BufId} {i j k i' j' k' : Nat} (hj : j < cols) (hj' : j' < cols)
    (hk : k < channels b) (hk' : k' < channels b)
    (h : pixelOffset cols b i j k = pixelOffset cols b i' j' k') : i = i' ∧ j = j' ∧ k = k' := by
  obtain ⟨hpixel, rfl⟩ := mul_add_inj hk hk' h
  obtain ⟨rfl, rfl⟩ := mul_add_inj hj hj' hpixel
  exact ⟨rfl, rfl, rfl⟩

/-- No two items of a stage write the same byte. -/
theorem Stage.item_unique {g : Stage} {m m' : Buffers} {w w' : Work} {b : BufId} {off v v' : Nat}
    (h : g.Stores m w b off v) (h' : g.Stores m' w' b off v') : w = w' := by
  obtain ⟨i, j, k, rfl, hat, -, hj, hk⟩ := itemStores_pixel h.1 h.2
  obtain ⟨i', j', k', hoff, hat', -, hj', hk'⟩ := itemStores_pixel h'.1 h'.2
  obtain ⟨rfl, rfl, rfl⟩ := pixelOffset_inj hj hj' hk hk' hoff
  exact Option.some.inj (hat.symm.trans hat')

/-! ## The progress of a stage -/

/-- The stage, started on the buffers `m`, has come to `m'`: every item but those pending has stored its
bytes, computed from `m`, and every byte that no item writes is as it was. -/
structure Stage.Progress (g : Stage) (pending : Work → Prop) (m m' : Buffers) : Prop where
  stored : ∀ w b off v, g.Stores m w b off v → ¬ pending w → m'.read b off = some (BitVec.ofNat 8 v)
  kept : ∀ b off, (∀ w v, ¬ g.Stores m w b off v) → m'.read b off = m.read b off

/-- The stage, started on the buffers `m`, has ended with `m'`. -/
def Stage.Done (g : Stage) (m m' : Buffers) : Prop := g.Progress (fun _ => False) m m'

section
variable {g : Stage} {pending pending' : Work → Prop} {m m' m₁ m₁' : Buffers}

theorem Stage.Progress.mono (h : g.Progress pending m m')
    (hpending : ∀ w, g.Item w → pending w → pending' w) : g.Progress pending' m m' where
  stored w b off v hstore hw := h.stored w b off v hstore fun hpend => hw (hpending w hstore.1 hpend)
  kept := h.kept

/-- With every item still pending nothing has been stored. -/
theorem Stage.Progress.start (hpending : ∀ w, g.Item w → pending w) (m : Buffers) :
    g.Progress pending m m where
  stored w _ _ _ hstore hw := absurd (hpending w hstore.1) hw
  kept _ _ _ := rfl

/-- The bytes an item of the stage reads are as the stage found them. -/
theorem Stage.Progress.itemStores_eq (h : g.Progress pending m m') {w : Work} (hw : g.Item w) :
    itemStores m' g.rows g.cols w = itemStores m g.rows g.cols w := by
  refine itemStores_congr (fun off => h.kept _ _ fun w' v hstore => ?_) _ _
  obtain ⟨i, j, k, -, hat, -⟩ := itemStores_pixel hstore.1 hstore.2
  exact Stage.workOutput_ne_workInput hw hstore.1 (workOutput_of_workAt hat).symm

/-- One more item done. -/
theorem Stage.Progress.runItem (h : g.Progress pending m m') {w : Work} (hw : g.Item w)
    (hpending : ∀ x, pending x → pending' x ∨ x = w) :
    g.Progress pending' m (m'.storeAll (itemStores m' g.rows g.cols w)) := by
  rw [h.itemStores_eq hw]
  refine ⟨fun x b off v hstore hx => ?_, fun b off hnone => ?_⟩
  · by_cases heq : x = w
    · subst heq
      exact read_storeAll_item hstore.2 m'
    · rw [read_storeAll_other _ _ _ _ fun v' hv' => heq (Stage.item_unique hstore ⟨hw, hv'⟩)]
      exact h.stored x b off v hstore fun hpend => (hpending x hpend).elim hx heq
  · rw [read_storeAll_other _ _ _ _ fun v hv => hnone w v ⟨hw, hv⟩]
    exact h.kept b off hnone

/-- What a stage leaves is determined by the bytes it starts from. -/
theorem Stage.Done.read_eq (hm : m.read = m₁.read) (h : g.Done m m') (h₁ : g.Done m₁ m₁') :
    m'.read = m₁'.read := by
  have hstores : g.Stores m = g.Stores m₁ := by
    funext w b off v
    rw [Stage.Stores, Stage.Stores, itemStores_congr (m' := m₁) fun off => by rw [hm]]
  funext b off
  by_cases hwritten : ∃ w v, g.Stores m w b off v
  · obtain ⟨w, v, hstore⟩ := hwritten
    rw [h.stored w b off v hstore id, h₁.stored w b off v (hstores ▸ hstore) id]
  · have hnone : ∀ w v, ¬ g.Stores m w b off v := fun w v hstore => hwritten ⟨w, v, hstore⟩
    rw [h.kept b off hnone, h₁.kept b off (hstores ▸ hnone), hm]

end

/-! ## What a command leaves -/

/-- The phase of a command's last stage (R29, R94). -/
def lastPhase : Instr → Phase
  | .run => .stageB
  | _ => .single

theorem lastPhase_of_ne_run {i : Instr} (h : i ≠ .run) : lastPhase i = .single := by
  cases i
  case run => exact absurd rfl h
  all_goals rfl

/-- A stage of the phase `ph`, in a command issued on the buffers `m`, starts on `m'`: RUN's second stage
on what its first has left, any other on `m` itself (R94, R95). -/
def StageStart (ph : Phase) (rows cols : Nat) (m m' : Buffers) : Prop :=
  if ph = .stageB then Stage.Done { phase := .stageA, op := .run, rows, cols } m m' else m' = m

/-- Command `i`, issued on the buffers `m`, ends with `m'`. -/
def CommandDone (i : Instr) (rows cols : Nat) (m m' : Buffers) : Prop :=
  ∃ m₁, StageStart (lastPhase i) rows cols m m₁ ∧
    Stage.Done { phase := lastPhase i, op := i, rows, cols } m₁ m'

theorem stageStart_self {ph : Phase} (h : ph ≠ .stageB) (rows cols : Nat) (m : Buffers) :
    StageStart ph rows cols m m := by
  rw [StageStart, if_neg h]

theorem StageStart.read_eq {ph : Phase} {rows cols : Nat} {m m₁ m₂ : Buffers}
    (h₁ : StageStart ph rows cols m m₁) (h₂ : StageStart ph rows cols m m₂) : m₁.read = m₂.read := by
  unfold StageStart at h₁ h₂
  split_ifs at h₁ h₂
  · exact h₁.read_eq rfl h₂
  · rw [h₁, h₂]

/-- What a command leaves is determined by the buffers it is issued on and the image's size. -/
theorem CommandDone.read_eq {i : Instr} {rows cols : Nat} {m m' m'' : Buffers}
    (h' : CommandDone i rows cols m m') (h'' : CommandDone i rows cols m m'') : m'.read = m''.read := by
  obtain ⟨m₁, hstart₁, hdone₁⟩ := h'
  obtain ⟨m₂, hstart₂, hdone₂⟩ := h''
  exact hdone₁.read_eq (hstart₁.read_eq hstart₂) hdone₂

/-! ## Every item is pending where its stage starts -/

/-- The stage of the running command. -/
def State.stage (s : State) : Stage :=
  { phase := s.phase, op := s.curop, rows := s.lrows, cols := s.lcols }

/-- Some lane has the item left to do. -/
def State.Pending (s : State) (w : Work) : Prop := ∃ l ∈ s.lanes, w ∈ l.todo

section
variable {ph : Phase} {op : Instr} {rows cols n : Nat} {b b' : Band} {w : Work}

theorem workFits_mono (hstart : b'.start ≤ b.start) (hstop : b.stop ≤ b'.stop)
    (h : workFits ph op cols b w) : workFits ph op cols b' w := by
  cases w
  all_goals
    obtain ⟨hstage, hrow, hrow', hrest⟩ := h
    exact ⟨hstage, hstart.trans hrow, hrow'.trans_le hstop, hrest⟩

/-- Every item of the image fits a band of the partition (R72, R73). -/
theorem exists_band_of_workFits (hn : 1 ≤ n)
    (h : workFits ph op cols { start := 0, stop := rows } w) :
    ∃ b ∈ bands rows n, workFits ph op cols b w := by
  cases w
  all_goals
    obtain ⟨hstage, -, hrow, hrest⟩ := h
    obtain ⟨k, hk, hin⟩ := exists_bandOf_of_lt hn hrow
    exact ⟨_, mem_bands.mpr ⟨k, hk, rfl⟩, hstage, hin.1, hin.2, hrest⟩

/-- The loop over a band that is a lane's work in a command's first stage. -/
def firstWork : Instr → Nat → Band → List Work
  | .gray => grayWork
  | .sepia => sepiaWork
  | .neg => negWork
  | .sobel => sobelWork
  | .thrinv => thrinvWork
  | .run => stageAWork

theorem eq_run_of_firstPhase (h : firstPhase op = .stageA) : op = .run :=
  (firstPhase_stages op).mpr (.inl h)

/-- The loop of a first stage passes every item that fits the stage and the band. -/
theorem mem_firstWork (h : workFits (firstPhase op) op cols b w) : w ∈ firstWork op cols b := by
  cases w with
  | gray i j =>
    obtain ⟨hstage, hstart, hstop, hj⟩ := h
    have hmem := (mem_grayWork cols b _).mpr ⟨i, j, rfl, ⟨hstart, hstop⟩, hj⟩
    obtain ⟨-, rfl⟩ | hA := hstage
    · exact hmem
    · rw [eq_run_of_firstPhase hA]
      exact List.mem_append_left _ (List.mem_append_left _ hmem)
  | sepia i j =>
    obtain ⟨hstage, hstart, hstop, hj⟩ := h
    have hmem := (mem_sepiaWork cols b _).mpr ⟨i, j, rfl, ⟨hstart, hstop⟩, hj⟩
    obtain ⟨-, rfl⟩ | hA := hstage
    · exact hmem
    · rw [eq_run_of_firstPhase hA]
      exact List.mem_append_left _ (List.mem_append_right _ hmem)
  | neg i j ch =>
    obtain ⟨hstage, hstart, hstop, hj, hch⟩ := h
    have hmem := (mem_negWork cols b _).mpr ⟨i, j, ch, rfl, ⟨hstart, hstop⟩, hj, hch⟩
    obtain ⟨-, rfl⟩ | hA := hstage
    · exact hmem
    · rw [eq_run_of_firstPhase hA]
      exact List.mem_append_right _ hmem
  | sobel i j =>
    obtain ⟨⟨-, rfl⟩ | hB, hstart, hstop, hj⟩ := h
    · exact (mem_sobelWork cols b _).mpr ⟨i, j, rfl, ⟨hstart, hstop⟩, hj⟩
    · cases op <;> cases hB
  | thrinv i j =>
    obtain ⟨⟨-, rfl⟩, hstart, hstop, hj⟩ := h
    exact (mem_thrinvWork cols b _).mpr ⟨i, j, rfl, ⟨hstart, hstop⟩, hj⟩

/-- The same of RUN's second stage, which consists of SOBEL's items. -/
theorem mem_sobelWork_of_stageB (h : workFits .stageB .run cols b w) : w ∈ sobelWork cols b := by
  cases w with
  | sobel i j =>
    obtain ⟨-, hstart, hstop, hj⟩ := h
    exact (mem_sobelWork cols b _).mpr ⟨i, j, rfl, ⟨hstart, hstop⟩, hj⟩
  | _ => simp [workFits] at h

/-- Banded lanes have every item of the image to do between them. -/
theorem exists_mem_bandedLanes {work : Nat → Band → List Work} {s : State} (hworkers : 1 ≤ s.ln)
    (hwork : ∀ b w, workFits ph op s.lcols b w → w ∈ work s.lcols b)
    (h : workFits ph op s.lcols { start := 0, stop := s.lrows } w) :
    ∃ l ∈ bandedLanes work s, w ∈ l.todo := by
  obtain ⟨b, hb, hfits⟩ := exists_band_of_workFits hworkers h
  exact ⟨_, List.mem_map_of_mem hb, hwork b w hfits⟩

/-- THRINV's lane 0 has the whole image to do (R75). -/
theorem exists_mem_singleLane {work : Nat → Band → List Work} {s : State} (hworkers : 1 ≤ s.ln)
    (h : w ∈ work s.lcols { start := 0, stop := s.lrows }) : ∃ l ∈ singleLane work s, w ∈ l.todo :=
  ⟨_, List.mem_map_of_mem (List.mem_range.mpr hworkers), h⟩

theorem firstPlan_of_ne_thrinv (h : op ≠ .thrinv) : firstPlan op = bandedLanes (firstWork op) := by
  cases op
  case thrinv => exact absurd rfl h
  all_goals rfl

/-- Where a command has just been accepted, every item of its first stage is pending. -/
theorem pending_started {s : State} (i : Instr) (hnmax : 1 ≤ s.params.nmax)
    (hw : (s.started i).stage.Item w) : (s.started i).Pending w := by
  have hworkers : 1 ≤ (s.accepted i).ln := (effectiveWorkers_bounds hnmax).1
  change workFits (firstPhase i) i (s.accepted i).lcols _ w at hw
  change ∃ l ∈ firstPlan i (s.accepted i), w ∈ l.todo
  by_cases hthrinv : i = .thrinv
  · subst hthrinv
    exact exists_mem_singleLane hworkers (mem_firstWork hw)
  · rw [firstPlan_of_ne_thrinv hthrinv]
    exact exists_mem_bandedLanes hworkers (fun _ _ => mem_firstWork) hw

end

/-! ## The lanes of a running stage -/

/-- An item that a lane has left is one of the stage's. -/
theorem RunningInv.item_of_mem {s : State} (h : RunningInv s) {l : Lane} {w : Work} (hl : l ∈ s.lanes)
    (hw : w ∈ l.todo) : s.stage.Item w :=
  workFits_mono (Nat.zero_le _) (h.band_stop_le hl) ((h.lanes l hl).fits w hw)

/-- Where the stage is complete, no item is pending (R70). -/
theorem RunningInv.not_pending {s : State} (h : RunningInv s) (hcomplete : s.stageComplete = true)
    (w : Work) : ¬ s.Pending w := by
  rintro ⟨l, hl, hw⟩
  have hnil : l.todo = [] := by
    cases hactive : l.active with
    | false => exact ((h.lanes l hl).inactive hactive).1
    | true => exact (h.lanes l hl).finished ((stageComplete_iff s).mp hcomplete l hl hactive)
  rw [hnil] at hw
  cases hw

/-- An item stays pending where one lane's list changes, if it stays in that list. -/
theorem pending_setLane {s t : State} {k : Nat} {l l' : Lane} {w : Work} (hlanes : t.lanes = s.lanes)
    (hl : s.lanes[k]? = some l) (hkeep : w ∈ l.todo → w ∈ l'.todo) (h : s.Pending w) :
    (t.setLane k l').Pending w := by
  obtain ⟨x, hx, hw⟩ := h
  obtain ⟨j, hj⟩ := List.mem_iff_getElem?.mp hx
  rw [State.Pending, State.setLane_lanes, hlanes]
  by_cases hjk : k = j
  · subst hjk
    obtain rfl : l = x := Option.some.inj (hl.symm.trans hj)
    exact ⟨l', List.mem_set (List.getElem?_eq_some_iff.mp hl).1 l', hkeep hw⟩
  · exact ⟨x, List.mem_of_getElem? ((List.getElem?_set_ne hjk).trans hj), hw⟩

/-- A lane's turn carries the stage on from whatever it was started on. -/
theorem laneTurn_progress {k n : Nat} {s t : State} {m : Buffers} (hinv : Inv s)
    (h : laneTurn k n s = .next t) (hprogress : s.stage.Progress s.Pending m s.bufs) :
    t.stage.Progress t.Pending m t.bufs := by
  obtain rfl | ⟨l, hl, -, -, -, -, rfl⟩ | ⟨l, w, u, q, hl, hphase, -, -, hw, hwork, rfl⟩ :=
    laneTurn_cases h
  · exact hprogress
  · exact hprogress.mono fun x _ => pending_setLane rfl hl id
  · have hrunning := hinv.running (hinv.busy_of_phase hphase)
    have hitem := hrunning.item_of_mem (List.mem_of_getElem? hl) (List.mem_of_getElem? hw)
    obtain rfl := runWork_ok w s u hwork
    refine hprogress.runItem hitem fun x hx => ?_
    by_cases heq : x = w
    · exact .inr heq
    · refine .inl (pending_setLane (s := s) rfl hl (fun hmem => ?_) hx)
      obtain ⟨j, hj⟩ := List.mem_iff_getElem?.mp hmem
      refine List.mem_eraseIdx_iff_getElem?.mpr ⟨j, fun hjq => heq ?_, hj⟩
      subst hjq
      exact Option.some.inj (hj.symm.trans hw)

/-! ## The command's run -/

/-- The command that runs or has last run in `s` was issued on the buffers `m` and has come as far as
`s` (R70, R94). -/
structure Executing (m : Buffers) (s : State) : Prop where
  inv : Inv s
  running : s.status.busy = true → ∃ m₁, StageStart s.phase s.lrows s.lcols m m₁ ∧
    s.stage.Progress s.Pending m₁ s.bufs
  finished : s.status.busy = false → CommandDone s.curop s.lrows s.lcols m s.bufs

/-- A command just accepted has done nothing yet. -/
theorem executing_started {s : State} (h : Inv s) (i : Instr)
    (hdims : ¬ dimensionsBad s.params s.rows.toNat s.cols.toNat = true) :
    Executing s.bufs (s.started i) where
  inv := h.started i hdims
  running _ := by
    have hfirst : firstPhase i ≠ .stageB := by cases i <;> decide
    exact ⟨s.bufs, stageStart_self hfirst _ _ _,
      .start (fun w => pending_started i h.nmax_pos) s.bufs⟩
  finished hidle := by cases hidle

/-- The last stage of a running command is the one that no barrier follows (R70, R95). -/
theorem RunningInv.lastPhase_eq {s : State} (h : RunningInv s) (hidle : s.phase ≠ .idle)
    (hlast : s.phase ≠ .stageA) : lastPhase s.curop = s.phase := by
  cases hphase : s.phase with
  | idle => exact absurd hphase hidle
  | stageA => exact absurd hphase hlast
  | stageB => rw [h.stages.mpr (.inr hphase)]; rfl
  | single =>
    refine lastPhase_of_ne_run fun hrun => ?_
    obtain hA | hB := h.stages.mp hrun
    · rw [hphase] at hA; cases hA
    · rw [hphase] at hB; cases hB

/-- A lane's turn keeps how far the command has come. -/
theorem Executing.laneTurn {k n : Nat} {s t : State} {m : Buffers} (h : Executing m s)
    (hbusy : s.status.busy = true) (hturn : laneTurn k n s = .next t) : Executing m t := by
  have hstatus := laneTurn_status hturn
  refine ⟨laneTurn_keeps_inv h.inv hturn, fun _ => ?_, fun hidle => ?_⟩
  · obtain ⟨m₁, hstart, hprogress⟩ := h.running hbusy
    refine ⟨m₁, ?_, laneTurn_progress h.inv hturn hprogress⟩
    obtain ⟨hframe, -⟩ := laneTurn_frame hturn
    rw [hframe]
    exact hstart
  · rw [hstatus, hbusy] at hidle; cases hidle

/-- Passing RUN's barrier starts stage B on what stage A has left, with all its items pending (R95). -/
theorem Executing.stageB {s : State} {m : Buffers} (h : Executing m s) (hphase : s.phase = .stageA)
    (hcomplete : s.stageComplete = true) :
    Executing m { s with phase := .stageB, lanes := bandedLanes sobelWork s } := by
  have hbusy : s.status.busy = true := h.inv.busy_of_phase (by rw [hphase]; decide)
  have hrunning := h.inv.running hbusy
  have hrun : s.curop = .run := hrunning.stages.mpr (.inl hphase)
  refine ⟨h.inv.stageB hphase, fun _ => ⟨s.bufs, ?_, .start (fun w hw => ?_) s.bufs⟩, fun hidle => ?_⟩
  · obtain ⟨m₁, hstart, hprogress⟩ := h.running hbusy
    rw [StageStart, hphase, if_neg (by decide)] at hstart
    subst hstart
    rw [StageStart, if_pos rfl]
    rw [State.stage, hphase, hrun] at hprogress
    exact hprogress.mono fun w _ => hrunning.not_pending hcomplete w
  · change workFits .stageB s.curop _ _ w at hw
    rw [hrun] at hw
    exact exists_mem_bandedLanes hrunning.workers.1 (fun _ _ => mem_sobelWork_of_stageB) hw
  · change s.status.busy = false at hidle
    rw [hbusy] at hidle; cases hidle

/-- Completion ends the command with its last stage done (R70). -/
theorem Executing.complete {s : State} {m : Buffers} (h : Executing m s) (hidle : s.phase ≠ .idle)
    (hlast : s.phase ≠ .stageA) (hcomplete : s.stageComplete = true) : Executing m s.complete := by
  have hbusy := h.inv.busy_of_phase hidle
  have hrunning := h.inv.running hbusy
  refine ⟨h.inv.complete hidle, fun hbusy' => (by cases hbusy'), fun _ => ?_⟩
  obtain ⟨m₁, hstart, hprogress⟩ := h.running hbusy
  change CommandDone s.curop s.lrows s.lcols m s.bufs
  rw [CommandDone, hrunning.lastPhase_eq hidle hlast]
  exact ⟨m₁, hstart, hprogress.mono fun w _ => hrunning.not_pending hcomplete w⟩

theorem Executing.sequencerTurn {s t : State} {m : Buffers} (h : Executing m s)
    (hturn : sequencerTurn s = .next t) : Executing m t := by
  rw [sequencerTurn_cases] at hturn
  split_ifs at hturn with hwait hstageA <;> cases hturn
  · exact h
  · exact h.stageB hstageA (by simpa using (not_or.mp hwait).1)
  · obtain ⟨hcomplete, hidle⟩ := not_or.mp hwait
    exact h.complete hidle hstageA (by simpa using hcomplete)

/-- While IDLE a lane's turn does nothing (log 4). -/
theorem laneTurn_of_idle {k n : Nat} {s t : State} (hphase : s.phase = .idle)
    (h : laneTurn k n s = .next t) : t = s := by
  obtain rfl | ⟨_, -, hne, -⟩ | ⟨_, _, _, _, -, hne, -⟩ := laneTurn_cases h
  · rfl
  · exact absurd hphase hne
  · exact absurd hphase hne

/-- Every turn of the block's agents keeps how far the command has come. -/
theorem Executing.blockTurn {turn : Turn} {s t : State} {m : Buffers} (h : Executing m s)
    (hblock : Turn.ofBlock turn = true) (hturn : takeTurn turn s = .next t) : Executing m t := by
  cases turn with
  | host => cases hblock
  | sequencer => exact h.sequencerTurn hturn
  | lane k n =>
    by_cases hbusy : s.status.busy = true
    · exact h.laneTurn hbusy hturn
    · rw [laneTurn_of_idle (h.inv.idle.mpr (by simpa using hbusy)) hturn]
      exact h
  | reset => cases hblock

/-! ## Runs of the block -/

/-- What every turn of the block's agents keeps, whatever the schedule, a run of the block keeps. -/
theorem BlockRun.induction {P : State → Prop} (hsched : ∀ s ts, P s → P { s with sched := ts })
    (hturn : ∀ turn s t, Turn.ofBlock turn = true → takeTurn turn s = .next t → P s → P t) {s u : State}
    (h : BlockRun s u) (hs : P s) : P u := by
  obtain ⟨ts, hblock, hrun⟩ := h
  induction ts generalizing s with
  | nil => rw [runTurns_nil] at hrun; cases hrun; exact hsched s [] hs
  | cons turn ts ih =>
    rw [runTurns_cons] at hrun
    cases hnext : takeTurn turn s with
    | next t =>
      rw [hnext] at hrun
      exact ih (hturn turn s t (hblock turn List.mem_cons_self) hnext hs)
        (fun x hx => hblock x (List.mem_cons_of_mem _ hx)) hrun
    | fault f => rw [hnext] at hrun; cases hrun
    | refused r => rw [hnext] at hrun; cases hrun

/-- What a run of the block leaves as it was: all but the lanes, the buffers, the schedule, and, if the
command completes, its phase, BUSY and DONE (R70). -/
structure BlockFrame (s t : State) : Prop where
  params : t.params = s.params
  rows : t.rows = s.rows
  cols : t.cols = s.cols
  nworkers : t.nworkers = s.nworkers
  lrows : t.lrows = s.lrows
  lcols : t.lcols = s.lcols
  curop : t.curop = s.curop
  host : t.hostOps = s.hostOps ∧ t.hostReads = s.hostReads
  status : t.status = s.status ∨ t.status = s.status.completed

theorem BlockFrame.refl (s : State) : BlockFrame s s :=
  ⟨rfl, rfl, rfl, rfl, rfl, rfl, rfl, ⟨rfl, rfl⟩, .inl rfl⟩

theorem BlockFrame.trans {s t u : State} (h : BlockFrame s t) (h' : BlockFrame t u) : BlockFrame s u where
  params := h'.params.trans h.params
  rows := h'.rows.trans h.rows
  cols := h'.cols.trans h.cols
  nworkers := h'.nworkers.trans h.nworkers
  lrows := h'.lrows.trans h.lrows
  lcols := h'.lcols.trans h.lcols
  curop := h'.curop.trans h.curop
  host := ⟨h'.host.1.trans h.host.1, h'.host.2.trans h.host.2⟩
  status := by
    obtain hst | hst := h.status <;> obtain htu | htu := h'.status <;> rw [htu, hst]
    · exact .inl rfl
    all_goals exact .inr rfl

theorem blockFrame_laneTurn {k n : Nat} {s t : State} (h : laneTurn k n s = .next t) :
    BlockFrame s t := by
  obtain ⟨hframe, -⟩ := laneTurn_frame h
  rw [hframe]
  exact ⟨rfl, rfl, rfl, rfl, rfl, rfl, rfl, ⟨rfl, rfl⟩, .inl rfl⟩

theorem blockFrame_sequencerTurn {s t : State} (h : sequencerTurn s = .next t) : BlockFrame s t := by
  rw [sequencerTurn_cases] at h
  split_ifs at h <;> cases h
  · exact .refl s
  · exact ⟨rfl, rfl, rfl, rfl, rfl, rfl, rfl, ⟨rfl, rfl⟩, .inl rfl⟩
  · exact ⟨rfl, rfl, rfl, rfl, rfl, rfl, rfl, ⟨rfl, rfl⟩, .inr rfl⟩

theorem BlockRun.frame {s u : State} (h : BlockRun s u) : BlockFrame s u := by
  refine h.induction (P := BlockFrame s) (fun t ts ht => { ht with }) (fun turn t v hblock hturn ht => ?_)
    (.refl s)
  cases turn with
  | host => cases hblock
  | sequencer => exact ht.trans (blockFrame_sequencerTurn hturn)
  | lane k n => exact ht.trans (blockFrame_laneTurn hturn)
  | reset => cases hblock

theorem BlockRun.executing {s u : State} {m : Buffers} (h : BlockRun s u) (hs : Executing m s) :
    Executing m u :=
  h.induction (P := Executing m)
    (fun s ts hs => ⟨hs.inv.congr (by constructor <;> rfl) rfl, hs.running, hs.finished⟩)
    (fun _ _ _ hblock hturn hs => hs.blockTurn hblock hturn) hs

/-! ## A command that completes -/

/-- A command that completes was accepted, and the block ran from its acceptance (R67, R69). -/
theorem Completes.accepted {i : Instr} {s u : State} (h : Completes i s u) :
    ¬ dimensionsBad s.params s.rows.toNat s.cols.toNat = true ∧ BlockRun (s.started i) u := by
  obtain ⟨hidle, t, hexec, hbusy, hrun, -⟩ := h
  by_cases hdims : dimensionsBad s.params s.rows.toNat s.cols.toNat = true
  · rw [exec_of_dimensionsBad i hidle hdims] at hexec
    cases hexec
    cases hbusy
  · rw [exec_of_dimensionsOk i hidle hdims] at hexec
    cases hexec
    exact ⟨hdims, hrun⟩

/-- A command that completes leaves DONE alone set, and OVR and the registers as they were (R70). -/
theorem Completes.frame {i : Instr} {s u : State} (h : Completes i s u) (hinv : Inv s) :
    CompletedFrame s u := by
  obtain ⟨hdims, hrun⟩ := h.accepted
  obtain ⟨-, _, -, -, -, hidle⟩ := h
  have hframe := hrun.frame
  have hinv' := (hrun.executing (executing_started hinv i hdims)).inv
  refine ⟨?_, hinv'.idle.mpr hidle, hframe.rows, hframe.cols, hframe.nworkers, hframe.params, hframe.host⟩
  obtain hsame | hcompleted := hframe.status
  · rw [hsame] at hidle; cases hidle
  · exact hcompleted

/-- A command that completes leaves in the buffers what its stages leave (R70, R94). -/
theorem Completes.done {i : Instr} {s u : State} (h : Completes i s u) (hinv : Inv s) :
    Inv u ∧ CommandDone i s.rows.toNat s.cols.toNat s.bufs u.bufs := by
  obtain ⟨hdims, hrun⟩ := h.accepted
  obtain ⟨-, _, -, -, -, hidle⟩ := h
  have hu := hrun.executing (executing_started hinv i hdims)
  have hdone := hu.finished hidle
  rw [hrun.frame.curop, hrun.frame.lrows, hrun.frame.lcols] at hdone
  exact ⟨hu.inv, hdone⟩

/-- Settles O16: what a command's stages leave is determined by the buffers and the image's size, and
canonical buffers with equal bytes are equal. -/
theorem resultIndependentOfLanesAndOrder : Obligations.ResultIndependentOfLanesAndOrder := by
  unfold Obligations.ResultIndependentOfLanesAndOrder
  intro i s s' u u' hinv hinv' hbufs hrows hcols hovr hrun hrun'
  obtain ⟨hu, hdone⟩ := hrun.done hinv
  obtain ⟨hu', hdone'⟩ := hrun'.done hinv'
  rw [← hbufs, ← hrows, ← hcols] at hdone'
  constructor
  · exact Buffers.ext_read _ _ hu.canonical hu'.canonical fun b off =>
      congrFun (congrFun (hdone.read_eq hdone') b) off
  · rw [(hrun.frame hinv).status, (hrun'.frame hinv').status, hovr]

end Sys2Proof.Machine

/-! PROOFS. The grayscale function: a truncated average of three bytes (O47). -/

namespace Sys2Proof.Machine

theorem grayValue_eq (c0 c1 c2 : Nat) : grayValue c0 c1 c2 = (c0 + c1 + c2) / 3 := rfl

/-- The grayscale function does not depend on the order of the channels (R79). -/
theorem grayValue_swap (c0 c1 c2 : Nat) :
    grayValue c1 c0 c2 = grayValue c0 c1 c2 ∧ grayValue c0 c2 c1 = grayValue c0 c1 c2 := by
  simp only [grayValue_eq]
  rw [Nat.add_comm c1 c0, Nat.add_right_comm c0 c2 c1]
  exact ⟨rfl, rfl⟩

/-- Settles O47: the quotient by 3 truncates, and three channels of a byte sum to at most 765. -/
theorem grayValueIsTheTruncatedAverage : Obligations.GrayValueIsTheTruncatedAverage := by
  unfold Obligations.GrayValueIsTheTruncatedAverage
  intro c0 c1 c2 h0 h1 h2
  have hsum : c0 + c1 + c2 ≤ 765 := by omega
  refine ⟨grayValue_eq c0 c1 c2, hsum, ?_, ?_, ?_, grayValue_swap c0 c1 c2⟩
  all_goals
    rw [grayValue_eq]
    omega

end Sys2Proof.Machine

/-! PROOFS. A command issued in any acceptable state, whatever the buffers hold: what its stages leave,
and, where its input image is written, that the block's own turns complete it (R115, R116). -/

namespace Sys2Proof.Machine

/-! ## The bytes a stage reads and stores -/

/-- An item reads its input buffer, within the image (R36, R86). -/
theorem itemReads_in_image {s : State} {w : Work} {b : BufId} {off : Nat} (hw : s.stage.Item w)
    (h : itemReads s w b off) : b = workInput w ∧ off < imageBytes s.lrows s.lcols b := by
  have hpixel {b : BufId} {i j k : Nat} (hi : i < s.lrows) (hj : j < s.lcols) (hk : k < channels b) :
      (i * s.lcols + j) * channels b + k < imageBytes s.lrows s.lcols b :=
    pixelOffset_lt_imageBytes hi hj hk
  cases w with
  | sobel i j =>
    obtain ⟨rfl, i', j', hi, hj, -, -, -, -, rfl⟩ := h
    exact ⟨rfl, by simpa [channels] using hpixel (b := .gray) (k := 0) hi hj (by decide)⟩
  | thrinv i j =>
    obtain ⟨-, -, hi, hj⟩ := hw
    obtain ⟨rfl, rfl⟩ := h
    exact ⟨rfl, by simpa [channels] using hpixel (b := .tin) (k := 0) hi hj (by decide)⟩
  | neg i j ch =>
    obtain ⟨-, -, hi, hj, hch⟩ := hw
    obtain ⟨rfl, rfl⟩ := h
    exact ⟨rfl, hpixel (b := .src) hi hj hch⟩
  | _ i j =>
    obtain ⟨-, -, hi, hj⟩ := hw
    obtain ⟨rfl, ch, hch, rfl⟩ := h
    exact ⟨rfl, hpixel (b := .src) hi hj hch⟩

/-- The buffer an item of the stage reads is as the stage found it. -/
theorem Stage.Progress.read_input {g : Stage} {pending : Work → Prop} {m m' : Buffers} {w : Work}
    (h : g.Progress pending m m') (hw : g.Item w) (off : Nat) :
    m'.read (workInput w) off = m.read (workInput w) off := by
  refine h.kept _ _ fun w' v hstore => ?_
  obtain ⟨i, j, k, -, hat, -⟩ := itemStores_pixel hstore.1 hstore.2
  exact Stage.workOutput_ne_workInput hw hstore.1 (workOutput_of_workAt hat).symm

/-- What an item of a command's stage stores lies in the image area of a buffer the command writes
(R39, R63). -/
theorem Stage.Stores.in_image {g : Stage} {m : Buffers} {w : Work} {b : BufId} {off v : Nat}
    (hstages : g.op = .run ↔ g.phase = .stageA ∨ g.phase = .stageB) (h : g.Stores m w b off v) :
    b ∈ cmdWrites g.op ∧ off < imageBytes g.rows g.cols b := by
  obtain ⟨i, j, k, rfl, hat, ⟨-, hi⟩, hj, hk⟩ := itemStores_pixel h.1 h.2
  rw [workOutput_of_workAt hat] at hk ⊢
  exact ⟨workOutput_mem_cmdWrites hstages h.1, pixelOffset_lt_imageBytes hi hj hk⟩

theorem Stage.Done.onlyImagesChange {g : Stage} {m m' : Buffers} (h : g.Done m m')
    (hstages : g.op = .run ↔ g.phase = .stageA ∨ g.phase = .stageB) :
    OnlyImagesChange g.rows g.cols (cmdWrites g.op) m m' := by
  intro b off hout
  refine h.kept b off fun w v hstore => ?_
  obtain ⟨hb, hoff⟩ := hstore.in_image hstages
  exact hout.elim (fun hnot => hnot hb) fun hle => Nat.not_lt.mpr hle hoff

theorem lastPhase_stages (i : Instr) : i = .run ↔ lastPhase i = .stageA ∨ lastPhase i = .stageB := by
  cases i <;> decide

/-- A command changes nothing but the image areas of the buffers it writes (R39). -/
theorem CommandDone.onlyImagesChange {i : Instr} {rows cols : Nat} {m m' : Buffers}
    (h : CommandDone i rows cols m m') : OnlyImagesChange rows cols (cmdWrites i) m m' := by
  obtain ⟨m₁, hstart, hdone⟩ := h
  have hlast := hdone.onlyImagesChange (lastPhase_stages i)
  by_cases hB : lastPhase i = .stageB
  · rw [StageStart, if_pos hB] at hstart
    obtain rfl := (lastPhase_stages i).mpr (.inr hB)
    intro b off hout
    rw [hlast b off hout]
    exact hstart.onlyImagesChange (iff_of_true rfl (.inl rfl)) b off hout
  · rw [StageStart, if_neg hB] at hstart
    exact hstart ▸ hlast

/-- A command of one stage leaves what that stage leaves. -/
theorem CommandDone.single {i : Instr} {rows cols : Nat} {m m' : Buffers} (hi : i ≠ .run)
    (h : CommandDone i rows cols m m') : Stage.Done { phase := .single, op := i, rows, cols } m m' := by
  obtain ⟨m₁, hstart, hdone⟩ := h
  rw [lastPhase_of_ne_run hi] at hstart hdone
  rw [StageStart, if_neg (by decide)] at hstart
  exact hstart ▸ hdone

/-! ## The input of a stage is written -/

/-- Where GRAY's items have run, the GRAY image is written (R80). -/
theorem Stage.Done.gray_written {rows cols : Nat} {m m' : Buffers}
    (h : Stage.Done { phase := .stageA, op := .run, rows, cols } m m') :
    Written m' .gray (imageBytes rows cols .gray) := by
  intro off hoff
  rw [imageBytes, channels, Nat.mul_one] at hoff
  have hcols : 0 < cols := Nat.pos_of_ne_zero fun hzero => by simp [hzero] at hoff
  have hitem : Stage.Item { phase := .stageA, op := .run, rows, cols } (.gray (off / cols) (off % cols)) :=
    ⟨.inr rfl, Nat.zero_le _, (Nat.div_lt_iff_lt_mul hcols).mpr hoff, Nat.mod_lt _ hcols⟩
  have hstored := h.stored _ .gray _ _ ⟨hitem, List.mem_singleton_self _⟩ id
  rw [Nat.div_add_mod'] at hstored
  rw [hstored]
  exact Option.some_ne_none _

/-- Before RUN's barrier an item reads the input image of the command (R63, R115). -/
theorem workInput_eq_cmdInput {ph : Phase} {op : Instr} {cols : Nat} {b : Band} {w : Work}
    (hstages : op = .run ↔ ph = .stageA ∨ ph = .stageB) (hB : ph ≠ .stageB)
    (h : workFits ph op cols b w) : workInput w = cmdInput op := by
  cases w with
  | thrinv i j => obtain ⟨⟨-, rfl⟩, -⟩ := h; rfl
  | sobel i j =>
    obtain ⟨⟨-, rfl⟩ | hphase, -⟩ := h
    · rfl
    · exact absurd hphase hB
  | _ =>
    obtain ⟨⟨-, rfl⟩ | hphase, -⟩ := h
    · rfl
    · rw [hstages.mpr (.inl hphase)]; rfl

/-- In RUN's second stage an item reads GRAY (R94). -/
theorem workInput_of_stageB {op : Instr} {cols : Nat} {b : Band} {w : Work}
    (h : workFits .stageB op cols b w) : workInput w = .gray := by
  cases w with
  | sobel i j => rfl
  | _ => simp [workFits] at h

/-- A stage finds the image that its items read written: by the host before the command (R115), or by
RUN's first stage (R94). -/
theorem StageStart.input_written {g : Stage} {m m₁ : Buffers} {w : Work}
    (h : StageStart g.phase g.rows g.cols m m₁)
    (hstages : g.op = .run ↔ g.phase = .stageA ∨ g.phase = .stageB)
    (hin : Written m (cmdInput g.op) (imageBytes g.rows g.cols (cmdInput g.op))) (hw : g.Item w) :
    Written m₁ (workInput w) (imageBytes g.rows g.cols (workInput w)) := by
  unfold StageStart at h
  split at h
  case isTrue hB =>
    rw [Stage.Item, hB] at hw
    rw [workInput_of_stageB hw]
    exact h.gray_written
  case isFalse hB =>
    rw [h, workInput_eq_cmdInput hstages hB hw]
    exact hin

/-! ## The steps that remain -/

/-- The steps a lane still has to take: its items and its `laneDone` (R74). -/
def Lane.steps (l : Lane) : Nat := l.todo.length + if l.active && !l.done then 1 else 0

theorem remainingSteps_eq (s : State) :
    remainingSteps s = (s.lanes.map Lane.steps).sum +
      match s.phase with
      | .idle => 0
      | .single => 1
      | .stageA => s.lrows * s.lcols + s.ln + 2
      | .stageB => 1 := rfl

/-- A sum falls where one of its terms does. -/
theorem sum_map_set_lt {α : Type} {f : α → Nat} {as : List α} {k : Nat} {a b : α} (h : as[k]? = some a)
    (hlt : f b < f a) : ((as.set k b).map f).sum < (as.map f).sum := by
  induction as generalizing k with
  | nil => simp at h
  | cons x xs ih =>
    cases k with
    | zero =>
      obtain rfl : x = a := by simpa using h
      simpa using hlt
    | succ k => simpa using ih (by simpa using h)

/-- A lane with less to do leaves less to do. -/
theorem remainingSteps_setLane_lt {s t : State} {k : Nat} {l l' : Lane} (hst : SameControl s t)
    (hl : s.lanes[k]? = some l) (hlt : l'.steps < l.steps) :
    remainingSteps (t.setLane k l') < remainingSteps s := by
  simp only [remainingSteps_eq, State.setLane_lanes, State.setLane_phase, State.setLane_lrows,
    State.setLane_lcols, State.setLane_ln, hst.lanes, hst.phase, hst.lrows, hst.lcols, hst.ln]
  exact Nat.add_lt_add_right (sum_map_set_lt hl hlt) _

theorem sobelWork_length (cols : Nat) (b : Band) :
    (sobelWork cols b).length = (b.stop - b.start) * cols := by
  simp [sobelWork, bandPixels, bandRows, List.length_flatMap]

/-- Stage B has one step for each pixel of the image and one for each lane (R94, R95). -/
theorem bandedLanes_sobelWork_steps {s : State} (hworkers : 1 ≤ s.ln) :
    ((bandedLanes sobelWork s).map Lane.steps).sum = s.lrows * s.lcols + s.ln := by
  have hsteps (b : Band) : Lane.steps { band := b, todo := sobelWork s.lcols b, active := true, done := false }
      = (b.stop - b.start) * s.lcols + 1 := by
    simp [Lane.steps, sobelWork_length]
  simp only [bandedLanes, List.map_map, Function.comp_def, hsteps]
  rw [List.sum_map_add, List.sum_map_mul_right, bands_sizes_sum hworkers]
  simp

/-- Passing the barrier is a step. -/
theorem remainingSteps_stageB_lt {s : State} (hphase : s.phase = .stageA) (hworkers : 1 ≤ s.ln) :
    remainingSteps { s with phase := .stageB, lanes := bandedLanes sobelWork s } < remainingSteps s := by
  simp only [remainingSteps_eq, bandedLanes_sobelWork_steps hworkers, hphase]
  omega

/-- Completion is a step. -/
theorem remainingSteps_complete_lt {s : State} (hidle : s.phase ≠ .idle) :
    remainingSteps s.complete < remainingSteps s := by
  simp only [remainingSteps_eq, State.complete_lanes, State.complete_phase]
  cases hphase : s.phase
  case idle => exact absurd hphase hidle
  all_goals dsimp only; omega

/-! ## A command on its way -/

/-- Command `s.curop`, issued on the buffers `m`, runs and has come as far as `s`. Unlike `Executing` it
does not ask for `Inv`: an acceptable state need not hold canonical buffer memories. -/
structure Underway (m : Buffers) (s : State) : Prop where
  busy : s.status.busy = true
  phase : s.phase ≠ .idle
  running : RunningInv s
  progress : ∃ m₁, StageStart s.phase s.lrows s.lcols m m₁ ∧ s.stage.Progress s.Pending m₁ s.bufs

/-- Command `s.curop`, issued on the buffers `m`, has ended in `s`. -/
structure Ended (m : Buffers) (s : State) : Prop where
  idle : s.status.busy = false
  phase : s.phase = .idle
  done : CommandDone s.curop s.lrows s.lcols m s.bufs

theorem underway_started {s : State} (i : Instr) (hnmax : 1 ≤ s.params.nmax)
    (hdims : ¬ dimensionsBad s.params s.rows.toNat s.cols.toNat = true) :
    Underway s.bufs (s.started i) where
  busy := rfl
  phase := by cases i <;> nofun
  running := runningInv_started i hnmax hdims
  progress :=
    ⟨s.bufs, stageStart_self (by cases i <;> nofun) _ _ _, .start (fun _ => pending_started i hnmax) _⟩

/-- A lane's turn keeps what holds while a command runs: it takes an item off its list, or sets
`laneDone` with none left (R74). -/
theorem RunningInv.laneTurn {k n : Nat} {s t : State} (h : RunningInv s)
    (hturn : laneTurn k n s = .next t) : RunningInv t := by
  obtain rfl | ⟨l, hl, -, hactive, -, htodo, rfl⟩ | ⟨l, w, u, q, hl, -, hactive, hdone, -, hwork, rfl⟩ :=
    laneTurn_cases hturn
  · exact h
  · exact h.setLane hl rfl rfl ⟨by simp [htodo], by simp [hactive], fun _ => htodo⟩
  · have hsame := sameControl_runWork hwork
    have hu := h.congr hsame
    have hlu : u.lanes[k]? = some l := hsame.lanes ▸ hl
    have hlane := hu.lanes l (List.mem_of_getElem? hlu)
    exact hu.setLane hlu rfl rfl
      ⟨fun x hx => hlane.fits x (List.mem_of_mem_eraseIdx hx), by simp [hactive], by simp [hdone]⟩

/-- A pending item stays pending while a lane does another one. -/
theorem pending_eraseIdx {s t : State} {k q : Nat} {l : Lane} {w x : Work} (hlanes : t.lanes = s.lanes)
    (hl : s.lanes[k]? = some l) (hw : l.todo[q]? = some w) (hne : x ≠ w) (h : s.Pending x) :
    (t.setLane k { l with todo := l.todo.eraseIdx q }).Pending x := by
  refine pending_setLane hlanes hl (fun hx => ?_) h
  obtain ⟨r, hr⟩ := List.mem_iff_getElem?.mp hx
  refine List.mem_eraseIdx_iff_getElem?.mpr ⟨r, ?_, hr⟩
  rintro rfl
  exact hne (Option.some.inj (hr.symm.trans hw))

/-- A lane's turn carries the stage on from whatever it was started on. -/
theorem RunningInv.laneTurn_progress {k n : Nat} {s t : State} {m : Buffers} (h : RunningInv s)
    (hturn : Machine.laneTurn k n s = .next t) (hprogress : s.stage.Progress s.Pending m s.bufs) :
    t.stage.Progress t.Pending m t.bufs := by
  obtain rfl | ⟨l, hl, -, -, -, -, rfl⟩ | ⟨l, w, u, q, hl, -, -, -, hw, hwork, rfl⟩ :=
    laneTurn_cases hturn
  · exact hprogress
  · exact hprogress.mono fun x _ => pending_setLane rfl hl id
  · obtain rfl := runWork_ok w s u hwork
    have hitem := h.item_of_mem (List.mem_of_getElem? hl) (List.mem_of_getElem? hw)
    refine hprogress.runItem hitem fun x hx => or_iff_not_imp_right.mpr fun hne => ?_
    exact pending_eraseIdx (s := s) rfl hl hw hne hx

theorem Underway.laneTurn {k n : Nat} {s t : State} {m : Buffers} (h : Underway m s)
    (hturn : laneTurn k n s = .next t) : Underway m t := by
  obtain ⟨m₁, hstart, hprogress⟩ := h.progress
  have hprogress' := h.running.laneTurn_progress hturn hprogress
  have hrunning := h.running.laneTurn hturn
  obtain ⟨hframe, -⟩ := laneTurn_frame hturn
  rw [hframe] at hprogress' hrunning ⊢
  exact ⟨h.busy, h.phase, hrunning, m₁, hstart, hprogress'⟩

/-- Passing RUN's barrier starts stage B on what stage A has left, with all its items pending (R95). -/
theorem Underway.stageB {s : State} {m : Buffers} (h : Underway m s) (hphase : s.phase = .stageA)
    (hcomplete : s.stageComplete = true) :
    Underway m { s with phase := .stageB, lanes := bandedLanes sobelWork s } := by
  have hrun : s.curop = .run := h.running.stages.mpr (.inl hphase)
  obtain ⟨m₁, hstart, hprogress⟩ := h.progress
  rw [StageStart, hphase, if_neg (by decide)] at hstart
  rw [State.stage, hphase, hrun, hstart] at hprogress
  refine ⟨h.busy, nofun, h.running.stageB hphase, s.bufs, ?_, .start (fun w hw => ?_) s.bufs⟩
  · rw [StageStart, if_pos rfl]
    exact hprogress.mono fun w _ => h.running.not_pending hcomplete w
  · change workFits .stageB s.curop _ _ w at hw
    rw [hrun] at hw
    exact exists_mem_bandedLanes h.running.workers.1 (fun _ _ => mem_sobelWork_of_stageB) hw

/-- Completion ends the command with its last stage done (R70). -/
theorem Underway.complete {s : State} {m : Buffers} (h : Underway m s) (hlast : s.phase ≠ .stageA)
    (hcomplete : s.stageComplete = true) : Ended m s.complete := by
  obtain ⟨m₁, hstart, hprogress⟩ := h.progress
  refine ⟨rfl, rfl, ?_⟩
  change CommandDone s.curop s.lrows s.lcols m s.bufs
  rw [CommandDone, h.running.lastPhase_eq h.phase hlast]
  exact ⟨m₁, hstart, hprogress.mono fun w _ => h.running.not_pending hcomplete w⟩

/-- A turn of the block's agents carries a running command on, or ends it. -/
theorem Underway.blockTurn {turn : Turn} {s t : State} {m : Buffers} (h : Underway m s)
    (hblock : Turn.ofBlock turn = true) (hturn : takeTurn turn s = .next t) :
    Underway m t ∨ Ended m t := by
  cases turn with
  | host => cases hblock
  | reset => cases hblock
  | lane k n => exact .inl (h.laneTurn hturn)
  | sequencer =>
    change sequencerTurn s = _ at hturn
    rw [sequencerTurn_cases] at hturn
    split_ifs at hturn with hwait hstageA <;> cases hturn
    · exact .inl h
    · exact .inl (h.stageB hstageA (by simpa using (not_or.mp hwait).1))
    · exact .inr (h.complete hstageA (by simpa using (not_or.mp hwait).1))

/-- Once the command has ended the block's agents do nothing (log 4). -/
theorem blockTurn_of_idle {turn : Turn} {s t : State} (hphase : s.phase = .idle)
    (hblock : Turn.ofBlock turn = true) (hturn : takeTurn turn s = .next t) : t = s := by
  cases turn with
  | host => cases hblock
  | reset => cases hblock
  | lane k n => exact laneTurn_of_idle hphase hturn
  | sequencer =>
    change sequencerTurn s = _ at hturn
    rw [sequencerTurn_cases, if_pos (.inr hphase)] at hturn
    cases hturn
    rfl

/-- However the block's turns fall, an accepted command is on its way or has ended. -/
theorem BlockRun.underway_or_ended {s u : State} {m : Buffers} (h : BlockRun s u) (hs : Underway m s) :
    Underway m u ∨ Ended m u := by
  refine h.induction (P := fun s => Underway m s ∨ Ended m s) (fun s ts hs => ?_)
    (fun turn s t hblock hturn hs => ?_) (.inl hs)
  · obtain hs | hs := hs
    · exact .inl ⟨hs.busy, hs.phase, hs.running.congr (by constructor <;> rfl), hs.progress⟩
    · exact .inr ⟨hs.idle, hs.phase, hs.done⟩
  · obtain hs | hs := hs
    · exact hs.blockTurn hblock hturn
    · exact .inr (blockTurn_of_idle hs.phase hblock hturn ▸ hs)

/-! ## What a completed command leaves -/

theorem Completes.ended {i : Instr} {s u : State} (h : Completes i s u) (hnmax : 1 ≤ s.params.nmax) :
    Ended s.bufs u := by
  obtain ⟨hdims, hrun⟩ := h.accepted
  obtain ⟨-, _, -, -, -, hidle⟩ := h
  obtain hu | hu := hrun.underway_or_ended (underway_started i hnmax hdims)
  · rw [hu.busy] at hidle; cases hidle
  · exact hu

/-- A command that completes leaves in the buffers what its stages leave (R70, R94). -/
theorem Completes.commandDone {i : Instr} {s u : State} (h : Completes i s u)
    (hnmax : 1 ≤ s.params.nmax) : CommandDone i s.rows.toNat s.cols.toNat s.bufs u.bufs := by
  have hframe := h.accepted.2.frame
  have hdone := (h.ended hnmax).done
  rw [hframe.curop, hframe.lrows, hframe.lcols] at hdone
  exact hdone

/-- A command that completes leaves DONE alone set, and OVR and the registers as they were (R70). -/
theorem Completes.completedFrame {i : Instr} {s u : State} (h : Completes i s u)
    (hnmax : 1 ≤ s.params.nmax) : CompletedFrame s u := by
  have hframe := h.accepted.2.frame
  have hended := h.ended hnmax
  refine ⟨?_, hended.phase, hframe.rows, hframe.cols, hframe.nworkers, hframe.params, hframe.host⟩
  obtain hsame | hcompleted := hframe.status
  · have hidle := hended.idle
    rw [hsame] at hidle
    cases hidle
  · exact hcompleted

/-! ## An accepted command can complete -/

/-- The input image of the running command was written before it was issued (R115). -/
def InputWritten (m : Buffers) (s : State) : Prop :=
  Written m (cmdInput s.curop) (imageBytes s.lrows s.lcols (cmdInput s.curop))

/-- With the input image written, an item that a lane has left does not fault (R46). -/
theorem Underway.exists_runWork {s : State} {m : Buffers} {l : Lane} {w : Work} (h : Underway m s)
    (hin : InputWritten m s) (hl : l ∈ s.lanes) (hw : w ∈ l.todo) : ∃ t, runWork w s = .ok t := by
  obtain ⟨m₁, hstart, hprogress⟩ := h.progress
  have hitem := h.running.item_of_mem hl hw
  have hwritten := StageStart.input_written (g := s.stage) hstart h.running.stages hin hitem
  have hreads := readsBytes_runWork w s
  cases hres : runWork w s with
  | ok t => exact ⟨t, rfl⟩
  | error f =>
    rw [hres] at hreads
    obtain ⟨b, off, -, hread, hnone⟩ := hreads
    obtain ⟨rfl, hoff⟩ := itemReads_in_image hitem hread
    rw [hprogress.read_input hitem] at hnone
    exact absurd hnone (hwritten off hoff)

/-- A lane's turn for the first item it has left does that item. -/
theorem laneTurn_of_todo_cons {k : Nat} {s t : State} {l : Lane} {w : Work} {ws : List Work}
    (hphase : s.phase ≠ .idle) (hl : s.lanes[k]? = some l) (hactive : l.active = true)
    (hdone : l.done = false) (htodo : l.todo = w :: ws) (hwork : runWork w s = .ok t) :
    laneTurn k 0 s = .next (t.setLane k { l with todo := ws }) := by
  simp [laneTurn, State.laneWork, hl, hphase, hactive, hdone, htodo, hwork]

/-- While a used lane is not done, its turn shortens what is left (R74). -/
theorem Underway.exists_laneTurn {s : State} {m : Buffers} {k : Nat} {l : Lane} (h : Underway m s)
    (hin : InputWritten m s) (hl : s.lanes[k]? = some l) (hactive : l.active = true)
    (hdone : l.done = false) :
    ∃ t, Machine.laneTurn k 0 s = .next t ∧ remainingSteps t < remainingSteps s := by
  cases htodo : l.todo with
  | nil =>
    refine ⟨_, laneTurn_of_todo_nil 0 h.phase hl hactive hdone htodo, ?_⟩
    exact remainingSteps_setLane_lt (.refl s) hl (by simp [Lane.steps, htodo, hactive, hdone])
  | cons w ws =>
    obtain ⟨t, ht⟩ := h.exists_runWork hin (List.mem_of_getElem? hl) (htodo ▸ List.mem_cons_self)
    refine ⟨_, laneTurn_of_todo_cons h.phase hl hactive hdone htodo ht, ?_⟩
    exact remainingSteps_setLane_lt (sameControl_runWork ht) hl (by simp [Lane.steps, htodo])

/-- Where the stage is complete, the sequencer's turn shortens what is left (R70, R95). -/
theorem Underway.exists_sequencerTurn {s : State} {m : Buffers} (h : Underway m s)
    (hcomplete : s.stageComplete = true) :
    ∃ t, sequencerTurn s = .next t ∧ remainingSteps t < remainingSteps s := by
  by_cases hphase : s.phase = .stageA
  · refine ⟨_, ?_, remainingSteps_stageB_lt hphase h.running.workers.1⟩
    rw [sequencerTurn_cases, if_neg (by simp [hcomplete, hphase]), if_pos hphase]
  · exact ⟨_, sequencerTurn_of_lastStage h.phase hphase hcomplete, remainingSteps_complete_lt h.phase⟩

/-- Some turn of the block's agents shortens what is left of a running command (R116). -/
theorem Underway.exists_blockTurn {s : State} {m : Buffers} (h : Underway m s) (hin : InputWritten m s) :
    ∃ turn t, Turn.ofBlock turn = true ∧ takeTurn turn s = .next t ∧
      remainingSteps t < remainingSteps s := by
  by_cases hcomplete : s.stageComplete = true
  · obtain ⟨t, hturn, hlt⟩ := h.exists_sequencerTurn hcomplete
    exact ⟨.sequencer, t, rfl, hturn, hlt⟩
  · rw [stageComplete_iff] at hcomplete
    push Not at hcomplete
    obtain ⟨l, hl, hactive, hdone⟩ := hcomplete
    obtain ⟨k, hk⟩ := List.mem_iff_getElem?.mp hl
    obtain ⟨t, hturn, hlt⟩ := h.exists_laneTurn hin hk hactive (by simpa using hdone)
    exact ⟨.lane k 0, t, rfl, hturn, hlt⟩

theorem BlockRun.nil (s : State) : BlockRun s { s with sched := [] } := ⟨[], nofun, runTurns_nil s⟩

theorem BlockRun.cons {turn : Turn} {s t u : State} (hblock : Turn.ofBlock turn = true)
    (hturn : takeTurn turn s = .next t) (h : BlockRun t u) : BlockRun s u := by
  obtain ⟨ts, hts, hrun⟩ := h
  refine ⟨turn :: ts, List.forall_mem_cons.mpr ⟨hblock, hts⟩, ?_⟩
  rw [runTurns_cons, hturn]
  exact hrun

theorem blockFrame_takeTurn {turn : Turn} {s t : State} (hblock : Turn.ofBlock turn = true)
    (hturn : takeTurn turn s = .next t) : BlockFrame s t :=
  { (BlockRun.cons hblock hturn (.nil t)).frame with }

/-- A running command whose input image is written can be completed by turns of the block alone (R116). -/
theorem Underway.exists_blockRun {s : State} {m : Buffers} (h : Underway m s) (hin : InputWritten m s) :
    ∃ u, BlockRun s u ∧ u.status.busy = false := by
  induction hn : remainingSteps s using Nat.strong_induction_on generalizing s with
  | _ n ih =>
    obtain ⟨turn, t, hblock, hturn, hlt⟩ := h.exists_blockTurn hin
    obtain ht | ht := h.blockTurn hblock hturn
    · have hframe := blockFrame_takeTurn hblock hturn
      have hin' : InputWritten m t := by
        rw [InputWritten, hframe.curop, hframe.lrows, hframe.lcols]
        exact hin
      obtain ⟨u, hrun, hidle⟩ := ih _ (hn ▸ hlt) ht hin' rfl
      exact ⟨u, .cons hblock hturn hrun, hidle⟩
    · exact ⟨_, .cons hblock hturn (.nil t), ht.idle⟩

theorem Acceptable.dimensionsOk {s : State} (h : Acceptable s) :
    ¬ dimensionsBad s.params s.rows.toNat s.cols.toNat = true := by
  obtain ⟨-, hrows, hrows', hcols, hcols'⟩ := h
  rw [dimensionsBad_iff]
  omega

theorem nmax_pos_of_paramsOk {p : Params} (h : paramsOk p = true) : 1 ≤ p.nmax :=
  ((paramsOk_iff p).mp h).1.1

/-- A command issued in an acceptable state with its input image written can complete (R115, R116). -/
theorem Acceptable.exists_completes {s : State} (h : Acceptable s) (hnmax : 1 ≤ s.params.nmax) (i : Instr)
    (hin : Written s.bufs (cmdInput i) (imageBytes s.rows.toNat s.cols.toNat (cmdInput i))) :
    ∃ u, Completes i s u := by
  obtain ⟨u, hrun, hidle⟩ := (underway_started i hnmax h.dimensionsOk).exists_blockRun hin
  exact ⟨u, h.1, s.started i, exec_of_dimensionsOk i h.1 h.dimensionsOk, rfl, hrun, hidle⟩

end Sys2Proof.Machine

/-! PROOFS. GRAY is accepted, can complete, and leaves the grayscale image of SRC (O9). -/

namespace Sys2Proof.Machine

/-- GRAY's accepted state, as R69 and R72 describe it. -/
theorem started_gray (s : State) :
    s.started .gray = acceptedAs s .gray .single (freshLanes s (grayWork s.cols.toNat)) := rfl

/-- A stage that GRAY's items belong to leaves the grayscale image of SRC (R79, R80). -/
theorem Stage.Done.grayImage {g : Stage} {m m' : Buffers} (h : g.Done m m')
    (hgray : g.phase = .single ∧ g.op = .gray ∨ g.phase = .stageA) : GrayImage g.rows g.cols m m' := by
  intro i j hi hj c0 c1 c2 h0 h1 h2
  have hitem : g.Item (.gray i j) := ⟨hgray, Nat.zero_le i, hi, hj⟩
  rw [h.stored _ .gray _ _ ⟨hitem, List.mem_singleton_self _⟩ id, byteAt_of_read h0, byteAt_of_read h1,
    byteAt_of_read h2, grayValue_eq]

/-- Settles O9: acceptance starts the banded stage of GRAY, whose input image is SRC; what its items
leave is the grayscale image. -/
theorem grayCompletes : Obligations.GrayCompletes := by
  unfold Obligations.GrayCompletes
  intro s hacc hparams
  have hnmax := nmax_pos_of_paramsOk hparams
  refine ⟨?_, fun hin => ⟨?_, fun u hu => ?_⟩⟩
  · rw [exec_of_dimensionsOk .gray hacc.1 hacc.dimensionsOk, started_gray]
  · refine hacc.exists_completes hnmax .gray ?_
    rwa [Nat.mul_assoc, Nat.mul_comm] at hin
  · have hdone := hu.commandDone hnmax
    exact ⟨(hdone.single (by decide)).grayImage (.inl ⟨rfl, rfl⟩), hdone.onlyImagesChange,
      hu.completedFrame hnmax⟩

end Sys2Proof.Machine

/-! PROOFS. The sepia function: three weighted sums of a pixel's bytes, truncated and saturated (O48). -/

namespace Sys2Proof.Machine

/-! ## The three sums with the coefficients of R34 -/

theorem sepiaAcc_zero (c0 c1 c2 : Nat) : sepiaAcc 0 c0 c1 c2 = 131 * c0 + 534 * c1 + 272 * c2 := rfl

theorem sepiaAcc_one (c0 c1 c2 : Nat) : sepiaAcc 1 c0 c1 c2 = 168 * c0 + 686 * c1 + 349 * c2 := rfl

theorem sepiaAcc_two (c0 c1 c2 : Nat) : sepiaAcc 2 c0 c1 c2 = 189 * c0 + 769 * c1 + 393 * c2 := rfl

theorem sepiaValue_eq (o c0 c1 c2 : Nat) : sepiaValue o c0 c1 c2 = min 255 (sepiaAcc o c0 c1 c2 / 1000) :=
  sat8_ofNat _

theorem sepiaValue_le (o c0 c1 c2 : Nat) : sepiaValue o c0 c1 c2 ≤ 255 := sat8_le _

/-- Settles O48: a sum is greatest at white, where only the first one's quotient stays below the clamp. -/
theorem sepiaRanges : Obligations.SepiaRanges := by
  unfold Obligations.SepiaRanges
  refine ⟨fun c0 c1 c2 h0 h1 h2 => ?_, by decide⟩
  have hacc0 : sepiaAcc 0 c0 c1 c2 ≤ 238935 := by rw [sepiaAcc_zero]; omega
  have hacc1 : sepiaAcc 1 c0 c1 c2 ≤ 306765 := by rw [sepiaAcc_one]; omega
  have hacc2 : sepiaAcc 2 c0 c1 c2 ≤ 344505 := by rw [sepiaAcc_two]; omega
  have hquot0 : sepiaAcc 0 c0 c1 c2 / 1000 ≤ 238 := by omega
  have hvalue0 : sepiaValue 0 c0 c1 c2 = sepiaAcc 0 c0 c1 c2 / 1000 := by
    rw [sepiaValue_eq, Nat.min_eq_right (hquot0.trans (by decide))]
  exact ⟨hacc0, hacc1, hacc2, hvalue0, hvalue0.trans_le hquot0, by omega, by omega,
    fun o _ => sepiaValue_le o c0 c1 c2⟩

end Sys2Proof.Machine

/-! PROOFS. SEPIA is accepted, can complete, and leaves the sepia image of SRC (O10). -/

namespace Sys2Proof.Machine

/-- A command of one stage, issued in an acceptable state with its input image written, can complete;
however the block's turns fall it then leaves what that stage leaves, and the frame of R39 and R70. -/
theorem Acceptable.single_completes {s : State} (h : Acceptable s) (hparams : paramsOk s.params = true)
    {i : Instr} (hi : i ≠ .run)
    (hin : Written s.bufs (cmdInput i) (imageBytes s.rows.toNat s.cols.toNat (cmdInput i))) :
    (∃ u, Completes i s u) ∧ ∀ u, Completes i s u →
      Stage.Done { phase := .single, op := i, rows := s.rows.toNat, cols := s.cols.toNat } s.bufs u.bufs ∧
      OnlyImagesChange s.rows.toNat s.cols.toNat (cmdWrites i) s.bufs u.bufs ∧ CompletedFrame s u := by
  have hnmax := nmax_pos_of_paramsOk hparams
  refine ⟨h.exists_completes hnmax i hin, fun u hu => ?_⟩
  have hdone := hu.commandDone hnmax
  exact ⟨hdone.single hi, hdone.onlyImagesChange, hu.completedFrame hnmax⟩

/-- SEPIA's accepted state, as R69 and R72 describe it. -/
theorem started_sepia (s : State) :
    s.started .sepia = acceptedAs s .sepia .single (freshLanes s (sepiaWork s.cols.toNat)) := rfl

/-- A stage that SEPIA's items belong to leaves the sepia image of SRC (R81, R83). -/
theorem Stage.Done.sepiaImage {g : Stage} {m m' : Buffers} (h : g.Done m m')
    (hsepia : g.phase = .single ∧ g.op = .sepia ∨ g.phase = .stageA) :
    SepiaImage g.rows g.cols m m' := by
  intro i j hi hj B G R hB hG hR
  have hitem : g.Item (.sepia i j) := ⟨hsepia, Nat.zero_le i, hi, hj⟩
  have hstored {off v : Nat} (hmem : (.sepia, off, v) ∈ itemStores m g.rows g.cols (.sepia i j)) :
      m'.read .sepia off = some (BitVec.ofNat 8 v) := h.stored _ _ _ _ ⟨hitem, hmem⟩ id
  simp only [itemStores, byteAt_of_read hB, byteAt_of_read hG, byteAt_of_read hR, sepiaValue_eq,
    sepiaAcc_zero, sepiaAcc_one, sepiaAcc_two] at hstored
  exact ⟨hstored (by simp), hstored (by simp), hstored (by simp)⟩

/-- Settles O10: acceptance starts the banded stage of SEPIA, whose input image is SRC; what its items
leave is the sepia image. -/
theorem sepiaCompletes : Obligations.SepiaCompletes := by
  unfold Obligations.SepiaCompletes
  intro s hacc hparams
  refine ⟨?_, fun hin => ?_⟩
  · rw [exec_of_dimensionsOk .sepia hacc.1 hacc.dimensionsOk, started_sepia]
  · rw [Nat.mul_assoc, Nat.mul_comm] at hin
    obtain ⟨hcan, hends⟩ := hacc.single_completes hparams (i := .sepia) (by decide) hin
    refine ⟨hcan, fun u hu => ?_⟩
    obtain ⟨hdone, hframe⟩ := hends u hu
    exact ⟨hdone.sepiaImage (.inl ⟨rfl, rfl⟩), hframe⟩

end Sys2Proof.Machine

/-! PROOFS. The negative and the threshold inversion of one byte (O49). -/

namespace Sys2Proof.Machine

theorem negValue_eq (v : Nat) : negValue v = 255 - v := rfl

theorem negValue_le (v : Nat) : negValue v ≤ 255 := Nat.sub_le _ _

theorem negValue_negValue {v : Nat} (h : v ≤ 255) : negValue (negValue v) = v := Nat.sub_sub_self h

/-- 255 is odd, so no byte is its own negative (R84). -/
theorem negValue_ne_self (v : Nat) : negValue v ≠ v := by
  rw [negValue_eq]
  omega

theorem thrValue_of_le {v : Nat} (h : v ≤ 127) : thrValue v = v := if_neg (Nat.not_lt.mpr h)

theorem thrValue_of_lt {v : Nat} (h : 127 < v) : thrValue v = 255 - v := if_pos h

theorem thrValue_le (v : Nat) : thrValue v ≤ 127 := by
  obtain h | h := Nat.lt_or_ge 127 v
  · rw [thrValue_of_lt h]
    omega
  · exact (thrValue_of_le h).trans_le h

/-- Settles O49: two subtractions from 255 cancel, and threshold inversion answers at most 127, where it
changes nothing. -/
theorem negativeAndThresholdAlgebra : Obligations.NegativeAndThresholdAlgebra := by
  unfold Obligations.NegativeAndThresholdAlgebra
  intro v hv
  exact ⟨negValue_eq v, negValue_le v, negValue_negValue hv, negValue_ne_self v, thrValue_le v,
    thrValue_of_le (thrValue_le v), thrValue_of_le, thrValue_of_lt⟩

end Sys2Proof.Machine

/-! PROOFS. NEG is accepted, can complete, and leaves the negative of SRC (O11). -/

namespace Sys2Proof.Machine

/-- NEG's accepted state, as R69 and R72 describe it. -/
theorem started_neg (s : State) :
    s.started .neg = acceptedAs s .neg .single (freshLanes s (negWork s.cols.toNat)) := rfl

/-- A stage that NEG's items belong to leaves the negative of SRC (R84, R85). -/
theorem Stage.Done.negImage {g : Stage} {m m' : Buffers} (h : g.Done m m')
    (hneg : g.phase = .single ∧ g.op = .neg ∨ g.phase = .stageA) : NegImage g.rows g.cols m m' := by
  intro i j ch hi hj hch x hx
  have hitem : g.Item (.neg i j ch) := ⟨hneg, Nat.zero_le i, hi, hj, hch⟩
  rw [h.stored _ .neg _ _ ⟨hitem, List.mem_singleton_self _⟩ id, byteAt_of_read hx, negValue_eq]

/-- Settles O11: acceptance starts the banded stage of NEG, whose input image is SRC; what its items
leave is the negative. -/
theorem negCompletes : Obligations.NegCompletes := by
  unfold Obligations.NegCompletes
  intro s hacc hparams
  refine ⟨?_, fun hin => ?_⟩
  · rw [exec_of_dimensionsOk .neg hacc.1 hacc.dimensionsOk, started_neg]
  · rw [Nat.mul_assoc, Nat.mul_comm] at hin
    obtain ⟨hcan, hends⟩ := hacc.single_completes hparams (i := .neg) (by decide) hin
    refine ⟨hcan, fun u hu => ?_⟩
    obtain ⟨hdone, hframe⟩ := hends u hu
    exact ⟨hdone.negImage (.inl ⟨rfl, rfl⟩), hframe⟩

end Sys2Proof.Machine

/-! PROOFS. The four readings of the kernel matrices (O51): a flipped matrix is the matrix negated, and
one read by columns is the other one. -/

namespace Sys2Proof.Machine

/-- A gradient sum changes sign with its coefficients. -/
theorem gradient_eq_neg {K K' : List (List Int)} {ps : List (Nat × Nat)}
    (h : ∀ p ∈ ps, kernelAt K' p.1 p.2 = - kernelAt K p.1 p.2) (vs : List Nat) :
    gradient K' ps vs = - gradient K ps vs := by
  induction ps generalizing vs with
  | nil => rfl
  | cons p ps ih =>
    obtain ⟨hp, hps⟩ := List.forall_mem_cons.mp h
    cases vs with
    | nil => rfl
    | cons v vs =>
      simp only [gradient, hp, ih hps]
      ring

theorem gradient_flipped_KX (taps : List Nat) :
    gradient (flipped KX) windowPositions taps = - gradient KX windowPositions taps :=
  gradient_eq_neg (by decide) taps

theorem gradient_flipped_KY (taps : List Nat) :
    gradient (flipped KY) windowPositions taps = - gradient KY windowPositions taps :=
  gradient_eq_neg (by decide) taps

theorem byColumns_KX : byColumns KX = KY := by decide

theorem byColumns_KY : byColumns KY = KX := by decide

/-- The output depends on the squares of the sums alone (R88). -/
theorem edgeValue_neg (gx gy : Int) : edgeValue (-gx) (-gy) = edgeValue gx gy := by
  rw [edgeValue, gradientSquare, neg_mul_neg, neg_mul_neg]
  rfl

theorem edgeValue_comm (gx gy : Int) : edgeValue gx gy = edgeValue gy gx := by
  rw [edgeValue, gradientSquare, Int.add_comm]
  rfl

/-- Settles O51: negation and exchange of the two sums leave the sum of their squares. -/
theorem kernelReadingDoesNotMatter : Obligations.KernelReadingDoesNotMatter := by
  unfold Obligations.KernelReadingDoesNotMatter
  intro taps _
  simp only [byColumns_KX, byColumns_KY, gradient_flipped_KX, gradient_flipped_KY, edgeValue_neg]
  have hswap : edgeValue (gradient KY windowPositions taps) (gradient KX windowPositions taps) =
      sobelValue taps := edgeValue_comm _ _
  exact ⟨trivial, trivial, trivial, trivial, rfl, hswap, hswap⟩

end Sys2Proof.Machine

/-! PROOFS. SOBEL is accepted, can complete, and leaves the edge map of GRAY (O12). -/

namespace Sys2Proof.Machine

/-! ## The window of a pixel and the GRAY picture -/

theorem gradient_KX_map (f : Nat × Nat → Nat) :
    gradient KX windowPositions (windowPositions.map f) =
      f (0, 0) + 2 * f (1, 0) + f (2, 0) - f (0, 2) - 2 * f (1, 2) - f (2, 2) := by
  simp only [windowPositions, List.map_cons, List.map_nil, gradient, kernelAt, KX, List.getD_cons_zero,
    List.getD_cons_succ]
  ring

theorem gradient_KY_map (f : Nat × Nat → Nat) :
    gradient KY windowPositions (windowPositions.map f) =
      f (0, 0) + 2 * f (0, 1) + f (0, 2) - f (2, 0) - 2 * f (2, 1) - f (2, 2) := by
  simp only [windowPositions, List.map_cons, List.map_nil, gradient, kernelAt, KY, List.getD_cons_zero,
    List.getD_cons_succ]
  ring

/-- The value of window position `(r, c)` is the picture's at the tap `(r - 1, c - 1)` (R86). -/
theorem GrayPicture.tapByte_eq {rows cols : Nat} {m : Buffers} {p : Int → Int → Int}
    (h : GrayPicture rows cols m p) (i j r c : Nat) :
    (tapByte m rows cols i j (r, c) : Int) = p (i + (r - 1)) (j + (c - 1)) := by
  obtain ⟨hinside, houtside⟩ := h
  unfold tapByte
  split
  case isTrue hin =>
    obtain ⟨hr, hr', hc, hc'⟩ := hin
    have hrow : ((i + r - 1 : Nat) : Int) = i + (r - 1) := by omega
    have hcol : ((j + c - 1 : Nat) : Int) = j + (c - 1) := by omega
    obtain ⟨v, hread, hv⟩ := hinside (i + r - 1) (j + c - 1) (by omega) (by omega)
    rw [byteAt_of_read hread, ← hv, hrow, hcol]
  case isFalse hout =>
    exact (houtside _ _ (by omega)).symm

theorem GrayPicture.gradient_KX {rows cols : Nat} {m : Buffers} {p : Int → Int → Int}
    (h : GrayPicture rows cols m p) (i j : Nat) :
    gradient KX windowPositions (windowPositions.map (tapByte m rows cols i j)) = gxSum p i j := by
  simp [gradient_KX_map, h.tapByte_eq, gxSum, sub_eq_add_neg]

theorem GrayPicture.gradient_KY {rows cols : Nat} {m : Buffers} {p : Int → Int → Int}
    (h : GrayPicture rows cols m p) (i j : Nat) :
    gradient KY windowPositions (windowPositions.map (tapByte m rows cols i j)) = gySum p i j := by
  simp [gradient_KY_map, h.tapByte_eq, gySum, sub_eq_add_neg]

/-- The output of a pixel's window, from the sums over the picture (R87, R88). -/
theorem GrayPicture.sobelValue_eq {rows cols : Nat} {m : Buffers} {p : Int → Int → Int}
    (h : GrayPicture rows cols m p) (i j : Nat) :
    sobelValue (windowPositions.map (tapByte m rows cols i j)) =
      255 - min 255 (Nat.sqrt ((gxSum p i j) ^ 2 + (gySum p i j) ^ 2).toNat) := by
  rw [sobelValue, h.gradient_KX, h.gradient_KY, edgeValue_eq, isqrt_eq_sqrt, gradientSquare, pow_two,
    pow_two]

/-! ## The command -/

/-- SOBEL's accepted state, as R69 and R72 describe it. -/
theorem started_sobel (s : State) :
    s.started .sobel = acceptedAs s .sobel .single (freshLanes s (sobelWork s.cols.toNat)) := rfl

/-- A stage that SOBEL's items belong to leaves the edge map of GRAY (R87, R88, R91). -/
theorem Stage.Done.edgeImage {g : Stage} {m m' : Buffers} (h : g.Done m m')
    (hsobel : g.phase = .single ∧ g.op = .sobel ∨ g.phase = .stageB) : EdgeImage g.rows g.cols m m' := by
  intro p hp i j hi hj
  have hitem : g.Item (.sobel i j) := ⟨hsobel, Nat.zero_le i, hi, hj⟩
  rw [h.stored _ .edge _ _ ⟨hitem, List.mem_singleton_self _⟩ id, hp.sobelValue_eq]

/-- Settles O12: acceptance starts the banded stage of SOBEL, whose input image is GRAY; what its items
leave is the edge map. -/
theorem sobelCompletes : Obligations.SobelCompletes := by
  unfold Obligations.SobelCompletes
  intro s hacc hparams
  refine ⟨?_, fun hin => ?_⟩
  · rw [exec_of_dimensionsOk .sobel hacc.1 hacc.dimensionsOk, started_sobel]
  · rw [← Nat.mul_one (s.rows.toNat * s.cols.toNat)] at hin
    obtain ⟨hcan, hends⟩ := hacc.single_completes hparams (i := .sobel) (by decide) hin
    refine ⟨hcan, fun u hu => ?_⟩
    obtain ⟨hdone, hframe⟩ := hends u hu
    exact ⟨hdone.edgeImage (.inl ⟨rfl, rfl⟩), hframe⟩

end Sys2Proof.Machine

/-! PROOFS. The gradient sums of a constant image (O52). Such a picture is `v` times the indicators of the
rows and the columns of the image, so each sum is `v` times the weighted sum of three indicators along
one axis and the difference of two along the other. -/

namespace Sys2Proof.Machine

/-! ## One axis of the window -/

/-- 1 at the places `0` to `n - 1` of an axis, 0 outside. -/
def inAxis (n : Nat) (a : Int) : Int := if 0 ≤ a ∧ a < n then 1 else 0

/-- The weights 1, 2, 1 of R33 on the places around `a`. -/
def axisSum (n : Nat) (a : Int) : Int := inAxis n (a - 1) + 2 * inAxis n a + inAxis n (a + 1)

/-- The weights 1, 0, -1 of R33 on the places around `a`. -/
def axisDiff (n : Nat) (a : Int) : Int := inAxis n (a - 1) - inAxis n (a + 1)

theorem inAxis_of_mem {n : Nat} {a : Int} (h : 0 ≤ a) (h' : a < n) : inAxis n a = 1 := if_pos ⟨h, h'⟩

theorem inAxis_of_neg {n : Nat} {a : Int} (h : a < 0) : inAxis n a = 0 := if_neg (by omega)

theorem inAxis_of_ge {n : Nat} {a : Int} (h : n ≤ a) : inAxis n a = 0 := if_neg (by omega)

theorem axis_interior {n a : Nat} (h : 0 < a) (h' : a + 1 < n) : axisSum n a = 4 ∧ axisDiff n a = 0 := by
  have hbefore : inAxis n ((a : Int) - 1) = 1 := inAxis_of_mem (by omega) (by omega)
  have hat : inAxis n (a : Int) = 1 := inAxis_of_mem (by omega) (by omega)
  have hafter : inAxis n ((a : Int) + 1) = 1 := inAxis_of_mem (by omega) (by omega)
  rw [axisSum, axisDiff, hbefore, hat, hafter]
  decide

/-- At either end of an axis of two or more places one neighbour is missing. -/
theorem axis_end {n a : Nat} (hn : 2 ≤ n) (h : a = 0 ∨ a + 1 = n) :
    axisSum n a = 3 ∧ |axisDiff n a| = 1 := by
  have hat : inAxis n (a : Int) = 1 := inAxis_of_mem (by omega) (by omega)
  obtain hfirst | hlast := h
  · have hbefore : inAxis n ((a : Int) - 1) = 0 := inAxis_of_neg (by omega)
    have hafter : inAxis n ((a : Int) + 1) = 1 := inAxis_of_mem (by omega) (by omega)
    rw [axisSum, axisDiff, hbefore, hat, hafter]
    decide
  · have hbefore : inAxis n ((a : Int) - 1) = 1 := inAxis_of_mem (by omega) (by omega)
    have hafter : inAxis n ((a : Int) + 1) = 0 := inAxis_of_ge (by omega)
    rw [axisSum, axisDiff, hbefore, hat, hafter]
    decide

/-- The only place of an axis of one has no neighbour. -/
theorem axisDiff_one {n a : Nat} (hn : n = 1) (h : a < n) : axisDiff n a = 0 := by
  rw [axisDiff, inAxis_of_neg (by omega), inAxis_of_ge (by omega)]
  rfl

/-! ## The constant picture -/

/-- The picture of a constant image of value `v`: zero outside the image (R86, R90). -/
def constantPicture (rows cols : Nat) (v : Int) (a b : Int) : Int := v * inAxis rows a * inAxis cols b

theorem grayPicture_constant {rows cols : Nat} {m : Buffers} {v : Byte}
    (h : ∀ a b, a < rows → b < cols → m.read .gray (a * cols + b) = some v) :
    GrayPicture rows cols m (constantPicture rows cols v.toNat) := by
  constructor
  · intro a b ha hb
    refine ⟨v, h a b ha hb, ?_⟩
    rw [constantPicture, inAxis_of_mem (by omega) (by omega), inAxis_of_mem (by omega) (by omega),
      Int.mul_one, Int.mul_one]
  · intro a b hout
    unfold constantPicture inAxis
    split
    · rw [if_neg (by omega), Int.mul_zero]
    · rw [Int.mul_zero, Int.zero_mul]

theorem gxSum_constantPicture (rows cols : Nat) (v i j : Int) :
    gxSum (constantPicture rows cols v) i j = v * axisSum rows i * axisDiff cols j := by
  unfold gxSum constantPicture axisSum axisDiff
  ring

theorem gySum_constantPicture (rows cols : Nat) (v i j : Int) :
    gySum (constantPicture rows cols v) i j = v * axisDiff rows i * axisSum cols j := by
  unfold gySum constantPicture axisSum axisDiff
  ring

/-! ## The window can be read -/

/-- Where the GRAY image is written, every window of the image is read (R46, R86). -/
theorem tapValues_of_written {s : State}
    (h : ∀ a b, a < s.lrows → b < s.lcols → s.bufs.read .gray (a * s.lcols + b) ≠ none) (i j : Nat) :
    tapValues s i j windowPositions = .ok (windowPositions.map (tapByte s.bufs s.lrows s.lcols i j)) := by
  cases htaps : tapValues s i j windowPositions with
  | ok taps => rw [tapValues_ok s i j _ taps htaps]
  | error f =>
    obtain ⟨b, off, hread, hnone⟩ := (readsBytes_tapValues s i j windowPositions).fault_iff.mp ⟨f, htaps⟩
    obtain ⟨rfl, a, b, ha, hb, -, -, -, -, rfl⟩ := (windowReads_iff s i j b off).mp hread
    exact absurd hnone (h a b ha hb)

/-- Where both sums vanish the output is white (R88). -/
theorem sobelValue_of_gradients_zero {taps : List Nat} (hx : gradient KX windowPositions taps = 0)
    (hy : gradient KY windowPositions taps = 0) : sobelValue taps = 255 := by
  rw [sobelValue, hx, hy, edgeValue_eq_255_iff]
  rfl

/-- Settles O52: the sums over the constant picture, with the values of `axisSum` and `axisDiff` inside
and at the ends of the two axes. -/
theorem constantImageGradients : Obligations.ConstantImageGradients := by
  unfold Obligations.ConstantImageGradients
  intro s v i j hi hj hconst
  have hpicture := grayPicture_constant hconst
  refine ⟨_, tapValues_of_written (fun a b ha hb => by simp [hconst a b ha hb]) i j, ?_⟩
  have hgx := (hpicture.gradient_KX i j).trans (gxSum_constantPicture _ _ _ _ _)
  have hgy := (hpicture.gradient_KY i j).trans (gySum_constantPicture _ _ _ _ _)
  generalize windowPositions.map (tapByte s.bufs s.lrows s.lcols i j) = taps at hgx hgy ⊢
  have hrow (h : s.lrows = 1) : gradient KY windowPositions taps = 0 := by
    rw [hgy, axisDiff_one h hi, Int.mul_zero, Int.zero_mul]
  have hcol (h : s.lcols = 1) : gradient KX windowPositions taps = 0 := by
    rw [hgx, axisDiff_one h hj, Int.mul_zero]
  refine ⟨fun hrows hcols => ⟨fun ⟨hi₀, hi₁⟩ ⟨hj₀, hj₁⟩ => ?_, fun hi ⟨hj₀, hj₁⟩ => ?_,
    fun ⟨hi₀, hi₁⟩ hj => ?_, fun hi hj => ?_⟩, hrow, hcol,
    fun h h' => sobelValue_of_gradients_zero (hcol h') (hrow h)⟩
  · obtain ⟨-, hdi⟩ := axis_interior hi₀ hi₁
    obtain ⟨-, hdj⟩ := axis_interior hj₀ hj₁
    rw [hdj, Int.mul_zero] at hgx
    rw [hdi, Int.mul_zero, Int.zero_mul] at hgy
    exact ⟨hgx, hgy, sobelValue_of_gradients_zero hgx hgy⟩
  · obtain ⟨-, hdi⟩ := axis_end hrows hi
    obtain ⟨hsj, hdj⟩ := axis_interior hj₀ hj₁
    rw [hgx, hgy, hdj, hsj]
    simp [abs_mul, hdi, mul_comm]
  · obtain ⟨hsi, hdi⟩ := axis_interior hi₀ hi₁
    obtain ⟨-, hdj⟩ := axis_end hcols hj
    rw [hgx, hgy, hdi, hsi]
    simp [abs_mul, hdj, mul_comm]
  · obtain ⟨hsi, hdi⟩ := axis_end hrows hi
    obtain ⟨hsj, hdj⟩ := axis_end hcols hj
    rw [hgx, hgy, hsi, hsj]
    simp [abs_mul, hdi, hdj, mul_comm]

end Sys2Proof.Machine

/-! PROOFS. THRINV is accepted, can complete, and leaves the threshold inversion of TIN (O13). -/

namespace Sys2Proof.Machine

/-- A lane that THRINV's stage does not use (R75; log 18). -/
def unusedLane : Lane := { band := { start := 0, stop := 0 }, todo := [], active := false, done := false }

/-- THRINV's plan: lane 0 with the whole image, then the unused lanes (R75). -/
theorem singleLane_eq_cons {work : Nat → Band → List Work} {s : State} (hworkers : 1 ≤ s.ln) :
    singleLane work s =
      { band := { start := 0, stop := s.lrows }, todo := work s.lcols { start := 0, stop := s.lrows }
        active := true, done := false } :: List.replicate (s.ln - 1) unusedLane := by
  obtain ⟨n, hn⟩ := Nat.exists_eq_add_of_le' hworkers
  rw [singleLane, hn, List.range_succ_eq_map, List.map_cons, List.map_map, Nat.add_sub_cancel]
  simp [Function.comp_def, unusedLane]

/-- THRINV's accepted state, as R69 and R75 describe it. -/
theorem started_thrinv {s : State} (hnmax : 1 ≤ s.params.nmax) :
    s.started .thrinv = acceptedAs s .thrinv .single
      ({ band := { start := 0, stop := s.rows.toNat }
         todo := thrinvWork s.cols.toNat { start := 0, stop := s.rows.toNat }
         active := true, done := false } :: List.replicate ((s.accepted .thrinv).ln - 1) unusedLane) := by
  have hworkers : 1 ≤ (s.accepted .thrinv).ln := (effectiveWorkers_bounds hnmax).1
  rw [State.started, firstPlan, singleLane_eq_cons hworkers]
  rfl

/-- The threshold inversion of a byte, as a byte (R92). -/
theorem ofNat_thrValue (v : Byte) :
    BitVec.ofNat 8 (thrValue v.toNat) =
      if 127 < v.toNat then BitVec.ofNat 8 (255 - v.toNat) else v := by
  split
  case isTrue hlt => rw [thrValue_of_lt hlt]
  case isFalse hle => rw [thrValue_of_le (Nat.not_lt.mp hle), BitVec.ofNat_toNat, BitVec.setWidth_eq]

/-- A stage that THRINV's items belong to leaves the threshold inversion of TIN (R92, R93). -/
theorem Stage.Done.thrinvImage {g : Stage} {m m' : Buffers} (h : g.Done m m')
    (hthrinv : g.phase = .single ∧ g.op = .thrinv) : ThrinvImage g.rows g.cols m m' := by
  intro i j hi hj v hv
  have hitem : g.Item (.thrinv i j) := ⟨hthrinv, Nat.zero_le i, hi, hj⟩
  rw [h.stored _ .tout _ _ ⟨hitem, List.mem_singleton_self _⟩ id, byteAt_of_read hv, ofNat_thrValue]

/-- Settles O13: acceptance gives lane 0 the whole image, the input image is TIN, and what the stage's
items leave is the threshold inversion. -/
theorem thrinvCompletes : Obligations.ThrinvCompletes := by
  unfold Obligations.ThrinvCompletes
  intro s hacc hparams
  refine ⟨⟨List.replicate ((s.accepted .thrinv).ln - 1) unusedLane, fun l hl => ?_, ?_⟩, fun hin => ?_⟩
  · obtain rfl := List.eq_of_mem_replicate hl
    exact ⟨rfl, rfl, rfl⟩
  · rw [exec_of_dimensionsOk .thrinv hacc.1 hacc.dimensionsOk,
      started_thrinv (nmax_pos_of_paramsOk hparams)]
  · rw [← Nat.mul_one (s.rows.toNat * s.cols.toNat)] at hin
    obtain ⟨hcan, hends⟩ := hacc.single_completes hparams (i := .thrinv) (by decide) hin
    refine ⟨hcan, fun u hu => ?_⟩
    obtain ⟨hdone, hframe⟩ := hends u hu
    exact ⟨hdone.thrinvImage ⟨rfl, rfl⟩, hframe⟩

end Sys2Proof.Machine

/-! PROOFS. RUN's data flow through GRAY: every step keeps it (O31), stage B starts behind the barrier
(O24), and what it reads is written, so it cannot fault (O32). -/

namespace Sys2Proof.Machine

/-! ## Written bytes stay written -/

/-- Every byte written in `m` is written in `m'`. -/
def KeepsWritten (m m' : Buffers) : Prop := ∀ b off, m.read b off ≠ none → m'.read b off ≠ none

theorem keepsWritten_write (m : Buffers) (b : BufId) (off : Nat) (v : Byte) :
    KeepsWritten m (m.write b off v) := by
  intro b' off' h
  rw [Buffers.read_write]
  split
  · exact Option.some_ne_none v
  · exact h

theorem keepsWritten_storeAll (l : List (BufId × Nat × Nat)) (m : Buffers) :
    KeepsWritten m (m.storeAll l) := by
  induction l generalizing m with
  | nil => exact fun _ _ => id
  | cons x rest ih =>
    obtain ⟨b, off, v⟩ := x
    exact fun b' off' h => ih _ b' off' (keepsWritten_write m b off _ b' off' h)

theorem laneTurn_keepsWritten {k n : Nat} {s t : State} (h : laneTurn k n s = .next t) :
    KeepsWritten s.bufs t.bufs := by
  obtain rfl | ⟨l, -, -, -, -, -, rfl⟩ | ⟨l, w, u, q, -, -, -, -, -, hwork, rfl⟩ := laneTurn_cases h
  · exact fun _ _ => id
  · exact fun _ _ => id
  · obtain rfl := runWork_ok w s u hwork
    exact keepsWritten_storeAll _ _

/-- The bytes that an item writes are written once it has run. -/
theorem runWork_written {w : Work} {s t : State} (h : runWork w s = .ok t) {b : BufId} {off : Nat}
    (hwrite : itemWrites s w b off) : t.bufs.read b off ≠ none := by
  obtain ⟨v, hstore⟩ := (itemWrites_iff s s.bufs w b off).mp hwrite
  obtain rfl := runWork_ok w s t h
  rw [read_storeAll_item hstore]
  exact Option.some_ne_none _

/-- An item that is pending before a lane's turn is pending after it, or has written its bytes. -/
theorem laneTurn_pending_or_written {k n : Nat} {s t : State} {x : Work} (h : laneTurn k n s = .next t)
    (hx : s.Pending x) : t.Pending x ∨ ∀ b off, itemWrites s x b off → t.bufs.read b off ≠ none := by
  obtain rfl | ⟨l, hl, -, -, -, -, rfl⟩ | ⟨l, w, u, q, hl, -, -, -, hw, hwork, rfl⟩ := laneTurn_cases h
  · exact .inl hx
  · exact .inl (pending_setLane rfl hl id hx)
  · by_cases hxw : x = w
    · subst hxw
      exact .inr fun b off => runWork_written hwork
    · exact .inl (pending_eraseIdx (sameControl_runWork hwork).lanes hl hw hxw hx)

/-! ## Every step keeps RUN's data flow (R94, R95) -/

/-- A lane that has an item left is one that the stage uses (R75). -/
theorem RunningInv.active_of_mem {s : State} (h : RunningInv s) {l : Lane} {w : Work} (hl : l ∈ s.lanes)
    (hw : w ∈ l.todo) : l.active = true := by
  by_contra hunused
  obtain ⟨hnil, -⟩ := (h.lanes l hl).inactive (by simpa using hunused)
  rw [hnil] at hw
  cases hw

/-- While a command runs, the data flow can be stated by what is pending. -/
theorem RunningInv.grayReadyInv {s : State} (h : RunningInv s)
    (hA : s.phase = .stageA → ∀ i j, i < s.lrows → j < s.lcols →
      s.bufs.read .gray (pixelOffset s.lcols .gray i j 0) ≠ none ∨ s.Pending (.gray i j))
    (hB : s.phase = .stageB → Written s.bufs .gray (imageBytes s.lrows s.lcols .gray)) :
    GrayReadyInv s where
  stageA hphase i j hi hj := (hA hphase i j hi hj).imp_right fun ⟨l, hl, hw⟩ =>
    ⟨l, hl, h.active_of_mem hl hw, hw⟩
  stageB := hB

/-- The data flow says nothing of a block that is IDLE. -/
theorem grayReadyInv_of_idle {s : State} (h : s.phase = .idle) : GrayReadyInv s where
  stageA hphase := by rw [h] at hphase; cases hphase
  stageB hphase := by rw [h] at hphase; cases hphase

/-- The data flow depends on the control state and on which bytes are written. -/
theorem GrayReadyInv.of_sameControl {s t : State} (h : GrayReadyInv s) (hst : SameControl s t)
    (hkept : KeepsWritten s.bufs t.bufs) : GrayReadyInv t where
  stageA := by
    rw [hst.phase, hst.lrows, hst.lcols, hst.lanes]
    exact fun hphase i j hi hj => (h.stageA hphase i j hi hj).imp_left (hkept _ _)
  stageB := by
    rw [hst.phase, hst.lrows, hst.lcols]
    exact fun hphase off hoff => hkept _ _ (h.stageB hphase off hoff)

theorem GrayReadyInv.congr {s t : State} (h : GrayReadyInv s) (hst : SameControl s t)
    (hbufs : t.bufs = s.bufs) : GrayReadyInv t :=
  h.of_sameControl hst (hbufs ▸ fun _ _ => id)

/-- Where RUN has just been accepted, GRAY's items are all pending. -/
theorem grayReadyInv_started {s : State} (i : Instr) (hnmax : 1 ≤ s.params.nmax)
    (hdims : ¬ dimensionsBad s.params s.rows.toNat s.cols.toNat = true) : GrayReadyInv (s.started i) := by
  refine (runningInv_started i hnmax hdims).grayReadyInv (fun hA r c hr hc => .inr ?_) (fun hB => ?_)
  · exact pending_started i hnmax ⟨.inr hA, Nat.zero_le r, hr, hc⟩
  · cases i <;> cases hB

theorem exec_keeps_grayReady {i : Instr} {s t : State} (hinv : Inv s) (h : GrayReadyInv s)
    (hexec : exec i s = .next t) : GrayReadyInv t := by
  rw [exec_cases] at hexec
  split_ifs at hexec with hbusy hdims <;> cases hexec
  · exact h.congr (sameControl_overrun s) rfl
  · exact grayReadyInv_of_idle (hinv.idle.mpr (by simpa using hbusy))
  · exact grayReadyInv_started i hinv.nmax_pos hdims

theorem hostTurn_keeps_grayReady {s t : State} (hinv : Inv s) (h : GrayReadyInv s)
    (hturn : hostTurn s = .next t) : GrayReadyInv t := by
  obtain ⟨hsame, hbufs⟩ | ⟨b, off, v, hsame, -, -, hbufs⟩ | ⟨hidle, rest, hissue⟩ := hostTurn_effect hturn
  · exact h.congr hsame hbufs
  · exact h.of_sameControl hsame (hbufs ▸ keepsWritten_write s.bufs b off v)
  · obtain ⟨i, hexec⟩ | rfl := hissue
    · have hsame : SameControl s { s with hostOps := rest } := by constructor <;> rfl
      exact exec_keeps_grayReady (hinv.congr hsame rfl) (h.congr hsame rfl) hexec
    · exact grayReadyInv_of_idle (hinv.idle.mpr hidle)

/-- In stage A a lane's turn takes a GRAY item off its list only by writing its byte. -/
theorem laneTurn_keeps_grayReady {k n : Nat} {s t : State} (hinv : Inv s) (h : GrayReadyInv s)
    (hturn : laneTurn k n s = .next t) : GrayReadyInv t := by
  by_cases hidle : s.phase = .idle
  · rw [laneTurn_of_idle hidle hturn]
    exact h
  · have hkept := laneTurn_keepsWritten hturn
    have hrunning := (hinv.running (hinv.busy_of_phase hidle)).laneTurn hturn
    have hphase : t.phase = s.phase := by rw [(laneTurn_frame hturn).1]
    obtain ⟨hrows, hcols, -, -⟩ := laneTurn_config hturn
    refine hrunning.grayReadyInv ?_ ?_
    all_goals rw [hphase, hrows, hcols]
    · intro hA i j hi hj
      obtain hwritten | ⟨l, hl, -, hw⟩ := h.stageA hA i j hi hj
      · exact .inl (hkept _ _ hwritten)
      · refine (laneTurn_pending_or_written hturn ⟨l, hl, hw⟩).symm.imp_left fun hwritten => ?_
        exact hwritten _ _ ⟨rfl, Nat.mul_one _⟩
    · exact fun hB off hoff => hkept _ _ (h.stageB hB off hoff)

/-- Behind the barrier nothing is pending, so every GRAY byte is written (R95). -/
theorem GrayReadyInv.gray_written {s : State} (h : GrayReadyInv s) (hrunning : RunningInv s)
    (hphase : s.phase = .stageA) (hcomplete : s.stageComplete = true) :
    Written s.bufs .gray (imageBytes s.lrows s.lcols .gray) := by
  intro off hoff
  rw [imageBytes, channels, Nat.mul_one] at hoff
  obtain hwritten | ⟨l, hl, -, hw⟩ := h.stageA hphase (off / s.lcols) (off % s.lcols)
    ((Nat.div_lt_iff_lt_mul hrunning.cols.1).mpr hoff) (Nat.mod_lt _ hrunning.cols.1)
  · rwa [pixelOffset, channels, Nat.mul_one, Nat.add_zero, Nat.div_add_mod'] at hwritten
  · exact absurd ⟨l, hl, hw⟩ (hrunning.not_pending hcomplete _)

theorem sequencerTurn_keeps_grayReady {s t : State} (hinv : Inv s) (h : GrayReadyInv s)
    (hturn : sequencerTurn s = .next t) : GrayReadyInv t := by
  rw [sequencerTurn_cases] at hturn
  split_ifs at hturn with hwait hstageA <;> cases hturn
  · exact h
  · obtain ⟨hcomplete, hidle⟩ := not_or.mp hwait
    have hrunning := hinv.running (hinv.busy_of_phase hidle)
    have hwritten := h.gray_written hrunning hstageA (by simpa using hcomplete)
    exact (hrunning.stageB hstageA).grayReadyInv nofun fun _ => hwritten
  · exact grayReadyInv_of_idle rfl

theorem takeTurn_keeps_grayReady {turn : Turn} {s t : State} (hinv : Inv s) (h : GrayReadyInv s)
    (hturn : takeTurn turn s = .next t) : GrayReadyInv t := by
  cases turn with
  | host => exact hostTurn_keeps_grayReady hinv h hturn
  | sequencer => exact sequencerTurn_keeps_grayReady hinv h hturn
  | lane k n => exact laneTurn_keeps_grayReady hinv h hturn
  | reset => cases hturn; exact grayReadyInv_of_idle rfl

/-- Settles O31: using up a turn leaves what the data flow speaks of, and every agent's turn keeps it. -/
theorem stepKeepsGrayReady : Obligations.StepKeepsGrayReady := by
  unfold Obligations.StepKeepsGrayReady
  intro s t hinv h hstep
  have hsame := sameControl_turnTaken s
  exact takeTurn_keeps_grayReady (hinv.congr hsame s.turnTaken_bufs) (h.congr hsame s.turnTaken_bufs) hstep

/-! ## The barrier (R95) -/

/-- In stage A no lane has a SOBEL item (R94). -/
theorem not_workFits_sobel_of_stageA {op : Instr} {cols : Nat} {b : Band} {i j : Nat} :
    ¬ workFits .stageA op cols b (.sobel i j) := by
  simp [workFits]

/-- Every command but THRINV uses all its lanes (R75). -/
theorem RunningInv.active_of_ne_thrinv {s : State} (h : RunningInv s) (hop : s.curop ≠ .thrinv) {l : Lane}
    (hl : l ∈ s.lanes) : l.active = true := by
  have hplan : (l.band, l.active) ∈ lanePlan s.curop s.lrows s.ln := h.plan ▸ List.mem_map_of_mem hl
  rw [lanePlan, if_neg hop] at hplan
  obtain ⟨b, -, hb⟩ := List.mem_map.mp hplan
  exact (Prod.mk.inj hb).2.symm

/-- Every command but THRINV shares the rows out by the partition (R72, R75). -/
theorem RunningInv.map_band {s : State} (h : RunningInv s) (hop : s.curop ≠ .thrinv) :
    s.lanes.map Lane.band = bands s.lrows s.ln := by
  simpa [lanePlan, hop, Function.comp_def] using congrArg (List.map Prod.fst) h.plan

theorem bandedLanes_map_band (work : Nat → Band → List Work) (s : State) :
    (bandedLanes work s).map Lane.band = bands s.lrows s.ln := by
  simp [bandedLanes, Function.comp_def]

/-- Only the sequencer, finding the stage complete, takes the block from stage A to stage B. -/
theorem takeTurn_to_stageB {turn : Turn} {s t : State} (hinv : Inv s) (hA : s.phase = .stageA)
    (hturn : takeTurn turn s = .next t) (hB : t.phase = .stageB) :
    s.stageComplete = true ∧ t = { s with phase := .stageB, lanes := bandedLanes sobelWork s } := by
  have hidle : s.phase ≠ .idle := by rw [hA]; decide
  have hmoved : t.phase ≠ s.phase := by rw [hA, hB]; decide
  cases turn with
  | host => exact absurd (hostTurn_sameControl_of_busy (hinv.busy_of_phase hidle) hturn).phase hmoved
  | lane k n => exact absurd (by rw [(laneTurn_frame hturn).1]) hmoved
  | reset => cases hturn; cases hB
  | sequencer =>
    change sequencerTurn s = _ at hturn
    rw [sequencerTurn_cases, if_pos hA] at hturn
    split_ifs at hturn with hwait <;> cases hturn
    · exact absurd rfl hmoved
    · exact ⟨by simpa using (not_or.mp hwait).1, rfl⟩

/-- Settles O24: the step is the sequencer's, on a complete stage all of whose lanes are used; stage B
has the bands of the same partition. -/
theorem barrierBeforeStageB : Obligations.BarrierBeforeStageB := by
  unfold Obligations.BarrierBeforeStageB
  intro s t hinv hA
  have hrunning := hinv.running (hinv.busy_of_phase (by rw [hA]; decide))
  have hop : s.curop ≠ .thrinv := by rw [hrunning.stages.mpr (.inl hA)]; decide
  refine ⟨fun l hl i j hmem => ?_, fun hstep hB => ?_⟩
  · have hfits := (hrunning.lanes l hl).fits _ hmem
    rw [hA] at hfits
    exact not_workFits_sobel_of_stageA hfits
  · obtain ⟨hcomplete, rfl⟩ := takeTurn_to_stageB (hinv.congr (sameControl_turnTaken s) s.turnTaken_bufs)
      (s.turnTaken_phase.trans hA) hstep hB
    rw [stageComplete_iff, State.turnTaken_lanes] at hcomplete
    refine ⟨fun l hl => ?_, fun l hl => ?_, ?_, s.turnTaken_status, s.turnTaken_bufs⟩
    · have hdone := hcomplete l hl (hrunning.active_of_ne_thrinv hop hl)
      exact ⟨hdone, (hrunning.lanes l hl).finished hdone⟩
    · obtain ⟨-, -, hdone⟩ := mem_bandedLanes hl
      exact hdone
    · rw [hrunning.map_band hop, bandedLanes_map_band, State.turnTaken_lrows, State.turnTaken_ln]

/-! ## Stage B cannot fault (R94) -/

/-- An item whose input image is written does not fault (R46). -/
theorem exists_runWork_of_written {s : State} {w : Work} (hitem : s.stage.Item w)
    (hin : Written s.bufs (workInput w) (imageBytes s.lrows s.lcols (workInput w))) :
    ∃ t, runWork w s = .ok t := by
  have hreads := readsBytes_runWork w s
  cases hres : runWork w s with
  | ok t => exact ⟨t, rfl⟩
  | error f =>
    rw [hres] at hreads
    obtain ⟨b, off, -, hread, hnone⟩ := hreads
    obtain ⟨rfl, hoff⟩ := itemReads_in_image hitem hread
    exact absurd hnone (hin off hoff)

/-- A lane's turn answers a next state if none of the items it has left faults. -/
theorem exists_laneTurn {k n : Nat} {s : State}
    (h : ∀ l ∈ s.lanes, ∀ w ∈ l.todo, ∃ t, runWork w s = .ok t) : ∃ u, laneTurn k n s = .next u := by
  unfold laneTurn
  split
  case h_1 => exact ⟨_, rfl⟩
  case h_2 l hl =>
    split
    case isTrue => exact ⟨_, rfl⟩
    case isFalse =>
      unfold State.laneWork
      split
      case h_1 => exact ⟨_, rfl⟩
      case h_2 w hw =>
        obtain ⟨t, ht⟩ := h l (List.mem_of_getElem? hl) w (List.mem_of_getElem? hw)
        rw [ht]
        exact ⟨_, rfl⟩

theorem exists_sequencerTurn (s : State) : ∃ u, sequencerTurn s = .next u := by
  rw [sequencerTurn_cases]
  split_ifs <;> exact ⟨_, rfl⟩

/-- Settles O32: the items of stage B read GRAY within the image, where every byte is written. -/
theorem stageBNeverFaults : Obligations.StageBNeverFaults := by
  unfold Obligations.StageBNeverFaults
  intro s turn hinv h hB hblock
  cases turn with
  | host => cases hblock
  | reset => cases hblock
  | sequencer => exact exists_sequencerTurn s
  | lane k n =>
    refine exists_laneTurn fun l hl w hw => ?_
    have hitem := (hinv.running (hinv.busy_of_phase (by rw [hB]; decide))).item_of_mem hl hw
    have hgray : workInput w = .gray := by
      rw [Stage.Item, State.stage, hB] at hitem
      exact workInput_of_stageB hitem
    exact exists_runWork_of_written hitem (hgray ▸ h.stageB hB)

end Sys2Proof.Machine

/-! PROOFS. RUN is accepted, can complete, and leaves the images of its two stages (O14). -/

namespace Sys2Proof.Machine

/-- RUN's accepted state, as R69 and R72 describe it. -/
theorem started_run (s : State) :
    s.started .run = acceptedAs s .run .stageA (freshLanes s (stageAWork s.cols.toNat)) := rfl

/-- RUN's first stage (R94). -/
def runStageA (rows cols : Nat) : Stage := { phase := .stageA, op := .run, rows, cols }

/-- RUN's second stage (R94). -/
def runStageB (rows cols : Nat) : Stage := { phase := .stageB, op := .run, rows, cols }

/-- RUN leaves what stage B leaves of what stage A leaves (R94, R95). -/
theorem commandDone_run_iff {rows cols : Nat} {m m' : Buffers} :
    CommandDone .run rows cols m m' ↔
      ∃ m₁, (runStageA rows cols).Done m m₁ ∧ (runStageB rows cols).Done m₁ m' := Iff.rfl

/-- In RUN's second stage an item writes EDGE (R94). -/
theorem workOutput_of_stageB {op : Instr} {cols : Nat} {b : Band} {w : Work}
    (h : workFits .stageB op cols b w) : workOutput w = .edge := by
  cases w with
  | sobel i j => rfl
  | _ => simp [workFits] at h

/-- RUN's second stage leaves every buffer but EDGE (R94). -/
theorem Stage.Done.read_of_stageB {g : Stage} {m m' : Buffers} (h : g.Done m m') (hB : g.phase = .stageB)
    {b : BufId} (hb : b ≠ .edge) : m'.read b = m.read b := by
  funext off
  refine h.kept b off fun w v hstore => hb ?_
  obtain ⟨i, j, k, -, hat, -⟩ := itemStores_pixel hstore.1 hstore.2
  have hitem := hstore.1
  rw [Stage.Item, hB] at hitem
  rw [workOutput_of_workAt hat, workOutput_of_stageB hitem]

/-- RUN leaves the four images; EDGE is that of the GRAY it leaves (R94). -/
theorem CommandDone.runImages {rows cols : Nat} {m m' : Buffers} (h : CommandDone .run rows cols m m') :
    GrayImage rows cols m m' ∧ SepiaImage rows cols m m' ∧ NegImage rows cols m m' ∧
      EdgeImage rows cols m' m' := by
  obtain ⟨m₁, hA, hB⟩ := commandDone_run_iff.mp h
  have hgray := hA.grayImage (.inr rfl)
  have hsepia := hA.sepiaImage (.inr rfl)
  have hneg := hA.negImage (.inr rfl)
  have hedge := hB.edgeImage (.inr rfl)
  have hkept {b : BufId} (hb : b ≠ .edge) : m'.read b = m₁.read b := hB.read_of_stageB rfl hb
  simp only [GrayImage, SepiaImage, NegImage, EdgeImage, GrayPicture, hkept (b := .gray) (by decide),
    hkept (b := .sepia) (by decide), hkept (b := .neg) (by decide)]
  exact ⟨hgray, hsepia, hneg, hedge⟩

/-- Settles O14: acceptance starts stage A, whose input image is SRC; stage B reads the GRAY that stage A
leaves, and changes EDGE alone. -/
theorem runCompletes : Obligations.RunCompletes := by
  unfold Obligations.RunCompletes
  intro s hacc hparams
  have hnmax := nmax_pos_of_paramsOk hparams
  refine ⟨?_, fun hin => ⟨?_, fun u hu => ?_⟩⟩
  · rw [exec_of_dimensionsOk .run hacc.1 hacc.dimensionsOk, started_run]
  · refine hacc.exists_completes hnmax .run ?_
    rwa [Nat.mul_assoc, Nat.mul_comm] at hin
  · have hdone := hu.commandDone hnmax
    obtain ⟨hgray, hsepia, hneg, hedge⟩ := hdone.runImages
    exact ⟨hgray, hsepia, hneg, hedge, hdone.onlyImagesChange, hu.completedFrame hnmax⟩

end Sys2Proof.Machine

/-! PROOFS. RUN ends as its four commands do one after another (O15): each of GRAY, SEPIA and NEG does its
share of stage A's items, in whatever order they come, and SOBEL does stage B's. -/

namespace Sys2Proof.Machine

/-! ## A stage done by another one -/

/-- A stage on the same image, whose items are among those of `g`, carries `g` on. -/
theorem Stage.Progress.substage {g g' : Stage} {pending pending' : Work → Prop} {m m₁ m₂ : Buffers}
    (h : g.Progress pending m m₁) (h' : g'.Done m₁ m₂) (hrows : g'.rows = g.rows) (hcols : g'.cols = g.cols)
    (hsub : ∀ w, g'.Item w → g.Item w) (hpending : ∀ w, pending w → pending' w ∨ g'.Item w) :
    g.Progress pending' m m₂ := by
  have hstores {w : Work} {b : BufId} {off v : Nat} :
      g'.Stores m₁ w b off v ↔ g'.Item w ∧ g.Stores m w b off v := by
    simp only [Stage.Stores, hrows, hcols]
    constructor
    · rintro ⟨hw, hmem⟩
      exact ⟨hw, hsub w hw, h.itemStores_eq (hsub w hw) ▸ hmem⟩
    · rintro ⟨hw, -, hmem⟩
      exact ⟨hw, h.itemStores_eq (hsub w hw) ▸ hmem⟩
  refine ⟨fun w b off v hstore hw => ?_, fun b off hnone => ?_⟩
  · by_cases hitem : g'.Item w
    · exact h'.stored w b off v (hstores.mpr ⟨hitem, hstore⟩) id
    · rw [h'.kept b off fun w' v' hstore' => ?_]
      · exact h.stored w b off v hstore fun hpend => (hpending w hpend).elim hw hitem
      · obtain ⟨hitem', hstore'⟩ := hstores.mp hstore'
        exact hitem (Stage.item_unique hstore hstore' ▸ hitem')
  · rw [h'.kept b off fun w v hstore => hnone w v (hstores.mp hstore).2]
    exact h.kept b off hnone

/-- The only stage of a command that is not RUN. -/
def singleStage (i : Instr) (rows cols : Nat) : Stage := { phase := .single, op := i, rows, cols }

/-- SOBEL leaves what stage B leaves: their items are the same (R94). -/
theorem Stage.Done.stageB_of_sobel {rows cols : Nat} {m m' : Buffers}
    (h : (singleStage .sobel rows cols).Done m m') :
    (runStageB rows cols).Done m m' := by
  have hsame (w : Work) : (singleStage .sobel rows cols).Item w ↔ (runStageB rows cols).Item w := by
    cases w <;> simp [Stage.Item, singleStage, runStageB, workFits]
  exact (Stage.Progress.start (fun _ => id) m).substage h rfl rfl (fun w => (hsame w).mp)
    fun w hw => .inr ((hsame w).mpr hw)

/-- GRAY, SEPIA and NEG share out the items of stage A (R94). -/
theorem runStageA_item_iff {rows cols : Nat} {w : Work} :
    (runStageA rows cols).Item w ↔
      ∃ i ∈ [Instr.gray, .sepia, .neg], (singleStage i rows cols).Item w := by
  cases w <;> simp [Stage.Item, singleStage, runStageA, workFits]

/-! ## Commands one after another -/

theorem completesAll_append {is js : List Instr} {s u : State} :
    CompletesAll (is ++ js) s u ↔ ∃ t, CompletesAll is s t ∧ CompletesAll js t u := by
  induction is generalizing s with
  | nil => simp [CompletesAll]
  | cons i is ih =>
    simp only [List.cons_append, CompletesAll, ih]
    constructor
    · rintro ⟨s', hi, t, his, hjs⟩; exact ⟨t, ⟨s', hi, his⟩, hjs⟩
    · rintro ⟨t, ⟨s', hi, his⟩, hjs⟩; exact ⟨s', hi, t, his, hjs⟩

/-- Commands one after another keep the invariant, the registers and the parameters. -/
theorem CompletesAll.registers {is : List Instr} {s u : State} (h : CompletesAll is s u) (hinv : Inv s) :
    Inv u ∧ u.rows = s.rows ∧ u.cols = s.cols ∧ u.nworkers = s.nworkers ∧ u.params = s.params := by
  induction is generalizing s with
  | nil => obtain rfl : s = u := h; exact ⟨hinv, rfl, rfl, rfl, rfl⟩
  | cons i is ih =>
    obtain ⟨t, hi, his⟩ := h
    have hframe := hi.frame hinv
    obtain ⟨hu, hrows, hcols, hworkers, hparams⟩ := ih his (hi.done hinv).1
    exact ⟨hu, hrows.trans hframe.rows, hcols.trans hframe.cols, hworkers.trans hframe.nworkers,
      hparams.trans hframe.params⟩

/-- A command that is not RUN, when it completes, has done its only stage. -/
theorem Completes.singleStage_done {i : Instr} {s u : State} (h : Completes i s u) (hinv : Inv s)
    (hi : i ≠ .run) : (singleStage i s.rows.toNat s.cols.toNat).Done s.bufs u.bufs :=
  (h.done hinv).2.single hi

/-- Commands among GRAY, SEPIA and NEG, one after another, carry stage A on by their items. -/
theorem CompletesAll.stageA_progress {is : List Instr} {s u : State} {m : Buffers} {pending : Work → Prop}
    (h : CompletesAll is s u) (hinv : Inv s) (his : ∀ i ∈ is, i ∈ [Instr.gray, .sepia, .neg])
    (hprogress : (runStageA s.rows.toNat s.cols.toNat).Progress pending m s.bufs) :
    (runStageA s.rows.toNat s.cols.toNat).Progress
      (fun w => pending w ∧ ∀ i ∈ is, ¬ (singleStage i s.rows.toNat s.cols.toNat).Item w) m u.bufs := by
  induction is generalizing s pending with
  | nil =>
    obtain rfl : s = u := h
    exact hprogress.mono fun w _ hw => ⟨hw, nofun⟩
  | cons i is ih =>
    obtain ⟨t, hi, hrest⟩ := h
    obtain ⟨hi', his'⟩ := List.forall_mem_cons.mp his
    have hrun : i ≠ .run := by rintro rfl; simp at hi'
    have hframe := hi.frame hinv
    have hstep := hprogress.substage (hi.singleStage_done hinv hrun)
      (pending' := fun w => pending w ∧ ¬ (singleStage i s.rows.toNat s.cols.toNat).Item w) rfl rfl
      (fun w hw => runStageA_item_iff.mpr ⟨i, hi', hw⟩)
      fun w hw => or_iff_not_imp_right.mpr fun hnot => ⟨hw, hnot⟩
    have hall := ih hrest (hi.done hinv).1 his' (by rw [hframe.rows, hframe.cols]; exact hstep)
    rw [hframe.rows, hframe.cols] at hall
    exact hall.mono fun w _ ⟨⟨hpend, hnot⟩, hnone⟩ => ⟨hpend, List.forall_mem_cons.mpr ⟨hnot, hnone⟩⟩

/-- GRAY, SEPIA and NEG in any order, then SOBEL, leave in the buffers what RUN leaves (R96). -/
theorem CompletesAll.commandDone_run {order : List Instr} {s v : State}
    (h : CompletesAll (order ++ [.sobel]) s v) (hinv : Inv s) (horder : order.Perm [.gray, .sepia, .neg]) :
    CommandDone .run s.rows.toNat s.cols.toNat s.bufs v.bufs := by
  obtain ⟨t, hthree, v', hsobel, rfl⟩ := completesAll_append.mp h
  obtain ⟨hinv', hrows, hcols, -, -⟩ := hthree.registers hinv
  have hstart := Stage.Progress.start (g := runStageA s.rows.toNat s.cols.toNat) (fun _ => id) s.bufs
  have hA := hthree.stageA_progress hinv (fun i hi => horder.mem_iff.mp hi) hstart
  have hB := (hsobel.singleStage_done hinv' (by decide)).stageB_of_sobel
  rw [hrows, hcols] at hB
  refine commandDone_run_iff.mpr ⟨t.bufs, hA.mono fun w hw ⟨_, hnone⟩ => ?_, hB⟩
  obtain ⟨i, hi, hitem⟩ := runStageA_item_iff.mp hw
  exact hnone i (horder.mem_iff.mpr hi) hitem

/-- Settles O15: what RUN leaves is determined by the buffers and the image's size, and canonical buffers
with equal bytes are equal. -/
theorem runEqualsTheFourCommands : Obligations.RunEqualsTheFourCommands := by
  unfold Obligations.RunEqualsTheFourCommands
  intro s u v order hinv horder hrun hfour
  obtain ⟨hu, hdone⟩ := hrun.done hinv
  obtain ⟨hv, hrows, hcols, hworkers, hparams⟩ := hfour.registers hinv
  have hframe := hrun.frame hinv
  refine ⟨?_, hframe.rows.trans hrows.symm, hframe.cols.trans hcols.symm,
    hframe.nworkers.trans hworkers.symm, hframe.params.trans hparams.symm⟩
  exact Buffers.ext_read _ _ hu.canonical hv.canonical fun b off =>
    congrFun (congrFun (hdone.read_eq (hfour.commandDone_run hinv horder)) b) off

end Sys2Proof.Machine

/-! PROOFS. The STATUS of a CMD write (O5, O8), what changes STATUS at all (O35), and reset (O45, O46). -/

namespace Sys2Proof.Machine

/-! ## The outcome of a CMD write (R101, R118) -/

/-- Bit 3 of the value a STATUS read returns is OVR (R22). -/
theorem readReg_status_bit3 (s : State) : (s.readReg offSTATUS).getLsbD 3 = s.status.ovr := by
  obtain ⟨-, -, -, hovr, -⟩ := s.status.word_fields
  rw [readReg_status, hovr]

theorem exec_of_busy {s : State} (i : Instr) (hbusy : s.status.busy = true) :
    exec i s = .next s.overrun := by
  rw [exec_cases, if_pos hbusy]

/-- Settles O5: `exec` is the overrun, whose OVR is bit 3 of STATUS. -/
theorem commandWhileBusyIsDropped : Obligations.CommandWhileBusyIsDropped := by
  unfold Obligations.CommandWhileBusyIsDropped
  exact fun i s hbusy => ⟨s.overrun, exec_of_busy i hbusy, rfl, readReg_status_bit3 s.overrun⟩

/-- The words that select a command are the numbers 1 to 6 (R61). -/
theorem decode_isOk_iff_toNat (w : Word) : (∃ i, decode w = .ok i) ↔ 1 ≤ w.toNat ∧ w.toNat ≤ 6 := by
  have hrsvd : (CmdWord.rsvd w).toNat = w.toNat / 16 := by
    rw [CmdWord.rsvd, BitVec.extractLsb'_toNat, Nat.shiftRight_eq_div_pow]
    omega
  have hop : (CmdWord.op w).toNat = w.toNat % 16 := by
    rw [CmdWord.op, BitVec.extractLsb'_toNat, Nat.shiftRight_zero]
  have hzero : CmdWord.rsvd w = 0 ↔ w.toNat / 16 = 0 := by
    rw [← hrsvd, ← BitVec.toNat_inj]
    rfl
  rw [decode_isOk_iff, hzero, hop]
  omega

/-- STATUS after a CMD write: the first of R101's conditions that holds decides it. -/
theorem writeCmd_status {s t : State} {w : Word} (h : s.writeCmd w = .next t) :
    t.status =
      if s.status.busy = true then { s.status with ovr := true }
      else if w.toNat = 0 ∨ 6 < w.toNat then
        { busy := false, done := true, err := true, ovr := s.status.ovr, errcode := 4 }
      else if s.rows.toNat = 0 ∨ s.cols.toNat = 0 ∨ s.params.maxRows < s.rows.toNat ∨
          s.params.maxCols < s.cols.toNat then
        { busy := false, done := true, err := true, ovr := s.status.ovr, errcode := 1 }
      else { busy := true, done := false, err := false, ovr := s.status.ovr, errcode := 0 } := by
  have hlegal := decode_isOk_iff_toNat w
  obtain ⟨hbusy, rfl⟩ | ⟨hidle, i, hi, hexec⟩ | ⟨hidle, hw, rfl⟩ := writeCmd_cases h
  · rw [if_pos hbusy]; rfl
  · have hword := hlegal.mp ⟨i, hi⟩
    have hdims := dimensionsBad_iff s.params s.rows.toNat s.cols.toNat
    rw [if_neg (by simp [hidle]), if_neg (by omega)]
    by_cases hbad : dimensionsBad s.params s.rows.toNat s.cols.toNat = true
    · rw [exec_of_dimensionsBad i hidle hbad] at hexec
      cases hexec
      rw [if_pos (hdims.mp hbad)]
    · rw [exec_of_dimensionsOk i hidle hbad] at hexec
      cases hexec
      rw [if_neg (hdims.not.mp hbad)]
      rfl
  · have hword : ¬ (1 ≤ w.toNat ∧ w.toNat ≤ 6) := fun hword =>
      (hlegal.mpr hword).elim ((decode_eq_error_iff w).mp hw)
    rw [if_neg (by simp [hidle]), if_pos (by omega), clearResult_reject_of_idle hidle]

/-- Settles O8: the step is the CMD write behind the access. -/
theorem cmdWriteReportsOneOutcome : Obligations.CmdWriteReportsOneOutcome := by
  unfold Obligations.CmdWriteReportsOneOutcome
  intro s t w ts rest h
  have hwrite := (step_write_cmd s w ts rest).symm.trans h
  exact writeCmd_status (s := { s with sched := ts, hostOps := rest }) hwrite

/-! ## What changes STATUS (R103) -/

/-- A CMD write sets OVR while BUSY = 1 and keeps it otherwise (R67). -/
theorem writeCmd_status_cases {s t : State} {w : Word} (h : s.writeCmd w = .next t) :
    (s.status.busy = true ∧ t.status = s.status.overrun) ∨
    (s.status.busy = false ∧ t.status.ovr = s.status.ovr) := by
  have hstatus := writeCmd_status h
  by_cases hbusy : s.status.busy = true
  · rw [if_pos hbusy] at hstatus
    exact .inl ⟨hbusy, hstatus⟩
  · rw [if_neg hbusy] at hstatus
    refine .inr ⟨by simpa using hbusy, ?_⟩
    rw [hstatus]
    split_ifs <;> rfl

/-- A host turn changes STATUS only by a write to CMD or to STATUS. -/
theorem hostTurn_status_cases {s t : State} (h : hostTurn s = .next t) :
    t.status = s.status ∨
    ∃ place value rest, s.hostOps = .write place 32 value :: rest ∧
      ((locate s.params place = some (.reg offCMD) ∧
          State.writeCmd { s with hostOps := rest } (BitVec.ofNat 32 value) = .next t) ∨
        (locate s.params place = some (.reg offSTATUS) ∧
          t.status = s.status.hostWrite (BitVec.ofNat 32 value))) := by
  obtain ⟨-, rfl⟩ | ⟨place, bits, rest, -, hread⟩ | ⟨place, bits, value, rest, hops, hwrite⟩ |
    ⟨rest, -, rfl⟩ := hostTurn_cases h
  · exact .inl rfl
  · obtain ⟨off, -, -, rfl⟩ | ⟨b, off, v, -, -, -, -, rfl⟩ := hostRead_cases hread <;> exact .inl rfl
  · obtain ⟨off, hloc, hok, hreg⟩ | ⟨b, off, -, -, -, rfl⟩ := hostWrite_cases hwrite
    · obtain ⟨rfl, -, -⟩ := (regAccessOk_iff bits off).mp hok
      obtain ⟨rfl, hcmd⟩ | ⟨rfl, rfl⟩ | ⟨-, rfl⟩ | ⟨-, rfl⟩ | ⟨-, rfl⟩ | ⟨-, rfl⟩ := writeReg_cases hreg
      · exact .inr ⟨place, value, rest, hops, .inl ⟨hloc, hcmd⟩⟩
      · exact .inr ⟨place, value, rest, hops, .inr ⟨hloc, rfl⟩⟩
      all_goals exact .inl rfl
    · exact .inl rfl
  · exact .inl rfl

/-- A sequencer's turn leaves STATUS or completes a command (R70). -/
theorem sequencerTurn_status_cases {s t : State} (h : sequencerTurn s = .next t) :
    t.status = s.status ∨ t.status = s.status.completed := by
  rw [sequencerTurn_cases] at h
  split_ifs at h <;> cases h
  · exact .inl rfl
  · exact .inl rfl
  · exact .inr rfl

/-- What a step that is no reset can do to STATUS: nothing; completion; or what the host's write to
STATUS or CMD does (R103). -/
theorem step_status_cases {s t : State} (h : step s = .next t) (hreset : s.nextTurn ≠ .reset) :
    t.status = s.status ∨
    (s.nextTurn = .sequencer ∧ t.status = s.status.completed) ∨
    (∃ value, s.hostWritesReg offSTATUS value ∧
      t.status = s.status.hostWrite (BitVec.ofNat 32 value)) ∨
    (∃ value, s.hostWritesReg offCMD value ∧
      ((s.status.busy = true ∧ t.status = s.status.overrun) ∨
        (s.status.busy = false ∧ t.status.ovr = s.status.ovr))) := by
  change takeTurn s.nextTurn s.turnTaken = .next t at h
  cases hturn : s.nextTurn with
  | reset => exact absurd hturn hreset
  | lane k n =>
    rw [hturn] at h
    exact .inl ((laneTurn_status h).trans s.turnTaken_status)
  | sequencer =>
    rw [hturn] at h
    obtain hsame | hcompleted := sequencerTurn_status_cases h
    · exact .inl (hsame.trans s.turnTaken_status)
    · exact .inr (.inl ⟨rfl, hcompleted.trans (congrArg _ s.turnTaken_status)⟩)
  | host =>
    rw [hturn] at h
    obtain hsame | ⟨place, value, rest, hops, hwrite⟩ := hostTurn_status_cases h
    · exact .inl (hsame.trans s.turnTaken_status)
    · rw [s.turnTaken_hostOps] at hops
      rw [s.turnTaken_params] at hwrite
      obtain ⟨hloc, hcmd⟩ | ⟨hloc, hstatus⟩ := hwrite
      · have hcases := writeCmd_status_cases hcmd
        dsimp only at hcases
        rw [s.turnTaken_status] at hcases
        exact .inr (.inr (.inr ⟨value, ⟨hturn, place, rest, hops, hloc⟩, hcases⟩))
      · rw [s.turnTaken_status] at hstatus
        exact .inr (.inr (.inl ⟨value, ⟨hturn, place, rest, hops, hloc⟩, hstatus⟩))

/-- A number written to STATUS with bit 3 clear leaves STATUS (R22). -/
theorem Status.hostWrite_of_bit3_clear (t : Status) {value : Nat} (h : value / 8 % 2 = 0) :
    t.hostWrite (BitVec.ofNat 32 value) = t := by
  have hbit : ¬ (BitVec.ofNat 32 value).toNat / 8 % 2 = 1 := by rw [BitVec.toNat_ofNat]; omega
  rw [Status.hostWrite_eq, if_neg hbit]

/-- Settles O35: of what a step can do to STATUS, only a CMD write taken while BUSY = 0 changes ERR and
ERRCODE, completion can only set DONE, and only a STATUS write clears OVR. -/
theorem statusHoldsUntilNextCommand : Obligations.StatusHoldsUntilNextCommand := by
  unfold Obligations.StatusHoldsUntilNextCommand
  intro s t hstep hreset
  obtain hstatus | ⟨hturn, hstatus⟩ | ⟨value, hwrites, hstatus⟩ | ⟨value, hwrites, hcmd⟩ :=
    step_status_cases hstep hreset
  · simp [hstatus]
  · simp [hstatus, hturn]
  · refine ⟨fun _ => by simp [hstatus], fun hbit => ?_⟩
    rw [hstatus, Status.hostWrite_of_bit3_clear _ (hbit value hwrites)]
    exact ⟨id, fun _ => rfl⟩
  · obtain ⟨hbusy, hstatus⟩ | ⟨hidle, hovr⟩ := hcmd
    · refine ⟨fun _ => by simp [hstatus], fun _ => ⟨fun _ => by simp [hstatus], fun hnone => ?_⟩⟩
      exact absurd (hnone value hwrites) (by simp [hbusy])
    · refine ⟨fun hnone => absurd (hnone value hwrites) (by simp [hidle]), fun _ => ?_⟩
      exact ⟨fun hset => hovr.trans hset, fun _ => hovr⟩

/-! ## Reset (R35, R112, R113) -/

theorem Status.reset_word : Status.reset.word = 0 := by decide

/-- STATUS after a command issued straight after reset (R35). -/
theorem Status.word_dimensionsRejected :
    Status.word { busy := false, done := true, err := true, ovr := false, errcode := 1 } = 0x16#32 := by
  decide

/-- Settles O45: ROWS = 0 is a bad dimension, so every command is rejected. -/
theorem resetState : Obligations.ResetState := by
  unfold Obligations.ResetState
  intro p hparams
  have hnmax : p.nmax < 2 ^ 16 := by
    obtain ⟨⟨-, hnmax⟩, -⟩ := (paramsOk_iff p).mp hparams
    omega
  refine ⟨Status.reset_word, rfl, rfl, (BitVec.toNat_ofNat _ _).trans (Nat.mod_eq_of_lt hnmax), rfl,
    Buffers.uninit_read, fun i => ⟨_, exec_of_dimensionsBad i rfl rfl, Status.word_dimensionsRejected⟩⟩

/-- Settles O46: the turn is `hardReset`, whatever the state. -/
theorem resetAbandonsTheCommand : Obligations.ResetAbandonsTheCommand := by
  unfold Obligations.ResetAbandonsTheCommand
  intro s hturn
  have hstep : step s = .next s.turnTaken.hardReset := by rw [step, hturn]; rfl
  refine ⟨_, hstep, Status.reset_word, rfl, rfl, rfl, ?_, Buffers.uninit_read⟩
  rw [State.hardReset_nworkers, State.turnTaken_params]

end Sys2Proof.Machine

/-! PROOFS. Completion (R116): which turns of the block's agents are enabled, that an enabled turn shortens
what is left of a command or faults on an `uninit` byte (O26), and so that a running command can be
completed (O27) and in a fair run is (O28). -/

namespace Sys2Proof.Machine

/-! ## Enabled turns (R66) -/

/-- The agent of the block that the turn names has something to do: a lane that the stage uses and that
is not done, or the sequencer where the stage is complete. -/
def State.Enables (s : State) : Turn → Prop
  | .sequencer => s.phase ≠ .idle ∧ s.stageComplete = true
  | .lane k _ => s.phase ≠ .idle ∧ ∃ l, s.lanes[k]? = some l ∧ l.active = true ∧ l.done = false
  | .host => False
  | .reset => False

theorem State.Enables.ofBlock {s : State} {turn : Turn} (h : s.Enables turn) : Turn.ofBlock turn = true := by
  cases turn
  case host => cases h
  case reset => cases h
  all_goals rfl

/-- Which turns are enabled depends on the control state alone. -/
theorem State.Enables.congr {s t : State} {turn : Turn} (h : s.Enables turn) (hst : SameControl s t) :
    t.Enables turn := by
  cases turn
  case host => cases h
  case reset => cases h
  all_goals simpa only [State.Enables, State.stageComplete, hst.phase, hst.lanes] using h

/-- While a command runs some agent of the block is enabled: a lane, or, when all are done, the sequencer
(R70, R74). -/
theorem exists_enabled {s : State} (hphase : s.phase ≠ .idle) : ∃ turn : Turn, s.Enables turn := by
  by_cases hcomplete : s.stageComplete = true
  · exact ⟨.sequencer, hphase, hcomplete⟩
  · rw [stageComplete_iff] at hcomplete
    push Not at hcomplete
    obtain ⟨l, hl, hactive, hdone⟩ := hcomplete
    obtain ⟨k, hk⟩ := List.mem_iff_getElem?.mp hl
    exact ⟨.lane k 0, hphase, l, hk, hactive, by simpa using hdone⟩

/-- A turn given to an agent that is not enabled changes nothing (log 4). -/
theorem takeTurn_of_not_enabled {turn : Turn} {s t : State} (hblock : Turn.ofBlock turn = true)
    (h : ¬ s.Enables turn) (hturn : takeTurn turn s = .next t) : t = s := by
  cases turn with
  | host => cases hblock
  | reset => cases hblock
  | sequencer =>
    change sequencerTurn s = _ at hturn
    have hwait : s.stageComplete = false ∨ s.phase = .idle := by
      by_contra hnot
      obtain ⟨hcomplete, hphase⟩ := not_or.mp hnot
      exact h ⟨hphase, by simpa using hcomplete⟩
    rw [sequencerTurn_cases, if_pos hwait] at hturn
    cases hturn
    rfl
  | lane k n =>
    obtain rfl | ⟨l, hl, hphase, hactive, hdone, -⟩ | ⟨l, _, _, _, hl, hphase, hactive, hdone, -⟩ :=
      laneTurn_cases hturn
    · rfl
    all_goals exact absurd ⟨hphase, l, hl, hactive, hdone⟩ h

/-- The turn of a lane that the stage uses and that is not done is the lane's work. -/
theorem laneTurn_eq_laneWork {k : Nat} {s : State} {l : Lane} (n : Nat) (hphase : s.phase ≠ .idle)
    (hl : s.lanes[k]? = some l) (hactive : l.active = true) (hdone : l.done = false) :
    laneTurn k n s = s.laneWork k n l := by
  simp [laneTurn, hl, hphase, hactive, hdone]

/-- A used lane that is not done takes a step: an item or its `laneDone` (R74). -/
theorem laneWork_lt {k n : Nat} {s t : State} {l : Lane} (hl : s.lanes[k]? = some l)
    (hactive : l.active = true) (hdone : l.done = false) (h : s.laneWork k n l = .next t) :
    remainingSteps t < remainingSteps s := by
  unfold State.laneWork at h
  split at h
  case h_1 =>
    cases h
    exact remainingSteps_setLane_lt (.refl s) hl (by simp [Lane.steps, hactive, hdone])
  case h_2 w hw =>
    split at h
    case h_1 => cases h
    case h_2 u hu =>
      cases h
      obtain ⟨hlt, -⟩ := List.getElem?_eq_some_iff.mp hw
      refine remainingSteps_setLane_lt (sameControl_runWork hu) hl ?_
      simp only [Lane.steps, List.length_eraseIdx_of_lt hlt]
      omega

/-- An enabled turn that answers shortens what is left (R70, R74, R95). -/
theorem takeTurn_lt_of_enabled {turn : Turn} {s t : State} (hworkers : 1 ≤ s.ln) (h : s.Enables turn)
    (hturn : takeTurn turn s = .next t) : remainingSteps t < remainingSteps s := by
  cases turn with
  | host => cases h
  | reset => cases h
  | sequencer =>
    obtain ⟨hphase, hcomplete⟩ := h
    change sequencerTurn s = _ at hturn
    rw [sequencerTurn_cases, if_neg (by simp [hphase, hcomplete])] at hturn
    split_ifs at hturn with hstageA <;> cases hturn
    · exact remainingSteps_stageB_lt hstageA hworkers
    · exact remainingSteps_complete_lt hphase
  | lane k n =>
    obtain ⟨hphase, l, hl, hactive, hdone⟩ := h
    change laneTurn k n s = _ at hturn
    rw [laneTurn_eq_laneWork n hphase hl hactive hdone] at hturn
    exact laneWork_lt hl hactive hdone hturn

/-- A lane's turn answers, or faults on an `uninit` byte (R46). -/
theorem laneTurn_next_or_uninitRead (k n : Nat) (s : State) : (∃ u, laneTurn k n s = .next u) ∨
    ∃ b off, laneTurn k n s = .fault (.uninitRead b off) ∧ s.bufs.read b off = none := by
  unfold laneTurn
  split
  case h_1 => exact .inl ⟨_, rfl⟩
  case h_2 l _ =>
    split
    case isTrue => exact .inl ⟨_, rfl⟩
    case isFalse =>
      unfold State.laneWork
      split
      case h_1 => exact .inl ⟨_, rfl⟩
      case h_2 w _ =>
        have hreads := readsBytes_runWork w s
        split
        case h_1 f hf =>
          rw [hf] at hreads
          obtain ⟨b, off, rfl, -, hnone⟩ := hreads
          exact .inr ⟨b, off, rfl, hnone⟩
        case h_2 => exact .inl ⟨_, rfl⟩

/-- A turn of the block's agents answers, or faults on an `uninit` byte. -/
theorem blockTurn_next_or_uninitRead {turn : Turn} (s : State) (hblock : Turn.ofBlock turn = true) :
    (∃ u, takeTurn turn s = .next u) ∨
    ∃ b off, takeTurn turn s = .fault (.uninitRead b off) ∧ s.bufs.read b off = none := by
  cases turn with
  | host => cases hblock
  | reset => cases hblock
  | sequencer => exact .inl (exists_sequencerTurn s)
  | lane k n => exact laneTurn_next_or_uninitRead k n s

/-! ## A running command whose input is written (R115) -/

/-- A command runs whose input image is written, or is RUN behind its barrier, where GRAY is. -/
structure Supplied (s : State) : Prop where
  inv : Inv s
  grayReady : GrayReadyInv s
  busy : s.status.busy = true
  input : s.phase ≠ .stageB → InputWritten s.bufs s

/-- The image that an item of the stage reads is written (R94, R115). -/
theorem Supplied.workInput_written {s : State} (h : Supplied s) {w : Work} (hw : s.stage.Item w) :
    Written s.bufs (workInput w) (imageBytes s.lrows s.lcols (workInput w)) := by
  by_cases hB : s.phase = .stageB
  · rw [Stage.Item, State.stage, hB] at hw
    rw [workInput_of_stageB hw]
    exact h.grayReady.stageB hB
  · rw [workInput_eq_cmdInput (h.inv.running h.busy).stages hB hw]
    exact h.input hB

/-- No turn of the block's agents faults (R46). -/
theorem Supplied.exists_next {s : State} (h : Supplied s) {turn : Turn}
    (hblock : Turn.ofBlock turn = true) : ∃ u, takeTurn turn s = .next u := by
  cases turn with
  | host => cases hblock
  | reset => cases hblock
  | sequencer => exact exists_sequencerTurn s
  | lane k n =>
    refine exists_laneTurn fun l hl w hw => ?_
    have hitem := (h.inv.running h.busy).item_of_mem hl hw
    exact exists_runWork_of_written hitem (h.workInput_written hitem)

/-- Some turn of the block's agents shortens what is left (R116). -/
theorem Supplied.exists_blockTurn {s : State} (h : Supplied s) :
    ∃ turn t, Turn.ofBlock turn = true ∧ takeTurn turn s = .next t ∧
      remainingSteps t < remainingSteps s := by
  obtain ⟨turn, henabled⟩ := exists_enabled (h.inv.phase_ne_idle h.busy)
  obtain ⟨t, hturn⟩ := h.exists_next henabled.ofBlock
  exact ⟨turn, t, henabled.ofBlock, hturn,
    takeTurn_lt_of_enabled (h.inv.running h.busy).workers.1 henabled hturn⟩

/-- Settles O26: a turn that is not enabled changes nothing, and an enabled one shortens what is left or
faults on an `uninit` byte, of which a stage whose input is written reads none. -/
theorem blockTurnsMakeProgress : Obligations.BlockTurnsMakeProgress := by
  unfold Obligations.BlockTurnsMakeProgress
  intro s hinv
  refine ⟨fun turn u hblock hturn => ?_, fun hbusy => ?_, fun hbusy hgray hin => ?_⟩
  · by_cases henabled : s.Enables turn
    · by_cases hbusy : s.status.busy = true
      · exact .inr (takeTurn_lt_of_enabled (hinv.running hbusy).workers.1 henabled hturn)
      · exact .inl (blockTurn_of_idle (hinv.idle.mpr (by simpa using hbusy)) hblock hturn)
    · exact .inl (takeTurn_of_not_enabled hblock henabled hturn)
  · obtain ⟨turn, henabled⟩ := exists_enabled (hinv.phase_ne_idle hbusy)
    refine ⟨turn, henabled.ofBlock, ?_⟩
    refine (blockTurn_next_or_uninitRead s henabled.ofBlock).imp_left fun ⟨u, hturn⟩ => ?_
    exact ⟨u, hturn, takeTurn_lt_of_enabled (hinv.running hbusy).workers.1 henabled hturn⟩
  · exact Supplied.exists_blockTurn ⟨hinv, hgray, hbusy, hin⟩

/-! ## The block's turns can complete a command (R116) -/

/-- A turn that is no reset ends a running command only by completing it (R70). -/
theorem takeTurn_busy_or_done {turn : Turn} {s t : State} (hbusy : s.status.busy = true)
    (hreset : turn ≠ .reset) (hturn : takeTurn turn s = .next t) :
    t.status.busy = true ∨ t.status.busy = false ∧ t.status.done = true := by
  by_cases hbusy' : t.status.busy = true
  · exact .inl hbusy'
  · obtain heq | ⟨-, -, rfl⟩ := takeTurn_ends hbusy hturn (by simpa using hbusy')
    · exact absurd heq hreset
    · exact .inr ⟨rfl, rfl⟩

/-- While the command runs on, a turn of the block's agents keeps its input written. -/
theorem Supplied.blockTurn {turn : Turn} {s t : State} (h : Supplied s)
    (hblock : Turn.ofBlock turn = true) (hturn : takeTurn turn s = .next t)
    (hbusy : t.status.busy = true) : Supplied t where
  inv := takeTurn_keeps_inv h.inv hturn
  grayReady := takeTurn_keeps_grayReady h.inv h.grayReady hturn
  busy := hbusy
  input := by
    intro hB
    cases turn with
    | host => cases hblock
    | reset => cases hblock
    | lane k n =>
      obtain ⟨hrows, hcols, -, hop⟩ := laneTurn_config hturn
      have hphase : t.phase = s.phase := by rw [(laneTurn_frame hturn).1]
      rw [InputWritten, hop, hrows, hcols]
      exact fun off hoff => laneTurn_keepsWritten hturn _ _ (h.input (hphase ▸ hB) off hoff)
    | sequencer =>
      change sequencerTurn s = _ at hturn
      rw [sequencerTurn_cases] at hturn
      split_ifs at hturn <;> cases hturn
      · exact h.input hB
      · exact absurd rfl hB
      · cases hbusy

theorem Supplied.exists_completing_turns {s : State} (h : Supplied s) :
    ∃ (ts : List Turn) (u : State), ts.length ≤ remainingSteps s ∧
      (∀ t ∈ ts, Turn.ofBlock t = true) ∧ runTurns ts s = .next u ∧ u.status.busy = false ∧
      u.status.done = true := by
  induction hn : remainingSteps s using Nat.strong_induction_on generalizing s with
  | _ n ih =>
    obtain ⟨turn, t, hblock, hturn, hlt⟩ := h.exists_blockTurn
    have hreset : turn ≠ .reset := by rintro rfl; cases hblock
    obtain hbusy | hended := takeTurn_busy_or_done h.busy hreset hturn
    · obtain ⟨ts, u, hlength, hts, hrun, hended⟩ := ih _ (hn ▸ hlt) (h.blockTurn hblock hturn hbusy) rfl
      refine ⟨turn :: ts, u, ?_, List.forall_mem_cons.mpr ⟨hblock, hts⟩, ?_, hended⟩
      · rw [List.length_cons]; omega
      · rw [runTurns_cons, hturn]; exact hrun
    · refine ⟨[turn], { t with sched := [] }, ?_, List.forall_mem_singleton.mpr hblock, ?_, hended⟩
      · rw [List.length_singleton]; omega
      · rw [runTurns_cons, hturn]; exact runTurns_nil t

/-- Settles O27: by induction on the steps that remain, of which each turn chosen takes at least one. -/
theorem runningCommandCanFinish : Obligations.RunningCommandCanFinish := by
  unfold Obligations.RunningCommandCanFinish
  exact fun s hinv hgray hbusy hin => Supplied.exists_completing_turns ⟨hinv, hgray, hbusy, hin⟩

/-! ## Fair runs (R116) -/

theorem SameControl.trans {s t u : State} (h : SameControl s t) (h' : SameControl t u) :
    SameControl s u where
  params := h'.params.trans h.params
  busy := h'.busy.trans h.busy
  done := h'.done.trans h.done
  err := h'.err.trans h.err
  errcode := h'.errcode.trans h.errcode
  lrows := h'.lrows.trans h.lrows
  lcols := h'.lcols.trans h.lcols
  ln := h'.ln.trans h.ln
  phase := h'.phase.trans h.phase
  curop := h'.curop.trans h.curop
  lanes := h'.lanes.trans h.lanes

theorem SameControl.remainingSteps_eq {s t : State} (h : SameControl s t) :
    remainingSteps t = remainingSteps s := by
  rw [remainingSteps, remainingSteps, h.lanes, h.phase, h.lrows, h.lcols, h.ln]

/-- A turn taken while a command runs leaves the control state, or shortens what is left. -/
theorem takeTurn_sameControl_or_lt {turn : Turn} {s t : State} (hinv : Inv s)
    (hbusy : s.status.busy = true) (hreset : turn ≠ .reset) (hturn : takeTurn turn s = .next t) :
    SameControl s t ∨ remainingSteps t < remainingSteps s := by
  by_cases hblock : Turn.ofBlock turn = true
  · by_cases henabled : s.Enables turn
    · exact .inr (takeTurn_lt_of_enabled (hinv.running hbusy).workers.1 henabled hturn)
    · exact .inl (takeTurn_of_not_enabled hblock henabled hturn ▸ .refl s)
  · cases turn with
    | host => exact .inl (hostTurn_sameControl_of_busy hbusy hturn)
    | reset => exact absurd rfl hreset
    | _ => exact absurd rfl hblock

theorem lanePlan_length (op : Instr) (rows n : Nat) : (lanePlan op rows n).length = n := by
  unfold lanePlan
  split <;> simp

/-- The stage has no more lanes than the build (R71). -/
theorem RunningInv.lane_lt_nmax {s : State} (h : RunningInv s) {k : Nat} {l : Lane}
    (hl : s.lanes[k]? = some l) : k < s.params.nmax := by
  have hlength : s.lanes.length = s.ln := by
    rw [← lanePlan_length s.curop s.lrows s.ln, ← h.plan, List.length_map]
  obtain ⟨hk, -⟩ := List.getElem?_eq_some_iff.mp hl
  exact (hlength ▸ hk).trans_le h.workers.2

section
variable {s : State} {turns : Nat → Turn} {states : Nat → State}

theorem FairRun.params (h : FairRun s turns states) (n : Nat) : (states n).params = s.params := by
  induction n with
  | zero => rw [h.start]
  | succ n ih => rw [takeTurn_params (h.steps n), ih]

/-- An agent that is enabled gets a turn later (R116). -/
theorem FairRun.exists_turn (h : FairRun s turns states) {n : Nat} (hrunning : RunningInv (states n))
    {turn : Turn} (henabled : (states n).Enables turn) :
    ∃ m, n ≤ m ∧ (states n).Enables (turns m) := by
  cases turn with
  | host => cases henabled
  | reset => cases henabled
  | sequencer =>
    obtain ⟨m, hm, hturn⟩ := h.sequencer n
    exact ⟨m, hm, hturn ▸ henabled⟩
  | lane k q =>
    have ⟨_, l, hl, _⟩ := henabled
    obtain ⟨m, q', hm, hturn⟩ := h.lanes k n (h.params n ▸ hrunning.lane_lt_nmax hl)
    exact ⟨m, hm, hturn ▸ henabled⟩

/-- The command runs at every point of the run. -/
def NeverEnds (states : Nat → State) : Prop :=
  ∀ n, Inv (states n) ∧ (states n).status.busy = true

/-- In a run that passes no state with BUSY = 0 and DONE = 1 the command never ends. -/
theorem FairRun.neverEnds (h : FairRun s turns states) (hinv : Inv s) (hbusy : s.status.busy = true)
    (hnot : ∀ n, ¬ ((states n).status.busy = false ∧ (states n).status.done = true)) :
    NeverEnds states := by
  intro n
  induction n with
  | zero => exact h.start ▸ ⟨hinv, hbusy⟩
  | succ n ih =>
    obtain ⟨hinv, hbusy⟩ := ih
    refine ⟨takeTurn_keeps_inv hinv (h.steps n), ?_⟩
    exact (takeTurn_busy_or_done hbusy (h.noReset n) (h.steps n)).resolve_right (hnot (n + 1))

/-- From one point of a run to a later one the control state is left, or what is left gets less. -/
theorem FairRun.sameControl_or_lt (h : FairRun s turns states) (hruns : NeverEnds states) {n m : Nat}
    (hm : n ≤ m) : SameControl (states n) (states m) ∨
      remainingSteps (states m) < remainingSteps (states n) := by
  induction m, hm using Nat.le_induction with
  | base => exact .inl (.refl _)
  | succ m hm ih =>
    obtain ⟨hinv, hbusy⟩ := hruns m
    obtain hstep | hstep := takeTurn_sameControl_or_lt hinv hbusy (h.noReset m) (h.steps m)
    · exact ih.imp (fun hsame => hsame.trans hstep) fun hlt => hstep.remainingSteps_eq.trans_lt hlt
    · exact .inr (hstep.trans_le (ih.elim (fun hsame => hsame.remainingSteps_eq.le) le_of_lt))

/-- From every point of a run what is left gets less: an agent that is enabled stays so until then, and
gets a turn. -/
theorem FairRun.exists_lt (h : FairRun s turns states) (hruns : NeverEnds states) (n : Nat) :
    ∃ m, remainingSteps (states m) < remainingSteps (states n) := by
  obtain ⟨hinv, hbusy⟩ := hruns n
  have hrunning := hinv.running hbusy
  obtain ⟨turn, henabled⟩ := exists_enabled (hinv.phase_ne_idle hbusy)
  obtain ⟨m, hm, henabled⟩ := h.exists_turn hrunning henabled
  obtain hsame | hlt := h.sameControl_or_lt hruns hm
  · refine ⟨m + 1, ?_⟩
    rw [← hsame.remainingSteps_eq]
    exact takeTurn_lt_of_enabled (hsame.ln ▸ hrunning.workers.1) (henabled.congr hsame) (h.steps m)
  · exact ⟨m, hlt⟩

end

/-- Settles O28: if the command never ended, what is left of it would have no least value in the run. -/
theorem fairRunsComplete : Obligations.FairRunsComplete := by
  unfold Obligations.FairRunsComplete
  intro s turns states hinv hbusy hfair
  by_contra hnot
  have hruns := hfair.neverEnds hinv hbusy (not_exists.mp hnot)
  obtain ⟨m, hlt⟩ := hfair.exists_lt hruns (Function.argmin fun n => remainingSteps (states n))
  exact Function.not_lt_argmin (fun n => remainingSteps (states n)) m hlt

end Sys2Proof.Machine

/-! PROOFS. A command that completes has read every byte of its input image, which so was written before
(O17). -/

namespace Sys2Proof.Machine

/-! ## The first stage reads the whole input image (R115) -/

/-- The first stage of the command that runs or has last run, on its image. -/
def State.firstStage (s : State) : Stage :=
  { phase := firstPhase s.curop, op := s.curop, rows := s.lrows, cols := s.lcols }

/-- An item of a command's first stage that reads channel `k` of pixel `(i, j)` of its input image. -/
def inputItem (i j k : Nat) : Instr → Work
  | .gray => .gray i j
  | .sepia => .sepia i j
  | .neg => .neg i j k
  | .sobel => .sobel i j
  | .thrinv => .thrinv i j
  | .run => .gray i j

theorem inputItem_item {s : State} {i j k : Nat} (hi : i < s.lrows) (hj : j < s.lcols)
    (hk : k < channels (cmdInput s.curop)) : s.firstStage.Item (inputItem i j k s.curop) := by
  change workFits (firstPhase s.curop) s.curop s.lcols { start := 0, stop := s.lrows } _
  cases hop : s.curop <;> rw [hop] at hk
  case neg => exact ⟨.inl ⟨rfl, rfl⟩, Nat.zero_le i, hi, hj, hk⟩
  case thrinv => exact ⟨⟨rfl, rfl⟩, Nat.zero_le i, hi, hj⟩
  case run => exact ⟨.inr rfl, Nat.zero_le i, hi, hj⟩
  all_goals exact ⟨.inl ⟨rfl, rfl⟩, Nat.zero_le i, hi, hj⟩

theorem inputItem_reads {s : State} {i j k : Nat} (hi : i < s.lrows) (hj : j < s.lcols)
    (hk : k < channels (cmdInput s.curop)) :
    itemReads s (inputItem i j k s.curop) (cmdInput s.curop)
      (pixelOffset s.lcols (cmdInput s.curop) i j k) := by
  cases hop : s.curop <;> rw [hop] at hk
  case neg => exact ⟨rfl, rfl⟩
  case sobel =>
    obtain rfl : k = 0 := Nat.lt_one_iff.mp hk
    exact ⟨rfl, i, j, hi, hj, i.le_succ, i.le_succ, j.le_succ, j.le_succ, Nat.mul_one _⟩
  case thrinv =>
    obtain rfl : k = 0 := Nat.lt_one_iff.mp hk
    exact ⟨rfl, Nat.mul_one _⟩
  all_goals exact ⟨rfl, k, hk, rfl⟩

/-- Every byte of an image is a channel of a pixel (R36, R39). -/
theorem exists_pixelOffset_eq {rows cols off : Nat} {b : BufId} (h : off < imageBytes rows cols b) :
    ∃ i j k, i < rows ∧ j < cols ∧ k < channels b ∧ pixelOffset cols b i j k = off := by
  have hchannels : 0 < channels b := by cases b <;> decide
  have hpixel : off / channels b < rows * cols := (Nat.div_lt_iff_lt_mul hchannels).mpr h
  have hcols : 0 < cols := Nat.pos_of_ne_zero fun hzero => by simp [hzero] at hpixel
  refine ⟨off / channels b / cols, off / channels b % cols, off % channels b,
    (Nat.div_lt_iff_lt_mul hcols).mpr hpixel, Nat.mod_lt _ hcols, Nat.mod_lt _ hchannels, ?_⟩
  rw [pixelOffset, Nat.div_add_mod', Nat.div_add_mod']

/-! ## An item that is done has read written bytes (R46) -/

/-- The bytes that the item reads are written. -/
def State.CanRead (s : State) (w : Work) : Prop :=
  ∀ b off, itemReads s w b off → s.bufs.read b off ≠ none

theorem canRead_of_runWork {w : Work} {s t : State} (h : runWork w s = .ok t) : s.CanRead w := by
  have hreads := readsBytes_runWork w s
  rw [h] at hreads
  exact hreads

/-- Which bytes an item reads depends on the latched dimensions alone (R28). -/
theorem itemReads_congr {s t : State} (hrows : t.lrows = s.lrows) (hcols : t.lcols = s.lcols) (w : Work)
    (b : BufId) (off : Nat) : itemReads t w b off ↔ itemReads s w b off := by
  cases w <;> simp only [itemReads, hrows, hcols]

theorem State.CanRead.mono {s t : State} {w : Work} (h : s.CanRead w) (hrows : t.lrows = s.lrows)
    (hcols : t.lcols = s.lcols) (hkept : KeepsWritten s.bufs t.bufs) : t.CanRead w :=
  fun b off hread => hkept b off (h b off ((itemReads_congr hrows hcols w b off).mp hread))

/-- An item of the first stage is pending, or the bytes it reads are written. -/
def State.ReadsInput (s : State) : Prop :=
  ∀ w, s.firstStage.Item w → s.CanRead w ∨ s.phase ≠ .idle ∧ s.Pending w

/-- A pending item stays pending in a lane's turn, or is the one that the turn does. -/
theorem laneTurn_pending_or_canRead {k n : Nat} {s t : State} {x : Work} (h : laneTurn k n s = .next t)
    (hx : s.Pending x) : t.Pending x ∨ s.CanRead x := by
  obtain rfl | ⟨l, hl, -, -, -, -, rfl⟩ | ⟨l, w, u, q, hl, -, -, -, hw, hwork, rfl⟩ := laneTurn_cases h
  · exact .inl hx
  · exact .inl (pending_setLane rfl hl id hx)
  · by_cases hxw : x = w
    · subst hxw
      exact .inr (canRead_of_runWork hwork)
    · exact .inl (pending_eraseIdx (sameControl_runWork hwork).lanes hl hw hxw hx)

theorem State.ReadsInput.laneTurn {k n : Nat} {s t : State} (h : s.ReadsInput)
    (hturn : laneTurn k n s = .next t) : t.ReadsInput := by
  obtain ⟨hrows, hcols, -, hop⟩ := laneTurn_config hturn
  have hphase : t.phase = s.phase := by rw [(laneTurn_frame hturn).1]
  intro w hw
  rw [State.firstStage, hop, hrows, hcols] at hw
  have hmono (hread : s.CanRead w) : t.CanRead w := hread.mono hrows hcols (laneTurn_keepsWritten hturn)
  obtain hread | ⟨hidle, hpending⟩ := h w hw
  · exact .inl (hmono hread)
  · exact (laneTurn_pending_or_canRead hturn hpending).symm.imp hmono fun hpending =>
      ⟨hphase ▸ hidle, hpending⟩

/-- Where the stage is complete, every byte the first stage reads is written (R70). -/
theorem State.ReadsInput.canRead {s : State} (h : s.ReadsInput) (hrunning : RunningInv s)
    (hcomplete : s.stageComplete = true) {w : Work} (hw : s.firstStage.Item w) : s.CanRead w :=
  (h w hw).resolve_right fun ⟨_, hpending⟩ => hrunning.not_pending hcomplete w hpending

theorem State.ReadsInput.sequencerTurn {s t : State} (h : s.ReadsInput) (hrunning : RunningInv s)
    (hturn : sequencerTurn s = .next t) : t.ReadsInput := by
  rw [sequencerTurn_cases] at hturn
  split_ifs at hturn with hwait <;> cases hturn
  · exact h
  all_goals
    have hcomplete : s.stageComplete = true := by simpa using (not_or.mp hwait).1
    exact fun w hw => .inl (h.canRead hrunning hcomplete hw)

theorem State.ReadsInput.blockTurn {turn : Turn} {s t : State} (h : s.ReadsInput)
    (hrunning : RunningInv s) (hblock : Turn.ofBlock turn = true) (hturn : takeTurn turn s = .next t) :
    t.ReadsInput := by
  cases turn with
  | host => cases hblock
  | reset => cases hblock
  | sequencer => exact h.sequencerTurn hrunning hturn
  | lane k n => exact h.laneTurn hturn

theorem readsInput_started {s : State} (i : Instr) (hnmax : 1 ≤ s.params.nmax) :
    (s.started i).ReadsInput :=
  fun _ hw => .inr ⟨by cases i <;> nofun, pending_started i hnmax hw⟩

/-- However the block's turns fall, what has been done of the first stage has read written bytes. -/
theorem BlockRun.readsInput {s u : State} {m : Buffers} (h : BlockRun s u) (hs : Underway m s)
    (hreads : s.ReadsInput) : u.ReadsInput := by
  refine (h.induction (P := fun s => (Underway m s ∨ Ended m s) ∧ s.ReadsInput)
    (fun s ts ⟨hs, hreads⟩ => ⟨?_, hreads⟩) (fun turn s t hblock hturn ⟨hs, hreads⟩ => ?_)
    ⟨.inl hs, hreads⟩).2
  · exact hs.imp
      (fun hs => ⟨hs.busy, hs.phase, hs.running.congr (by constructor <;> rfl), hs.progress⟩)
      (fun hs => ⟨hs.idle, hs.phase, hs.done⟩)
  · obtain hs | hs := hs
    · exact ⟨hs.blockTurn hblock hturn, hreads.blockTurn hs.running hblock hturn⟩
    · obtain rfl := blockTurn_of_idle hs.phase hblock hturn
      exact ⟨.inr hs, hreads⟩

/-- When a command has completed, its input image is written. -/
theorem Completes.input_written {i : Instr} {s u : State} (h : Completes i s u)
    (hnmax : 1 ≤ s.params.nmax) :
    Written u.bufs (cmdInput i) (imageBytes s.rows.toNat s.cols.toNat (cmdInput i)) := by
  obtain ⟨hdims, hrun⟩ := h.accepted
  have hframe := hrun.frame
  have hreads := hrun.readsInput (underway_started i hnmax hdims) (readsInput_started i hnmax)
  have hphase := (h.ended hnmax).phase
  obtain rfl : u.curop = i := hframe.curop
  obtain hrows : u.lrows = s.rows.toNat := hframe.lrows
  obtain hcols : u.lcols = s.cols.toNat := hframe.lcols
  rw [← hrows, ← hcols]
  intro off hoff
  obtain ⟨r, c, k, hr, hc, hk, rfl⟩ := exists_pixelOffset_eq hoff
  have hread := (hreads _ (inputItem_item hr hc hk)).resolve_right fun ⟨hidle, _⟩ => hidle hphase
  exact hread _ _ (inputItem_reads hr hc hk)

/-- No command writes its own input image (R63). -/
theorem cmdInput_not_mem_cmdWrites (i : Instr) : cmdInput i ∉ cmdWrites i := by
  cases i <;> decide

/-- Settles O17: a completed command has read its whole input image, which it does not write. -/
theorem unwrittenInputNeverCompletes : Obligations.UnwrittenInputNeverCompletes := by
  unfold Obligations.UnwrittenInputNeverCompletes
  intro i s u hparams h off hoff
  have hnmax := nmax_pos_of_paramsOk hparams
  rw [← (h.commandDone hnmax).onlyImagesChange _ off (.inl (cmdInput_not_mem_cmdWrites i))]
  exact h.input_written hnmax off hoff

end Sys2Proof.Machine
